-- ==== Sys2Proof/Word.lean ====
section
/-! DEFINITION. The widths of the engine's data (spec/00_scope.md R8, R9) and their plainest arithmetic. -/

namespace Sys2Proof

/-- A host-port word: registers, lengths, counts, indices and write data (R9 `LEN_W`, R62). -/
abbrev Word := BitVec 32

/-- A byte cell of `IN`, `PK`, `OUT`, `VALUES` (R60). -/
abbrev Byte := BitVec 8

/-- A symbol, "an integer in [0,255]" (R8 `SYM_W`). -/
abbrev Sym8 := BitVec 8

/-- A node weight (R9 `WEIGHT_W`). -/
abbrev Weight := BitVec 40

/-- A code, a bit string whose first element is the first step from the root; `false` is 0, left
(R15). -/
abbrev Code := List Bool

/-- `KINDS_CAP`, the number of cells of `KINDS` (R9). -/
abbrev kindsCap : Nat := 511

/-- `VALUES_CAP`, the number of cells of `VALUES` (R9). -/
abbrev valuesCap : Nat := 256

/-- `ALPHA`, the number of symbols, of `FREQ` cells and of `CODE` entries (R8, R26, R27). -/
abbrev alphabetSize : Nat := 256

end Sys2Proof
end

