-- ==== Sys2Proof/Config.lean ====
section
/-! DEFINITION. What an implementation fixes (spec/00_scope.md R10) and the free values of what the
spec leaves without a value (spec/93_implementation_defined.md U1, U2). A free value is an opaque
constant: nothing in Lean can evaluate it or prove a value of it. -/

namespace Sys2Proof

/-- The kind of a tree node, the entry of `KINDS`; one bit, `INTERNAL = 1`, `LEAF = 0`
(spec/30_encoding.md R97). -/
inductive NodeKind where
  | internal
  | leaf
  deriving DecidableEq, Repr, Inhabited

/-- The parameter `TIEBREAK` (spec/41_tree_builder.md R124, R126, R127): which of several
minimum-weight entries BUILD removes. DESIGN CHOICE (log entry 4): plain data, either the reference
policy or the unknown policy of some other conforming engine, named by a number. -/
inductive TieBreak where
  | reference
  | other (engine : Nat)
  deriving DecidableEq, Repr

/-- The parameters of spec/00_scope.md R10 other than `HOST_BINDING`. -/
structure Config where
  /-- `IN_CAP`, register 0x0C. -/
  inCap : Word
  /-- `PK_CAP`, register 0x0D. -/
  pkCap : Word
  /-- `OUT_CAP`, register 0x0E. -/
  outCap : Word
  /-- `TIEBREAK`. -/
  tiebreak : TieBreak
  deriving DecidableEq, Repr

/-- The defaults of R10: 65536 cells in each open buffer, the reference tie-break. -/
def Config.default : Config := ⟨65536, 65536, 65536, .reference⟩

/-- Free value (U1): what the `n`-th read inside the operation of event `tick` gives for an unwritten
cell of `IN`, `VALUES` or `PK`. Log entry 2. -/
opaque Config.freeByte : (tick n : Nat) → Byte

/-- Free value (U1): the same for an unwritten cell of `KINDS`. Log entry 2. -/
opaque Config.freeKind : (tick n : Nat) → NodeKind

/-- Free value (U1): what the host's read of an unwritten cell returns at event `tick`. Log entry 2. -/
opaque Config.freeWord : (tick : Nat) → Word

/-- Free value (U2): the choice of engine `engine` at its `n`-th removal in a BUILD of the mapping
`freq`, taken modulo the number of minimum-weight entries. It depends on the mapping and on nothing
else, since "the same `FREQ` always gives the same `TREE`" (R127). Log entry 4. -/
opaque Config.tieChoice : (engine : Nat) → (freq : List (Nat × Word)) → (n : Nat) → Nat

end Sys2Proof
end

