-- ==== Sys2Proof/Syntax.lean ====
section
/-! DEFINITION. The instructions: one constructor per row of spec/opcode_table.json
(spec/30_encoding.md R92). No command carries an operand (R93). -/

namespace Sys2Proof

/-- The seven operations (spec/00_scope.md R2). -/
inductive Instr where
  /-- The frequency analyzer (spec/40_frequency_analyzer.md R111). -/
  | freq
  /-- The tree builder (spec/41_tree_builder.md R121). -/
  | build
  /-- The code table generator (spec/42_code_table_generator.md R141). -/
  | gencode
  /-- The tree serializer (spec/43_tree_serializer.md R151). -/
  | serialize
  /-- The tree deserializer (spec/44_tree_deserializer.md R161). -/
  | deserialize
  /-- The bitstream encoder (spec/45_bitstream_encoder.md R181). -/
  | encode
  /-- The bitstream decoder (spec/46_bitstream_decoder.md R196). -/
  | decode
  deriving DecidableEq, Repr

end Sys2Proof
end

