-- ==== Sys2Proof/WellFormed.lean ====
section
/-! DEFINITION. Well-formedness of instructions, command words and configurations. -/

namespace Sys2Proof

/-- An instruction has no operand (spec/30_encoding.md R93), so every one is well-formed. -/
def Instr.wf : Instr → Bool
  | .freq | .build | .gencode | .serialize | .deserialize | .encode | .decode => true

/-- The reserved field `RSV` of a command word (spec/30_encoding.md R91). -/
def rsvField (w : Word) : BitVec 28 := w.extractLsb' 4 28

/-- The opcode field `OP` of a command word (R91). -/
def opField (w : Word) : BitVec 4 := w.extractLsb' 0 4

/-- Check: the reserved field is zero (R91, R94). -/
def rsvZero (w : Word) : Bool := rsvField w == 0

/-- Check: the opcode is one of the seven assigned values (R92). -/
def opAssigned (w : Word) : Bool := 1 ≤ (opField w).toNat && (opField w).toNat ≤ 7

/-- A command word is legal exactly when both checks hold (R94). -/
def commandWordWf (w : Word) : Bool := rsvZero w && opAssigned w

/-- The bounds of spec/00_scope.md R10 on the open capacities. The upper bounds of `IN_CAP` and
`OUT_CAP`, `2^32 - 1`, hold by their width. -/
def Config.wf (c : Config) : Bool :=
  1 ≤ c.inCap.toNat && (1 ≤ c.pkCap.toNat && c.pkCap.toNat ≤ 2 ^ 29 - 1) && 1 ≤ c.outCap.toNat

end Sys2Proof
end

