-- ==== Sys2Proof/Decode.lean ====
section
/-! DEFINITION. The command decoder, total on all 2^32 words and rejecting by name, the encoder, and
the host's view of the opcode table (spec/30_encoding.md R91 to R94). -/

namespace Sys2Proof

/-- Why a command word is not one of the seven commands (R94). Both end in IllegalCommand. -/
inductive Reject where
  /-- `w[31:4] != 0`. -/
  | reservedField
  /-- `w[3:0]` is 0x0 or 0x8 to 0xF. -/
  | unassignedOpcode
  deriving DecidableEq, Repr

/-- What the decoder answers. -/
inductive Decoded where
  | ok (i : Instr)
  | rejected (why : Reject)
  deriving DecidableEq, Repr

/-- The opcode map (R92). -/
def decodeOpcode (op : BitVec 4) : Option Instr :=
  match op.toNat with
  | 1 => some .freq
  | 2 => some .build
  | 3 => some .gencode
  | 4 => some .serialize
  | 5 => some .deserialize
  | 6 => some .encode
  | 7 => some .decode
  | _ => none

/-- The decoder: "each of the 2^32 words is exactly one of the seven commands or illegal" (R94). -/
def decode (w : Word) : Decoded :=
  if rsvField w = 0 then
    match decodeOpcode (opField w) with
    | some i => .ok i
    | none => .rejected .unassignedOpcode
  else .rejected .reservedField

/-- The opcode of an instruction (R92). -/
def opcodeOf : Instr → BitVec 4
  | .freq => 1
  | .build => 2
  | .gencode => 3
  | .serialize => 4
  | .deserialize => 5
  | .encode => 6
  | .decode => 7

/-- The command word of an instruction: `RSV` zero above the opcode (R91). -/
def encode (i : Instr) : Word := (0#28 ++ opcodeOf i : BitVec 32)

/-- The instruction the decoder reads from a word of `nbits` bits given as a number, the bits above
`nbits` being zero. A command is one 32-bit word (R91), so no longer word is an instruction (log entry 14). -/
def decodeTableWord (nbits w : Nat) : Option Instr :=
  if nbits ≤ 32 then
    match decode (BitVec.ofNat 32 (w % 2 ^ nbits)) with
    | .ok i => some i
    | .rejected _ => none
  else none

end Sys2Proof
end

