-- ==== Sys2Proof/Machine/Tree.lean ====
section
/-! DEFINITION. The abstract tree and the functions on trees that the rules use
(spec/00_scope.md R14, R15). -/

namespace Sys2Proof.Machine

/-- `Tree ::= Leaf(s) | Node(l, r)`: the leaf/internal distinction is a constructor, never a symbol
value (R14, spec/30_encoding.md R96). -/
inductive HuffTree where
  | leaf (s : Sym8)
  | node (l r : HuffTree)
  deriving DecidableEq, Repr

/-- The number of nodes (R14). -/
def HuffTree.size : HuffTree → Nat
  | .leaf _ => 1
  | .node l r => 1 + l.size + r.size

/-- The number of leaves. -/
def HuffTree.leafCount : HuffTree → Nat
  | .leaf _ => 1
  | .node l r => l.leafCount + r.leafCount

/-- The leaf symbols, left to right (R14). -/
def HuffTree.leaves : HuffTree → List Sym8
  | .leaf s => [s]
  | .node l r => l.leaves ++ r.leaves

/-- The degenerate case: a root that is itself a leaf (spec/10_state.md R25). -/
def HuffTree.isLeaf : HuffTree → Bool
  | .leaf _ => true
  | .node _ _ => false

/-- One step of descent: "bit `1` descends right, bit `0` descends left"
(spec/46_bitstream_decoder.md R200). A leaf has no child and stays where it is. -/
def HuffTree.child (bit : Bool) : HuffTree → HuffTree
  | .leaf s => .leaf s
  | .node l r => if bit then r else l

/-- Every leaf's symbol with its path from the root, in the left-before-right depth-first order; `path`
is the path accumulated so far (spec/42_code_table_generator.md R141). -/
def HuffTree.walk : HuffTree → Code → List (Sym8 × Code)
  | .leaf s, path => [(s, path)]
  | .node l r, path => l.walk (path ++ [false]) ++ r.walk (path ++ [true])

end Sys2Proof.Machine
end

