-- ==== Sys2Proof/Machine/State.lean ====
section
/-! DEFINITION. The machine's state as plain data (spec/10_state.md), the host's transactions
(spec/20_memory.md R62), the reasons a step can stop, and the state after reset. -/

namespace Sys2Proof.Machine

/-- The cells of an address space that hold a value, as index and value, indices strictly rising. An
index that is not listed is an unwritten cell: it holds no value (spec/10_state.md R47). With byte
cells this is a list of `Host.Cell`. -/
abbrev Memory (α : Type) := List (Nat × α)

/-- The error kinds of `STATUS.ERR` (spec/60_exceptions.md R211). -/
inductive ErrKind where
  | noError
  | emptyAlphabet
  | unknownSymbol
  | malformedSerialization
  | truncatedBitstream
  | noOperand
  | capacityExceeded
  | illegalCommand
  deriving DecidableEq, Repr

/-- What the host can do to the engine: its two transactions (spec/20_memory.md R62) and the reset
input (spec/70_reset_and_hazards.md R240). The space number and the index are as the host gives
them; neither need exist. -/
inductive Transaction where
  | read (space : BitVec 4) (index : Word)
  | write (space : BitVec 4) (index data : Word)
  | reset
  deriving DecidableEq, Repr

/-- The result of a transaction (spec/20_memory.md R62). -/
inductive Response where
  /-- `Ok` of a write. -/
  | ok
  /-- `Ok(v)` of a read. -/
  | value (v : Word)
  /-- `Fault`: an access fault (R68). It changes no state and stops nothing. -/
  | fault
  deriving DecidableEq, Repr

/-- The whole architectural state (spec/10_state.md R21), the parameters, and three fields of the
model's own at the end. `STATUS` is computed from `err`, `tree`, `code` and `partialFlag`
(Flags.lean; log entry 6); `CMD` stores nothing (R42). -/
structure State where
  /-- The parameters, which no step changes (spec/00_scope.md R10; log entries 4 and 5). -/
  cfg : Config
  /-- `TREE`, no tree or one tree (R23). -/
  tree : Option HuffTree
  /-- `FREQ`, its non-zero cells: an unlisted symbol has count 0 (R26; log entry 7). -/
  freq : Memory Word
  /-- `CODE`, no table or a table whose unlisted symbols are absent (R27). -/
  code : Option (Memory Code)
  /-- `KINDS` (R28). -/
  kinds : Memory NodeKind
  /-- `VALUES` (R29). -/
  values : Memory Byte
  /-- `IN` (R30). -/
  inp : Memory Byte
  /-- `PK` (R31). -/
  pk : Memory Byte
  /-- `OUT` (R32). -/
  out : Memory Byte
  /-- `IN_LEN`, register 0x03 (R34). -/
  inLen : Word
  /-- `PK_LEN`, register 0x04 (R35). -/
  pkLen : Word
  /-- `BITCOUNT`, register 0x05 (R36). -/
  bitCount : Word
  /-- `SYMCOUNT`, register 0x06 (R37). -/
  symCount : Word
  /-- `OUT_LEN`, register 0x07 (R38). -/
  outLen : Word
  /-- `KINDS_LEN`, register 0x08 (R39). -/
  kindsLen : Word
  /-- `VALUES_LEN`, register 0x09 (R40). -/
  valuesLen : Word
  /-- `ROOT_WEIGHT`, registers 0x0A and 0x0B (R41). -/
  rootWeight : Weight
  /-- `STATUS.ERR` (R43). -/
  err : ErrKind
  /-- `STATUS.PARTIAL` (R43). -/
  partialFlag : Bool
  /-- `ERRINFO`, register 0x02 (R44). -/
  errInfo : Word
  /-- The result of the last transaction served, none before the first (log entry 8). -/
  response : Option Response
  /-- The model's own: how many events the engine has served; it selects the free values (log entry 3). -/
  tick : Nat
  /-- The model's own: what the host does next, in its order; host state (R22; log entry 1). -/
  pending : List Transaction
  deriving DecidableEq, Repr

/-- The reasons the machine stops with a fault. There are none: an abort and an access fault are
results of a transaction after which the engine accepts any other (spec/60_exceptions.md R212, R219,
R223), and "no rule lets the engine stop accepting transactions"
(spec/93_implementation_defined.md U17). -/
inductive Fault where
  deriving DecidableEq, Repr

/-- The reasons the model gives an instruction no meaning. -/
inductive Refusal where
  /-- Raised by `exec` alone, for an instruction that has no meaning yet. Safe: nothing is said of what
  such an instruction does. No arm of `exec` raises it. -/
  | notModelled (mnemonic : String)
  deriving DecidableEq, Repr

/-- What an operation or a step answers. -/
abbrev Result := Host.Outcome State Fault Refusal

/-- The state after reset of an engine with parameters `c` (spec/10_state.md R51): every register 0,
`FREQ` all 0, no tree, no table, every buffer cell unwritten. -/
def State.resetWith (c : Config) : State where
  cfg := c
  tree := none
  freq := []
  code := none
  kinds := []
  values := []
  inp := []
  pk := []
  out := []
  inLen := 0
  pkLen := 0
  bitCount := 0
  symCount := 0
  outLen := 0
  kindsLen := 0
  valuesLen := 0
  rootWeight := 0
  err := .noError
  partialFlag := false
  errInfo := 0
  response := none
  tick := 0
  pending := []

/-- The machine right after reset, with the default parameters of spec/00_scope.md R10. -/
def State.reset : State := State.resetWith Config.default

end Sys2Proof.Machine
end

