-- ==== Sys2Proof/Machine/Ops.lean ====
section
/-! DEFINITION. The shared operations: cells of an address space, the frequency mapping, most
significant bit first packing, and the completion and the abort of an operation
(spec/60_exceptions.md R212, R213). -/

namespace Sys2Proof.Machine

variable {α : Type}

/-- The value of cell `i`, none if it is unwritten (spec/10_state.md R47). -/
def Memory.read : Memory α → Nat → Option α
  | [], _ => none
  | (k, v) :: m, i => if k = i then some v else Memory.read m i

/-- Write `v` in cell `i`, which becomes written. -/
def Memory.write : Memory α → Nat → α → Memory α
  | [], i, v => [(i, v)]
  | (k, w) :: m, i, v =>
    if i < k then (i, v) :: (k, w) :: m
    else if i = k then (i, v) :: m
    else (k, w) :: Memory.write m i v

/-- Make cell `i` unlisted. -/
def Memory.erase (m : Memory α) (i : Nat) : Memory α := m.filter fun e => e.1 ≠ i

/-- The cells `k`, `k + 1`, … holding the given values. -/
def Memory.number : Nat → List α → Memory α
  | _, [] => []
  | k, v :: vs => (k, v) :: Memory.number (k + 1) vs

/-- Write the given values in cells 0, 1, …; the cells beyond keep their state
(spec/20_memory.md R80). -/
def Memory.fill (m : Memory α) (vs : List α) : Memory α :=
  Memory.number 0 vs ++ m.filter fun e => vs.length ≤ e.1

/-- The listed indices rise strictly and start at `lo` or above. -/
def Memory.rising : Nat → Memory α → Bool
  | _, [] => true
  | lo, (k, _) :: m => lo ≤ k && Memory.rising (k + 1) m

/-- The canonical form of a space of `cap` cells: indices strictly rising and below `cap`. An unlisted
cell holds no value, so no entry can equal what it reads as. -/
def Memory.wf (cap : Nat) (m : Memory α) : Bool := Memory.rising 0 m && m.all fun e => e.1 < cap

/-- Cells 0 to `n - 1` are all written. -/
def Memory.writtenBelow (m : Memory α) (n : Nat) : Bool :=
  (List.range n).all fun i => (m.read i).isSome

/-- The count that the frequency mapping gives a symbol; no entry is count 0 (spec/10_state.md R26). -/
def countAt (m : Memory Word) (sym : Sym8) : Word := (m.read sym.toNat).getD 0

/-- Set a symbol's count; count 0 removes the entry, so that equal mappings are equal lists. -/
def setCount (m : Memory Word) (sym : Sym8) (v : Word) : Memory Word :=
  if v = 0 then m.erase sym.toNat else m.write sym.toNat v

/-- The canonical form of the frequency mapping: 256 cells, no entry with count 0. -/
def freqWf (m : Memory Word) : Bool := m.wf alphabetSize && m.all fun e => e.2 ≠ 0

/-- All symbols, ascending. -/
def allSymbols : List Sym8 := (List.range alphabetSize).map (BitVec.ofNat 8)

/-- The number whose `n` bits are `f 0`, `f 1`, …, the first one the most significant: the sum over
`k < n` of `f k * 2^(n - 1 - k)` (spec/45_bitstream_encoder.md R181, spec/20_memory.md R66, R69). -/
def packMsb (n : Nat) (f : Nat → Bool) : Nat :=
  (List.range n).foldl (fun acc k => 2 * acc + (f k).toNat) 0

/-- What every command writes when it completes: `STATUS.ERR`, `ERRINFO`, `STATUS.PARTIAL`
(spec/30_encoding.md R90). -/
def report (k : ErrKind) (info : Word) (p : Bool) (s : State) : State :=
  { s with err := k, errInfo := info, partialFlag := p }

/-- The end of a successful operation. -/
def complete (p : Bool) (s : State) : Result := .next (report .noError 0 p s)

/-- Put every output of an operation into its empty state (spec/60_exceptions.md R213; the outputs are
the "writes on success" column of spec/30_encoding.md R93). -/
def invalidate (i : Instr) (s : State) : State :=
  match i with
  | .freq => { s with freq := [] }
  | .build => { s with tree := none, rootWeight := 0 }
  | .gencode => { s with code := none }
  | .serialize => { s with kinds := [], kindsLen := 0, values := [], valuesLen := 0 }
  | .deserialize => { s with tree := none, rootWeight := 0 }
  | .encode => { s with pk := [], pkLen := 0, bitCount := 0, symCount := 0 }
  | .decode => { s with out := [], outLen := 0 }

/-- The state after operation `i` aborts with kind `k` and detail `info`: outputs invalidated, the kind
and the detail reported, `PARTIAL` cleared, nothing else saved or changed (R212). -/
def aborted (i : Instr) (k : ErrKind) (info : Word) (s : State) : State :=
  report k info false (invalidate i s)

/-- `raise Kind(info)`: taking an abort (R212). The engine goes on; there is no return from it (R223). -/
def raise (i : Instr) (k : ErrKind) (info : Word) (s : State) : Result := .next (aborted i k info s)

/-- The state after an illegal command word, which has no operation and so no outputs (R213, R221,
spec/30_encoding.md R94). -/
def illegal (s : State) : State := report .illegalCommand 0 false s

end Sys2Proof.Machine
end

