-- ==== Sys2Proof/Machine/Builder.lean ====
section
/-! DEFINITION. BUILD, the tree builder (spec/41_tree_builder.md). -/

namespace Sys2Proof.Machine

/-- An entry of the priority structure (R122). Weights are computed exactly and narrowed to the 40 bits of
`ROOT_WEIGHT` at the end: "the 40-bit addition never wraps and comparison is on exact values" (R131; DEDUCED,
log entry 17). -/
structure PqEntry where
  weight : Nat
  seq : Nat
  tree : HuffTree
  deriving DecidableEq, Repr

/-- The present symbols of a mapping, ascending (R121, R123). -/
def presentSymbols (m : Memory Word) : List Sym8 :=
  ((List.range alphabetSize).filter fun i => (m.read i).getD 0 ≠ 0).map (BitVec.ofNat 8)

/-- The leaf entries of the present symbols, the first with sequence number `seq` (R123). -/
def leafEntries (m : Memory Word) : Nat → List Sym8 → List PqEntry
  | _, [] => []
  | seq, b :: bs => ⟨(countAt m b).toNat, seq, .leaf b⟩ :: leafEntries m (seq + 1) bs

/-- The least weight present in the priority structure (R124). -/
def leastWeight (pq : List PqEntry) : Nat := ((pq.map PqEntry.weight).min?).getD 0

/-- The entries of least weight; the priority structure is kept in order of insertion, so these are in
ascending order of `seq`. -/
def leastEntries (pq : List PqEntry) : List PqEntry :=
  pq.filter fun e => e.weight = leastWeight pq

/-- `remove_min` (R124): one of the entries of least weight, the one at position `choice` modulo their
number, and what remains. None when the structure is empty. -/
def removeMin (choice : Nat) (pq : List PqEntry) : Option (PqEntry × List PqEntry) :=
  match leastEntries pq with
  | [] => none
  | e :: es =>
    let r := (e :: es).getD (choice % (es.length + 1)) e
    some (r, pq.erase r)

/-- The choice at the `n`-th removal of a BUILD of `freq`: the reference policy takes the entry inserted
earliest (R126), another engine its own (R127). -/
def tieIndex (t : TieBreak) (freq : Memory Word) (n : Nat) : Nat :=
  match t with
  | .reference => 0
  | .other engine => Config.tieChoice engine freq n

/-- The entry that merges `a`, removed first, with `b`: `left = a`, `right = b` (R124). -/
def mergeEntry (seq : Nat) (a b : PqEntry) : PqEntry :=
  ⟨a.weight + b.weight, seq, .node a.tree b.tree⟩

/-- The merge step (R124). `choice 0` and `choice 1` settle its two removals. With fewer than two
entries nothing is left to merge. -/
def mergeStep (choice : Nat → Nat) (seq : Nat) (pq : List PqEntry) : List PqEntry :=
  match removeMin (choice 0) pq with
  | none => pq
  | some (a, pq₁) =>
    match removeMin (choice 1) pq₁ with
    | none => pq
    | some (b, pq₂) => pq₂ ++ [mergeEntry seq a b]

/-- Merge step `k`, `k + 1`, …, `fuel` of them; `n` is the number of leaves, so merge `k` inserts
sequence number `n + k`. -/
def mergeSteps (choice : Nat → Nat) (n : Nat) : (fuel k : Nat) → List PqEntry → List PqEntry
  | 0, _, pq => pq
  | fuel + 1, k, pq =>
    mergeSteps choice n fuel (k + 1) (mergeStep (fun j => choice (2 * k + j)) (n + k) pq)

/-- The root entry: the one entry left after `n - 1` merges of the `n` leaves (R125); none when there is
no leaf. -/
def mergeLeaves (choice : Nat → Nat) (leaves : List PqEntry) : Option PqEntry :=
  match leaves with
  | [] => none
  | e :: es => (mergeSteps choice (es.length + 1) es.length 0 (e :: es)).head?

/-- The root entry of a BUILD of `freq`; none when no symbol is present (R121). -/
def buildRoot (t : TieBreak) (freq : Memory Word) : Option PqEntry :=
  mergeLeaves (tieIndex t freq) (leafEntries freq 0 (presentSymbols freq))

/-- What a successful BUILD or DESERIALIZE writes: `TREE` with `TV` and `SINGLE`, and `ROOT_WEIGHT`. -/
def writeTree (t : HuffTree) (w : Weight) (s : State) : State :=
  { s with tree := some t, rootWeight := w }

/-- BUILD (R121). -/
def execBuild (s : State) : Result :=
  match buildRoot s.cfg.tiebreak s.freq with
  | none => raise .build .emptyAlphabet 0 s
  | some r => complete false (writeTree r.tree (BitVec.ofNat 40 r.weight) s)

end Sys2Proof.Machine
end

