-- ==== Sys2Proof/Machine/CodeTable.lean ====
section
/-! DEFINITION. GENCODE, the code table generator (spec/42_code_table_generator.md). -/

namespace Sys2Proof.Machine

/-- `CODE[s] := path` for the leaves of a walk in order, a later one replacing an earlier one (R141,
R145), from the table with every entry absent. -/
def tableOf (walk : List (Sym8 × Code)) : Memory Code :=
  walk.foldl (fun m e => m.write e.1.toNat e.2) []

/-- The code table of a tree (R141). -/
def codeTable (t : HuffTree) : Memory Code := tableOf (t.walk [])

/-- `CODE[sym]` in a table, none when absent (spec/10_state.md R27). -/
def codeOf (m : Memory Code) (sym : Sym8) : Option Code := m.read sym.toNat

/-- What a successful GENCODE writes: all 256 entries of `CODE`, and `CV`. -/
def writeCode (m : Memory Code) (s : State) : State := { s with code := some m }

/-- GENCODE (R141). -/
def execGencode (s : State) : Result :=
  match s.tree with
  | none => raise .gencode .noOperand 0 s
  | some t => complete false (writeCode (codeTable t) s)

end Sys2Proof.Machine
end

