-- ==== Sys2Proof/Machine/Operands.lean ====
section
/-! DEFINITION. The implicit operands of the operations (spec/30_encoding.md R93): the live cells of the
input buffers. An unwritten live cell reads as a free value, fresh for each event and each read
(spec/93_implementation_defined.md U1; DESIGN CHOICE, log entry 2). -/

namespace Sys2Proof.Machine

/-- Cells 0 to `n - 1` of a byte buffer, as an operation of event `tick` reads them. -/
def liveBytes (m : Memory Byte) (tick n : Nat) : List Byte :=
  (List.range n).map fun i => (m.read i).getD (Config.freeByte tick i)

/-- Cells 0 to `n - 1` of `KINDS`. -/
def liveKinds (m : Memory NodeKind) (tick n : Nat) : List NodeKind :=
  (List.range n).map fun i => (m.read i).getD (Config.freeKind tick i)

/-- Bits 0 to `n - 1` of the packed bitstream: bit `p` is bit `7 - (p mod 8)` of byte `p div 8`
(spec/20_memory.md R69). -/
def liveBits (m : Memory Byte) (tick n : Nat) : List Bool :=
  (List.range n).map fun p => ((m.read (p / 8)).getD (Config.freeByte tick p)).getLsbD (7 - p % 8)

/-- `IN[0 .. IN_LEN - 1]`, the input of FREQ and ENCODE. -/
def State.input (s : State) : List Byte := liveBytes s.inp s.tick s.inLen.toNat

/-- `KINDS[0 .. KINDS_LEN - 1]`, an input of DESERIALIZE. -/
def State.kindsIn (s : State) : List NodeKind := liveKinds s.kinds s.tick s.kindsLen.toNat

/-- `VALUES[0 .. VALUES_LEN - 1]`, an input of DESERIALIZE. -/
def State.valuesIn (s : State) : List Byte := liveBytes s.values s.tick s.valuesLen.toNat

/-- The first `BITCOUNT` bits of `PK`, the input of DECODE. -/
def State.bitsIn (s : State) : List Bool := liveBits s.pk s.tick s.bitCount.toNat

/-- The host has written every live cell that the operation reads (spec/70_reset_and_hazards.md R244):
the premise under which a result is not unspecified. -/
def inputsWritten (i : Instr) (s : State) : Bool :=
  match i with
  | .freq | .encode => s.inp.writtenBelow s.inLen.toNat
  | .deserialize =>
    s.kinds.writtenBelow s.kindsLen.toNat && s.values.writtenBelow s.valuesLen.toNat
  | .decode => s.pk.writtenBelow ((s.bitCount.toNat + 7) / 8)
  | .build | .gencode | .serialize => true

end Sys2Proof.Machine
end

