-- ==== Sys2Proof/Machine/Decoder.lean ====
section
/-! DEFINITION. DECODE, the bitstream decoder (spec/46_bitstream_decoder.md). -/

namespace Sys2Proof.Machine

/-- The walk of the general case (R196): the symbols emitted from here on and whether the walk ends
inside a code; none when an emission would pass `outCap`, `m` having been made. `root` is `TREE`,
`cur` the cursor, `inside` whether it is below the root (R199). -/
def decodeWalk (root : HuffTree) (outCap : Nat) :
    (cur : HuffTree) → (inside : Bool) → (m : Nat) → List Bool → Option (List Sym8 × Bool)
  | _, inside, _, [] => some ([], inside)
  | cur, _, m, bit :: bits =>
    match cur.child bit with
    | .leaf s =>
      if m = outCap then none
      else
        match decodeWalk root outCap root false (m + 1) bits with
        | none => none
        | some r => some (s :: r.1, r.2)
    | .node l r => decodeWalk root outCap (.node l r) true m bits

/-- What a successful DECODE writes: the first cells of `OUT` and `OUT_LEN` (R196). -/
def writeOut (syms : List Sym8) (s : State) : State :=
  { s with out := s.out.fill syms, outLen := BitVec.ofNat 32 syms.length }

/-- DECODE (R196), with its checks in the order of R198. A single-leaf tree emits its symbol `SYMCOUNT`
times and interprets no bit (R202). -/
def execDecode (s : State) : Result :=
  match s.tree with
  | none => raise .decode .noOperand 0 s
  | some t =>
    if s.cfg.pkCap.toNat < s.pkLen.toNat then raise .decode .capacityExceeded 0 s
    else if 8 * s.pkLen.toNat < s.bitCount.toNat then raise .decode .truncatedBitstream 0 s
    else
      match t with
      | .leaf sym =>
        if s.cfg.outCap.toNat < s.symCount.toNat then raise .decode .capacityExceeded 0 s
        else complete false (writeOut (List.replicate s.symCount.toNat sym) s)
      | .node l r =>
        match decodeWalk (.node l r) s.cfg.outCap.toNat (.node l r) false 0 s.bitsIn with
        | none => raise .decode .capacityExceeded 0 s
        | some o => complete o.2 (writeOut o.1 s)

end Sys2Proof.Machine
end

