-- ==== Sys2Proof/Machine/Deserializer.lean ====
section
/-! DEFINITION. DESERIALIZE, the tree deserializer (spec/44_tree_deserializer.md). -/

namespace Sys2Proof.Machine

/-- The sub-causes of MalformedSerialization (R166). -/
inductive SubCause where
  /-- 1: `KINDS_LEN = 0`. -/
  | noRoot
  /-- 2: a `LEAF` entry is met when the values are used up. -/
  | valuesUsedUp
  /-- 3: an entry after the first is met when the queue is empty. -/
  | overConsumed
  /-- 4: all entries are consumed and the queue is not empty. -/
  | truncated
  /-- 5: all entries are consumed, the queue is empty, and values are left. -/
  | valuesLeft
  deriving DecidableEq, Repr

/-- The number of a sub-cause in `ERRINFO` (R166). -/
def SubCause.toCode : SubCause → Word
  | .noRoot => 1
  | .valuesUsedUp => 2
  | .overConsumed => 3
  | .truncated => 4
  | .valuesLeft => 5

/-- A node record under construction; a child is absent or the number of a record (R164). -/
inductive NodeRec where
  | leaf (s : Sym8)
  | internal (left right : Option Nat)
  deriving DecidableEq, Repr

/-- The state local to DESERIALIZE (R164): the records, of which record `i` is made from entry `i`; the
queue of awaiting parents; the cursor into the values. -/
structure Building where
  nodes : List NodeRec
  queue : List Nat
  cur : Nat
  deriving DecidableEq, Repr

/-- `make` (R161): a leaf takes the next unused value, an internal node joins the back of the queue. -/
def makeNode (values : List Byte) (k : NodeKind) (b : Building) : Except SubCause Building :=
  match k with
  | .leaf =>
    match values[b.cur]? with
    | none => .error .valuesUsedUp
    | some v => .ok ⟨b.nodes ++ [.leaf v], b.queue, b.cur + 1⟩
  | .internal => .ok ⟨b.nodes ++ [.internal none none], b.queue ++ [b.nodes.length], b.cur⟩

/-- Attach record `n` to the parent at the front of the queue, as its left child if it has none yet,
else as its right child, which takes the parent off the queue (R165). The front is always an internal
record. -/
def attach (n : Nat) (b : Building) : Building :=
  match b.queue with
  | [] => b
  | p :: q =>
    match b.nodes[p]? with
    | some (.internal none r) => ⟨b.nodes.set p (.internal (some n) r), p :: q, b.cur⟩
    | some (.internal (some l) _) => ⟨b.nodes.set p (.internal (some l) (some n)), q, b.cur⟩
    | some (.leaf _) => b
    | none => b

/-- One entry after the first: the queue is tested before the node is made (R161, R165). -/
def parseEntry (values : List Byte) (k : NodeKind) (b : Building) : Except SubCause Building :=
  match b.queue with
  | [] => .error .overConsumed
  | _ :: _ =>
    match makeNode values k b with
    | .error c => .error c
    | .ok b' => .ok (attach b.nodes.length b')

/-- The entries after the first, in ascending index (R167). -/
def parseEntries (values : List Byte) : List NodeKind → Building → Except SubCause Building
  | [], b => .ok b
  | k :: ks, b =>
    match parseEntry values k b with
    | .error c => .error c
    | .ok b' => parseEntries values ks b'

/-- The records read from record `i` down as a tree (R164); none if a record lacks a child. `fuel`
bounds the depth. -/
def readTree (nodes : List NodeRec) : (fuel i : Nat) → Option HuffTree
  | 0, _ => none
  | fuel + 1, i =>
    match nodes[i]? with
    | some (.leaf s) => some (.leaf s)
    | some (.internal (some l) (some r)) =>
      match readTree nodes fuel l, readTree nodes fuel r with
      | some tl, some tr => some (.node tl tr)
      | _, _ => none
    | _ => none

/-- The checks after the last entry, sub-cause 4 before 5, and the tree (R161, R167). A record that
lacks a child is sub-cause 4, "some internal node lacks a child"; with the queue empty none does (DEDUCED, log entry 15). -/
def finishTree (values : List Byte) (b : Building) : Except SubCause HuffTree :=
  match b.queue with
  | _ :: _ => .error .truncated
  | [] =>
    if b.cur ≠ values.length then .error .valuesLeft
    else
      match readTree b.nodes b.nodes.length 0 with
      | some t => .ok t
      | none => .error .truncated

/-- The tree of a pair, or the sub-cause met first (R161, R167). -/
def deserializePair (kinds : List NodeKind) (values : List Byte) : Except SubCause HuffTree :=
  match kinds with
  | [] => .error .noRoot
  | k :: ks =>
    match makeNode values k ⟨[], [], 0⟩ with
    | .error c => .error c
    | .ok b =>
      match parseEntries values ks b with
      | .error c => .error c
      | .ok b' => finishTree values b'

/-- DESERIALIZE (R161). The capacity is tested before any entry is read (R163). -/
def execDeserialize (s : State) : Result :=
  if kindsCap < s.kindsLen.toNat ∨ valuesCap < s.valuesLen.toNat then
    raise .deserialize .capacityExceeded 0 s
  else
    match deserializePair s.kindsIn s.valuesIn with
    | .error c => raise .deserialize .malformedSerialization c.toCode s
    | .ok t => complete false (writeTree t 0 s)

end Sys2Proof.Machine
end

