-- ==== Sys2Proof/Machine/Encoder.lean ====
section
/-! DEFINITION. ENCODE, the bitstream encoder (spec/45_bitstream_encoder.md). -/

namespace Sys2Proof.Machine

/-- The concatenated codes of the input from index `i` on, `n` bits being held already; or the error
kind and the detail of the first abort met (R181): for each byte UnknownSymbol before the capacity
(R184). `maxBits` is `8 * PK_CAP`. -/
def encodeBytes (table : Memory Code) (maxBits : Nat) :
    (i n : Nat) → List Byte → Except (ErrKind × Word) (List Bool)
  | _, _, [] => .ok []
  | i, n, b :: bs =>
    match codeOf table b with
    | none => .error (.unknownSymbol, BitVec.ofNat 32 i)
    | some c =>
      if maxBits < n + c.length then .error (.capacityExceeded, 0)
      else
        match encodeBytes table maxBits (i + 1) (n + c.length) bs with
        | .error e => .error e
        | .ok bits => .ok (c ++ bits)

/-- Zero bits up to the next multiple of 8 (R185). -/
def padBits (bits : List Bool) : List Bool :=
  bits ++ List.replicate ((8 - bits.length % 8) % 8) false

/-- Byte `j` of a padded bit sequence, its first bit the most significant (R181, R186). -/
def byteOf (bits : List Bool) (j : Nat) : Byte :=
  BitVec.ofNat 8 (packMsb 8 fun k => bits.getD (8 * j + k) false)

/-- The bytes of a padded bit sequence (R181). -/
def packBytes (bits : List Bool) : List Byte :=
  (List.range (bits.length / 8)).map (byteOf bits)

/-- What a successful ENCODE writes: the first cells of `PK`, `PK_LEN`, `BITCOUNT`, and
`SYMCOUNT <- IN_LEN` (R181, R187). -/
def writePacked (bits : List Bool) (s : State) : State :=
  { s with
    pk := s.pk.fill (packBytes (padBits bits))
    pkLen := BitVec.ofNat 32 ((padBits bits).length / 8)
    bitCount := BitVec.ofNat 32 bits.length
    symCount := s.inLen }

/-- ENCODE (R181). -/
def execEncode (s : State) : Result :=
  match s.code with
  | none => raise .encode .noOperand 0 s
  | some table =>
    if s.cfg.inCap.toNat < s.inLen.toNat then raise .encode .capacityExceeded 0 s
    else
      match encodeBytes table (8 * s.cfg.pkCap.toNat) 0 0 s.input with
      | .error e => raise .encode e.1 e.2 s
      | .ok bits => complete false (writePacked bits s)

end Sys2Proof.Machine
end

