-- ==== Sys2Proof/Machine/Frequency.lean ====
section
/-! DEFINITION. FREQ, the frequency analyzer (spec/40_frequency_analyzer.md). -/

namespace Sys2Proof.Machine

/-- `cnt[b] := cnt[b] + 1` for every byte, from the empty mapping (R111). Each byte of `IN` is read
once (log entry 13). -/
def countBytes (bs : List Byte) : Memory Word :=
  bs.foldl (fun m b => setCount m b (countAt m b + 1)) []

/-- What a successful FREQ writes: all 256 cells of `FREQ` (R112). -/
def writeFreq (m : Memory Word) (s : State) : State := { s with freq := m }

/-- FREQ (R111). -/
def execFreq (s : State) : Result :=
  if s.cfg.inCap.toNat < s.inLen.toNat then raise .freq .capacityExceeded 0 s
  else complete false (writeFreq (countBytes s.input) s)

end Sys2Proof.Machine
end

