-- ==== Sys2Proof/Machine/Serializer.lean ====
section
/-! DEFINITION. SERIALIZE, the tree serializer (spec/43_tree_serializer.md). -/

namespace Sys2Proof.Machine

/-- The breadth-first traversal (R151): dequeue a node, emit its kind and a leaf's symbol, enqueue its
children left before right. `fuel` bounds the number of nodes visited. -/
def serializeQueue : (fuel : Nat) → (q : List HuffTree) → List NodeKind × List Byte
  | 0, _ => ([], [])
  | _ + 1, [] => ([], [])
  | fuel + 1, .leaf s :: q =>
    let rest := serializeQueue fuel q
    (.leaf :: rest.1, s :: rest.2)
  | fuel + 1, .node l r :: q =>
    let rest := serializeQueue fuel (q ++ [l, r])
    (.internal :: rest.1, rest.2)

/-- The pair (`kinds`, `values`) of a tree: the queue starts with the root alone, and every node is
visited once. -/
def serializeTree (t : HuffTree) : List NodeKind × List Byte := serializeQueue t.size [t]

/-- What a successful SERIALIZE writes: the first cells of `KINDS` and `VALUES` and their lengths; the
cells beyond keep their state (R151). -/
def writePair (ks : List NodeKind) (vs : List Byte) (s : State) : State :=
  { s with
    kinds := s.kinds.fill ks, kindsLen := BitVec.ofNat 32 ks.length
    values := s.values.fill vs, valuesLen := BitVec.ofNat 32 vs.length }

/-- SERIALIZE (R151). -/
def execSerialize (s : State) : Result :=
  match s.tree with
  | none => raise .serialize .noOperand 0 s
  | some t => complete false (writePair (serializeTree t).1 (serializeTree t).2 s)

end Sys2Proof.Machine
end

