-- ==== Sys2Proof/Machine/Flags.lean ====
section
/-! DEFINITION. The `STATUS` register and its fields (spec/10_state.md R25, R27, R43) and the error
codes (spec/60_exceptions.md R211). -/

namespace Sys2Proof.Machine

/-- The code of an error kind in `STATUS.ERR` (R211). Codes 8 to 15 are never written. -/
def ErrKind.toCode : ErrKind → BitVec 4
  | .noError => 0
  | .emptyAlphabet => 1
  | .unknownSymbol => 2
  | .malformedSerialization => 3
  | .truncatedBitstream => 4
  | .noOperand => 5
  | .capacityExceeded => 6
  | .illegalCommand => 7

/-- `TV`: 1 exactly when `TREE` holds a tree (R25). -/
def State.tv (s : State) : Bool := s.tree.isSome

/-- `CV`: 1 exactly when `CODE` holds a table (R27). -/
def State.cv (s : State) : Bool := s.code.isSome

/-- `SINGLE`: 1 exactly when `TREE` holds a tree that is a single leaf (R25). -/
def State.single (s : State) : Bool :=
  match s.tree with
  | some t => t.isLeaf
  | none => false

/-- `STATUS`: bits 3:0 `ERR`, bit 4 `TV`, bit 5 `CV`, bit 6 `SINGLE`, bit 7 `PARTIAL`, zeros above
(R43). -/
def State.status (s : State) : Word :=
  0#24 ++ BitVec.ofBool s.partialFlag ++ BitVec.ofBool s.single ++ BitVec.ofBool s.cv
    ++ BitVec.ofBool s.tv ++ s.err.toCode

end Sys2Proof.Machine
end

