-- ==== Sys2Proof/Machine/Registers.lean ====
section
/-! DEFINITION. The register file as the host sees it (spec/10_state.md R46, spec/20_memory.md R63). -/

namespace Sys2Proof.Machine

/-- The fifteen registers (R46). -/
inductive Register where
  | cmd
  | status
  | errInfo
  | inLen
  | pkLen
  | bitCount
  | symCount
  | outLen
  | kindsLen
  | valuesLen
  | rootWeightLo
  | rootWeightHi
  | inCap
  | pkCap
  | outCap
  deriving DecidableEq, Repr

/-- The number of a register (R46). -/
def Register.number : Register → Word
  | .cmd => 0x00
  | .status => 0x01
  | .errInfo => 0x02
  | .inLen => 0x03
  | .pkLen => 0x04
  | .bitCount => 0x05
  | .symCount => 0x06
  | .outLen => 0x07
  | .kindsLen => 0x08
  | .valuesLen => 0x09
  | .rootWeightLo => 0x0A
  | .rootWeightHi => 0x0B
  | .inCap => 0x0C
  | .pkCap => 0x0D
  | .outCap => 0x0E

/-- The register with a number; "a register number not in the table does not exist" (R46). -/
def registerAt (n : Word) : Option Register :=
  match n.toNat with
  | 0x00 => some .cmd
  | 0x01 => some .status
  | 0x02 => some .errInfo
  | 0x03 => some .inLen
  | 0x04 => some .pkLen
  | 0x05 => some .bitCount
  | 0x06 => some .symCount
  | 0x07 => some .outLen
  | 0x08 => some .kindsLen
  | 0x09 => some .valuesLen
  | 0x0A => some .rootWeightLo
  | 0x0B => some .rootWeightHi
  | 0x0C => some .inCap
  | 0x0D => some .pkCap
  | 0x0E => some .outCap
  | _ => none

/-- What a read of a register returns; none for `CMD`, which is write only (R63). -/
def readRegister (r : Register) (s : State) : Option Word :=
  match r with
  | .cmd => none
  | .status => some s.status
  | .errInfo => some s.errInfo
  | .inLen => some s.inLen
  | .pkLen => some s.pkLen
  | .bitCount => some s.bitCount
  | .symCount => some s.symCount
  | .outLen => some s.outLen
  | .kindsLen => some s.kindsLen
  | .valuesLen => some s.valuesLen
  | .rootWeightLo => some (s.rootWeight.setWidth 32)
  | .rootWeightHi => some ((s.rootWeight >>> 32).setWidth 32)
  | .inCap => some s.cfg.inCap
  | .pkCap => some s.cfg.pkCap
  | .outCap => some s.cfg.outCap

/-- A write to a register other than `CMD`: a writable register stores all 32 bits, any other gives none
(R63). A write to `CMD` is a command and does not come here. -/
def writeRegister (r : Register) (v : Word) (s : State) : Option State :=
  match r with
  | .inLen => some { s with inLen := v }
  | .pkLen => some { s with pkLen := v }
  | .bitCount => some { s with bitCount := v }
  | .symCount => some { s with symCount := v }
  | .kindsLen => some { s with kindsLen := v }
  | .valuesLen => some { s with valuesLen := v }
  | .cmd | .status | .errInfo | .outLen | .rootWeightLo | .rootWeightHi => none
  | .inCap | .pkCap | .outCap => none

end Sys2Proof.Machine
end

