-- ==== Sys2Proof/Machine/HostPort.lean ====
section
/-! DEFINITION. The host's transactions: buffer and register accesses, commands and reset
(spec/20_memory.md R60 to R68, spec/30_encoding.md R90, spec/70_reset_and_hazards.md R240). -/

namespace Sys2Proof.Machine

/-- The nine address spaces (spec/20_memory.md R60). -/
inductive Space where
  | reg
  | inp
  | freq
  | kinds
  | values
  | pk
  | out
  | codeInfo
  | codeWord
  deriving DecidableEq, Repr

/-- The number of a space (R60). -/
def Space.number : Space → BitVec 4
  | .reg => 0
  | .inp => 1
  | .freq => 2
  | .kinds => 3
  | .values => 4
  | .pk => 5
  | .out => 6
  | .codeInfo => 7
  | .codeWord => 8

/-- The space with a number; 0x9 to 0xF do not exist (R61). -/
def spaceAt (n : BitVec 4) : Option Space :=
  match n.toNat with
  | 0 => some .reg
  | 1 => some .inp
  | 2 => some .freq
  | 3 => some .kinds
  | 4 => some .values
  | 5 => some .pk
  | 6 => some .out
  | 7 => some .codeInfo
  | 8 => some .codeWord
  | _ => none

/-- The bit of a `KINDS` entry (spec/30_encoding.md R97). -/
def kindToWord : NodeKind → Word
  | .internal => 1
  | .leaf => 0

/-- The `KINDS` entry of write data; none above 1 (spec/20_memory.md R64). -/
def kindOfData (v : Word) : Option NodeKind :=
  match v.toNat with
  | 0 => some .leaf
  | 1 => some .internal
  | _ => none

/-- The byte of write data; none above 255 (R64). -/
def byteOfData (v : Word) : Option Byte := if v.toNat ≤ 255 then some (v.setWidth 8) else none

/-- What a host read of a byte cell returns: the cell zero-extended, for an unwritten cell a free value
(R65, spec/93_implementation_defined.md U1; DESIGN CHOICE, log entry 2). -/
def cellWord (m : Memory Byte) (tick i : Nat) : Word :=
  match m.read i with
  | some b => b.setWidth 32
  | none => Config.freeWord tick

/-- The same for a cell of `KINDS`. -/
def kindWord (m : Memory NodeKind) (tick i : Nat) : Word :=
  match m.read i with
  | some k => kindToWord k
  | none => Config.freeWord tick

/-- `CODE_INFO[s]`: `PRESENT` in bit 8, `LEN` in bits 7:0, zeros above (R66). -/
def codeInfo (c : Option Code) : Word :=
  match c with
  | some bits => 0x100 ||| (BitVec.ofNat 8 bits.length).setWidth 32
  | none => 0

/-- Word `j` of a code: code bit `i` is bit `31 - (i mod 32)` of word `i div 32`; positions at or beyond
the length and all words of an absent entry are 0 (R66). -/
def codeWord (c : Option Code) (j : Nat) : Word :=
  match c with
  | some bits => BitVec.ofNat 32 (packMsb 32 fun k => bits.getD (32 * j + k) false)
  | none => 0

/-- The value that `Read(space, i)` returns, or none for an access fault (R63, R65 to R68). -/
def readSpace (sp : Space) (i : Word) (s : State) : Option Word :=
  match sp with
  | .reg =>
    match registerAt i with
    | some r => readRegister r s
    | none => none
  | .inp => if i.toNat < s.cfg.inCap.toNat then some (cellWord s.inp s.tick i.toNat) else none
  | .freq => if i.toNat < alphabetSize then some (countAt s.freq (i.setWidth 8)) else none
  | .kinds => if i.toNat < kindsCap then some (kindWord s.kinds s.tick i.toNat) else none
  | .values => if i.toNat < valuesCap then some (cellWord s.values s.tick i.toNat) else none
  | .pk => if i.toNat < s.cfg.pkCap.toNat then some (cellWord s.pk s.tick i.toNat) else none
  | .out => if i.toNat < s.outLen.toNat then some (cellWord s.out s.tick i.toNat) else none
  | .codeInfo =>
    match s.code with
    | some table =>
      if i.toNat < alphabetSize then some (codeInfo (codeOf table (i.setWidth 8))) else none
    | none => none
  | .codeWord =>
    match s.code with
    | some table =>
      if i.toNat < 8 * alphabetSize then
        some (codeWord (codeOf table (BitVec.ofNat 8 (i.toNat / 8))) (i.toNat % 8))
      else none
    | none => none

/-- The state after `Write(space, i, v)`, or none for an access fault (R63, R64, R68). A buffer write
never changes a length register. A write to `CMD` does not come here. -/
def writeSpace (sp : Space) (i v : Word) (s : State) : Option State :=
  match sp with
  | .reg =>
    match registerAt i with
    | some r => writeRegister r v s
    | none => none
  | .inp =>
    match byteOfData v with
    | some b =>
      if i.toNat < s.cfg.inCap.toNat then some { s with inp := s.inp.write i.toNat b } else none
    | none => none
  | .freq =>
    if i.toNat < alphabetSize then some { s with freq := setCount s.freq (i.setWidth 8) v } else none
  | .kinds =>
    match kindOfData v with
    | some k =>
      if i.toNat < kindsCap then some { s with kinds := s.kinds.write i.toNat k } else none
    | none => none
  | .values =>
    match byteOfData v with
    | some b =>
      if i.toNat < valuesCap then some { s with values := s.values.write i.toNat b } else none
    | none => none
  | .pk =>
    match byteOfData v with
    | some b =>
      if i.toNat < s.cfg.pkCap.toNat then some { s with pk := s.pk.write i.toNat b } else none
    | none => none
  | .out => none
  | .codeInfo => none
  | .codeWord => none

/-- The result of a read (R62). -/
def hostRead (space : BitVec 4) (i : Word) (s : State) : Response :=
  match spaceAt space with
  | none => .fault
  | some sp =>
    match readSpace sp i s with
    | some v => .value v
    | none => .fault

/-- The state and the result after a write that is no command; a fault changes no state (R68). -/
def hostWrite (space : BitVec 4) (i v : Word) (s : State) : State × Response :=
  match spaceAt space with
  | none => (s, .fault)
  | some sp =>
    match writeSpace sp i v s with
    | some t => (t, .ok)
    | none => (s, .fault)

/-- Return a result to the host and count the event. -/
def respond (r : Response) (s : State) : State :=
  { s with response := some r, tick := s.tick + 1 }

/-- A command (spec/30_encoding.md R90): decode; an illegal word reports IllegalCommand; otherwise the
operation runs to its end; either way the host gets `Ok` (R63). -/
def runCommand (w : Word) (s : State) : Result :=
  match decode w with
  | .rejected _ => .next (respond .ok (illegal s))
  | .ok i =>
    match exec i s with
    | .next t => .next (respond .ok t)
    | .fault r => .fault r
    | .refused r => .refused r

/-- The reset input (spec/70_reset_and_hazards.md R240, R241): the reset state of an engine with the
same parameters, and no result. What the host does next is host state, and events go on being
counted (log entries 3 and 10). -/
def resetInput (s : State) : State :=
  { State.resetWith s.cfg with tick := s.tick + 1, pending := s.pending }

/-- A transaction addresses `CMD` (spec/10_state.md R42): space `REG`, index 0x00. -/
def isCommand (space : BitVec 4) (i : Word) : Bool := space = 0 && i = 0

/-- Serve one thing the host does (spec/20_memory.md R62, R70). -/
def serve (x : Transaction) (s : State) : Result :=
  match x with
  | .read space i => .next (respond (hostRead space i s) s)
  | .write space i v =>
    if isCommand space i then runCommand v s
    else .next (respond (hostWrite space i v s).2 (hostWrite space i v s).1)
  | .reset => .next (resetInput s)

/-- Serve the first pending transaction; with none pending the engine is idle and keeps all state
(spec/60_exceptions.md R233). -/
def serveNext (s : State) : Result :=
  match s.pending with
  | [] => .next s
  | x :: rest => serve x { s with pending := rest }

end Sys2Proof.Machine
end

