-- ==== Sys2Proof/Machine/Step.lean ====
section
/-! DEFINITION. One step: one host transaction (spec/10_state.md R20, spec/20_memory.md R70). -/

namespace Sys2Proof.Machine

/-- One step of the machine. -/
def step (s : State) : Host.Outcome State Fault Refusal := serveNext s

/-- The state in which the host's next transaction is the command write of the word `w` of `nbits`
bits: the engine fetches nothing, its commands arrive as write data (spec/20_memory.md R78). -/
def State.withFetchWord (s : State) (nbits w : Nat) : State :=
  { s with pending := .write 0 0 (BitVec.ofNat 32 (w % 2 ^ nbits)) :: s.pending }

end Sys2Proof.Machine
end

