-- ==== Sys2Proof/Machine/Script.lean ====
section
/-! DEFINITION. Host programs: the script notation and the pseudo-instructions
(spec/30_encoding.md R99, R100; log entry 18). They are host behaviour over the engine's
transactions. -/

namespace Sys2Proof.Machine

/-- A script line (R99). -/
inductive ScriptLine where
  /-- `WR name, value`. -/
  | wr (r : Register) (v : Word)
  /-- `RD name`. -/
  | rd (r : Register)
  /-- `WRBUF space, index, value`. -/
  | wrbuf (sp : Space) (i v : Word)
  /-- `RDBUF space, index`. -/
  | rdbuf (sp : Space) (i : Word)
  /-- `LOAD space, [v0, v1, ...]`; it does not write the length register. -/
  | load (sp : Space) (vs : List Word)
  /-- A bare mnemonic. -/
  | command (i : Instr)
  deriving DecidableEq, Repr

/-- `WRBUF space, k, v0`, `WRBUF space, k + 1, v1`, … -/
def loadFrom (sp : Space) : Nat → List Word → List Transaction
  | _, [] => []
  | k, v :: vs => .write sp.number (BitVec.ofNat 32 k) v :: loadFrom sp (k + 1) vs

/-- The transactions a script line stands for (R99). -/
def ScriptLine.expand : ScriptLine → List Transaction
  | .wr r v => [.write 0 r.number v]
  | .rd r => [.read 0 r.number]
  | .wrbuf sp i v => [.write sp.number i v]
  | .rdbuf sp i => [.read sp.number i]
  | .load sp vs => loadFrom sp 0 vs
  | .command i => [.write 0 0 (encode i)]

/-- The transactions of a script. -/
def expandScript (lines : List ScriptLine) : List Transaction := lines.flatMap ScriptLine.expand

/-- `COMPRESS` expands to `FREQ; BUILD; GENCODE; SERIALIZE; ENCODE` (R100). -/
def compressCommands : List Instr := [.freq, .build, .gencode, .serialize, .encode]

/-- `EXPAND` expands to `DESERIALIZE; DECODE` (R100). -/
def expandCommands : List Instr := [.deserialize, .decode]

/-- Issue the commands of a pseudo-instruction in order, "stopping at the first command whose
`STATUS.ERR` is not 0" (R100). -/
def runPseudo : List Instr → State → Result
  | [], s => .next s
  | i :: is, s =>
    match runCommand (encode i) s with
    | .next t => if t.err = .noError then runPseudo is t else .next t
    | .fault r => .fault r
    | .refused r => .refused r

end Sys2Proof.Machine
end

