-- ==== Sys2Proof/Safety.lean ====
section
/-! DEFINITION. What counts as a sound state of the engine, and the terms claims are stated in. Each
term is written from the rule it cites, not from the operation it is used to judge. -/

namespace Sys2Proof.Machine

/-- The bounds on `TREE` (spec/10_state.md R24): at most 256 leaves. -/
def treeOk (t : Option HuffTree) : Prop := ∀ u, t = some u → u.leafCount ≤ 256

/-- The form and the bounds of `CODE` (spec/10_state.md R27): at most 256 entries, codes of length 0 to
255. -/
def codeOk (c : Option (Memory Code)) : Prop :=
  ∀ m, c = some m → m.wf alphabetSize = true ∧ ∀ e ∈ m, e.2.length ≤ 255

/-- The invariant of the engine's state. -/
structure Sound (s : State) : Prop where
  /-- The parameters are within the bounds of spec/00_scope.md R10. -/
  cfg : s.cfg.wf = true
  /-- `TREE` has at most 256 leaves (spec/10_state.md R24). -/
  tree : treeOk s.tree
  /-- `FREQ` is in canonical form (R26). -/
  freq : freqWf s.freq = true
  /-- `CODE` is in canonical form, with codes of at most 255 bits (R27). -/
  code : codeOk s.code
  /-- The buffers are in canonical form and hold no cell outside their capacity (R28 to R32). -/
  kinds : s.kinds.wf kindsCap = true
  values : s.values.wf valuesCap = true
  inp : s.inp.wf s.cfg.inCap.toNat = true
  pk : s.pk.wf s.cfg.pkCap.toNat = true
  out : s.out.wf s.cfg.outCap.toNat = true
  /-- The live cells of `OUT` exist and are written, so "no unwritten cell of `OUT` is ever returned"
  (spec/20_memory.md R67). -/
  outLen : s.outLen.toNat ≤ s.cfg.outCap.toNat
  outWritten : s.out.writtenBelow s.outLen.toNat = true
  /-- With no tree the root weight reads 0 (spec/10_state.md R41). -/
  rootWeight : s.tree = none → s.rootWeight = 0

/-- The part of a tree that a bit string leads to from the root, none when it leads past a leaf
(spec/00_scope.md R14 `path_t`). -/
def HuffTree.follow : HuffTree → Code → Option HuffTree
  | t, [] => some t
  | .leaf _, _ :: _ => none
  | .node l r, b :: bs => (if b then r else l).follow bs

/-- The symbols of a tree are distinct, as they are in every tree BUILD writes (spec/10_state.md R24). -/
def HuffTree.distinct (t : HuffTree) : Prop := t.leaves.Nodup

/-- The leaf symbols of a tree with their depths, left to right; the root of `t` is at depth `d`
(spec/00_scope.md R14 `depth_t`). -/
def HuffTree.depths : HuffTree → Nat → List (Sym8 × Nat)
  | .leaf s, d => [(s, d)]
  | .node l r, d => l.depths (d + 1) ++ r.depths (d + 1)

/-- The sum of the weights of the leaves of a tree (spec/41_tree_builder.md R122). -/
def treeWeight (m : Memory Word) (t : HuffTree) : Nat := (t.leaves.map fun b => (countAt m b).toNat).sum

/-- The sum over the leaves of `FREQ[s] * depth(s)` (spec/41_tree_builder.md R130 (c)). -/
def weightedDepth (m : Memory Word) (t : HuffTree) : Nat :=
  ((t.depths 0).map fun e => (countAt m e.1).toNat * e.2).sum

/-- The sum of the weights of all internal nodes (spec/41_tree_builder.md R130 (d)). -/
def internalWeights (m : Memory Word) : HuffTree → Nat
  | .leaf _ => 0
  | .node l r => treeWeight m (.node l r) + internalWeights m l + internalWeights m r

/-- The sum of all 256 cells of `FREQ` (spec/40_frequency_analyzer.md R112). -/
def totalCount (m : Memory Word) : Nat := (allSymbols.map fun b => (countAt m b).toNat).sum

/-- `e` is an entry whose weight is the least weight present (spec/41_tree_builder.md R124). -/
def isLeast (e : PqEntry) (pq : List PqEntry) : Prop :=
  e ∈ pq ∧ ∀ x ∈ pq, e.weight ≤ x.weight

/-- One merge step with any choice at a tie (R124); the order of the collection and the sequence number
are immaterial. -/
def canMerge (pq pq' : List PqEntry) : Prop :=
  ∃ a b seq, isLeast a pq ∧ isLeast b (pq.erase a) ∧
    pq'.Perm (⟨a.weight + b.weight, seq, .node a.tree b.tree⟩ :: (pq.erase a).erase b)

/-- The results BUILD may give for a mapping, `Allowed(FREQ)` of R127, with the root's weight. -/
def allowed (m : Memory Word) (t : HuffTree) (w : Nat) : Prop :=
  ∃ seq, Relation.ReflTransGen canMerge (leafEntries m 0 (presentSymbols m)) [⟨w, seq, t⟩]

/-- Join two lists of levels level by level. -/
def joinLevels : List (List HuffTree) → List (List HuffTree) → List (List HuffTree)
  | [], ys => ys
  | xs, [] => xs
  | x :: xs, y :: ys => (x ++ y) :: joinLevels xs ys

/-- The nodes of a tree level by level, left to right within a level (spec/00_scope.md R16). -/
def HuffTree.levels : HuffTree → List (List HuffTree)
  | .leaf s => [[.leaf s]]
  | .node l r => [.node l r] :: joinLevels l.levels r.levels

/-- The kind of a node. -/
def HuffTree.kind : HuffTree → NodeKind
  | .leaf _ => .leaf
  | .node _ _ => .internal

/-- The symbol of a leaf. -/
def HuffTree.symbol? : HuffTree → Option Sym8
  | .leaf s => some s
  | .node _ _ => none

/-- `I(j)`: the number of `INTERNAL` entries among entries 0 to `j - 1`
(spec/44_tree_deserializer.md R168). -/
def internalsBefore (ks : List NodeKind) (j : Nat) : Nat := (ks.take j).count .internal

/-- The number of `LEAF` entries among entries 0 to `j - 1`. -/
def leavesBefore (ks : List NodeKind) (j : Nat) : Nat := (ks.take j).count .leaf

/-- A child place is open when entry `i` arrives: `2 * I(i) - (i - 1) >= 1` (R168). -/
def placeOpen (ks : List NodeKind) (i : Nat) : Prop := (i - 1) + 1 ≤ 2 * internalsBefore ks i

/-- Acceptance of a pair, stated without the algorithm, the bounds on the lengths apart (R168). -/
def accepted (ks : List NodeKind) (vs : List Byte) : Prop :=
  1 ≤ ks.length ∧ (∀ i, 1 ≤ i → i ≤ ks.length - 1 → placeOpen ks i) ∧
    2 * internalsBefore ks ks.length = ks.length - 1 ∧
    ks.length - internalsBefore ks ks.length = vs.length

/-- A pair meets a sub-cause of R166 first, in the order of R167. -/
def malformed (ks : List NodeKind) (vs : List Byte) : SubCause → Prop
  | .noRoot => ks = []
  | .valuesUsedUp =>
    ∃ i, ks[i]? = some .leaf ∧ (∀ j, 1 ≤ j → j ≤ i → placeOpen ks j) ∧
      leavesBefore ks i = vs.length
  | .overConsumed =>
    ∃ i, 1 ≤ i ∧ i < ks.length ∧ ¬ placeOpen ks i ∧ (∀ j, 1 ≤ j → j < i → placeOpen ks j) ∧
      leavesBefore ks i ≤ vs.length
  | .truncated =>
    1 ≤ ks.length ∧ (∀ j, 1 ≤ j → j < ks.length → placeOpen ks j) ∧
      leavesBefore ks ks.length ≤ vs.length ∧ ks.length - 1 < 2 * internalsBefore ks ks.length
  | .valuesLeft =>
    1 ≤ ks.length ∧ (∀ j, 1 ≤ j → j < ks.length → placeOpen ks j) ∧
      2 * internalsBefore ks ks.length = ks.length - 1 ∧ leavesBefore ks ks.length < vs.length

/-- Every byte has an entry in the table (spec/45_bitstream_encoder.md R191 (d)). -/
def covers (table : Memory Code) (bs : List Byte) : Prop := ∀ b ∈ bs, (codeOf table b).isSome = true

/-- The concatenation of each byte's code in input order (spec/45_bitstream_encoder.md R180). -/
def concatCodes (table : Memory Code) (bs : List Byte) : List Bool :=
  bs.flatMap fun b => (codeOf table b).getD []

/-- A bit string splits into the paths of leaves of a tree and a tail that stays inside the tree
(spec/46_bitstream_decoder.md R195, R203). -/
def splits (t : HuffTree) (bits : List Bool) (parts : List (Code × Sym8)) (tail : Code) : Prop :=
  bits = (parts.map Prod.fst).flatten ++ tail ∧
    (∀ e ∈ parts, t.follow e.1 = some (.leaf e.2)) ∧ ∃ l r, t.follow tail = some (.node l r)

/-- Two states agree on what an operation reads, the "reads" column of spec/30_encoding.md R93, and on
the parameters its rule names. -/
def readsAgree (i : Instr) (s s' : State) : Prop :=
  match i with
  | .freq =>
    s.cfg.inCap = s'.cfg.inCap ∧ s.inLen = s'.inLen ∧
      ∀ j, j < s.inLen.toNat → s.inp.read j = s'.inp.read j
  | .build => s.cfg.tiebreak = s'.cfg.tiebreak ∧ s.freq = s'.freq
  | .gencode => s.tree = s'.tree
  | .serialize => s.tree = s'.tree
  | .deserialize =>
    s.kindsLen = s'.kindsLen ∧ s.valuesLen = s'.valuesLen ∧
      (∀ j, j < s.kindsLen.toNat → s.kinds.read j = s'.kinds.read j) ∧
      ∀ j, j < s.valuesLen.toNat → s.values.read j = s'.values.read j
  | .encode =>
    s.code = s'.code ∧ s.cfg.inCap = s'.cfg.inCap ∧ s.cfg.pkCap = s'.cfg.pkCap ∧
      s.inLen = s'.inLen ∧ ∀ j, j < s.inLen.toNat → s.inp.read j = s'.inp.read j
  | .decode =>
    s.tree = s'.tree ∧ s.cfg.pkCap = s'.cfg.pkCap ∧ s.cfg.outCap = s'.cfg.outCap ∧
      s.pkLen = s'.pkLen ∧ s.bitCount = s'.bitCount ∧
      (s.single = true → s.symCount = s'.symCount) ∧
      ∀ j, j < (s.bitCount.toNat + 7) / 8 → s.pk.read j = s'.pk.read j

/-- Two states agree on what an operation writes, the "writes on success" column of R93 and the three
report fields every command writes. -/
def resultsAgree (i : Instr) (t t' : State) : Prop :=
  t.err = t'.err ∧ t.errInfo = t'.errInfo ∧ t.partialFlag = t'.partialFlag ∧
    match i with
    | .freq => t.freq = t'.freq
    | .build => t.tree = t'.tree ∧ t.rootWeight = t'.rootWeight
    | .gencode => t.code = t'.code
    | .serialize =>
      t.kindsLen = t'.kindsLen ∧ t.valuesLen = t'.valuesLen ∧
        (∀ j, j < t.kindsLen.toNat → t.kinds.read j = t'.kinds.read j) ∧
        ∀ j, j < t.valuesLen.toNat → t.values.read j = t'.values.read j
    | .deserialize => t.tree = t'.tree ∧ t.rootWeight = t'.rootWeight
    | .encode =>
      t.pkLen = t'.pkLen ∧ t.bitCount = t'.bitCount ∧ t.symCount = t'.symCount ∧
        ∀ j, j < t.pkLen.toNat → t.pk.read j = t'.pk.read j
    | .decode =>
      t.outLen = t'.outLen ∧ ∀ j, j < t.outLen.toNat → t.out.read j = t'.out.read j

/-- How often a symbol occurs in the live cells of `IN`. -/
def occurrences (s : State) (b : Sym8) : Nat :=
  (List.range s.inLen.toNat).countP fun j => s.inp.read j = some b

/-- The cases in which a read is an access fault (spec/20_memory.md R68). -/
def readFaults (space : BitVec 4) (i : Word) (s : State) : Prop :=
  match space.toNat with
  | 0 => i.toNat = 0 ∨ 0x0E < i.toNat
  | 1 => s.cfg.inCap.toNat ≤ i.toNat
  | 2 => 256 ≤ i.toNat
  | 3 => 511 ≤ i.toNat
  | 4 => 256 ≤ i.toNat
  | 5 => s.cfg.pkCap.toNat ≤ i.toNat
  | 6 => s.outLen.toNat ≤ i.toNat
  | 7 => s.cv = false ∨ 256 ≤ i.toNat
  | 8 => s.cv = false ∨ 2048 ≤ i.toNat
  | _ => True

/-- The cases in which a write is an access fault (R68). -/
def writeFaults (space : BitVec 4) (i v : Word) (s : State) : Prop :=
  match space.toNat with
  | 0 => i.toNat ∉ [0x00, 0x03, 0x04, 0x05, 0x06, 0x08, 0x09]
  | 1 => s.cfg.inCap.toNat ≤ i.toNat ∨ 255 < v.toNat
  | 2 => 256 ≤ i.toNat
  | 3 => 511 ≤ i.toNat ∨ 1 < v.toNat
  | 4 => 256 ≤ i.toNat ∨ 255 < v.toNat
  | 5 => s.cfg.pkCap.toNat ≤ i.toNat ∨ 255 < v.toNat
  | _ => True

/-- The illegal command words (spec/30_encoding.md R94). -/
def illegalWord (w : Word) : Prop :=
  w.extractLsb' 4 28 ≠ 0 ∨ (w.extractLsb' 0 4).toNat = 0 ∨ 8 ≤ (w.extractLsb' 0 4).toNat

end Sys2Proof.Machine
end

