-- ==== Sys2Proof/Certificates/Slice0/Obligations.lean ====
section
/-! DEFINITION. The statements for the provers. Every result of an operation is stated as an equation of
whole states, so each also says the operation's frame: whatever is not named is unchanged. A statement
about an operation that reads cells has the premise that its live input cells are written
(spec/70_reset_and_hazards.md R244), where a result could depend on a free value. -/

open Sys2Proof Sys2Proof.Machine

/-! ## Commands and decoding -/

/-- The seven words of R92, and some illegal ones (R94). -/
def Obligations.OpcodeTableWordsDecode : Prop :=
  decode 0x00000001 = .ok .freq ∧ decode 0x00000002 = .ok .build ∧
  decode 0x00000003 = .ok .gencode ∧ decode 0x00000004 = .ok .serialize ∧
  decode 0x00000005 = .ok .deserialize ∧ decode 0x00000006 = .ok .encode ∧
  decode 0x00000007 = .ok .decode ∧
  decode 0x00000000 = .rejected .unassignedOpcode ∧
  decode 0x00000008 = .rejected .unassignedOpcode ∧
  decode 0x0000000F = .rejected .unassignedOpcode ∧
  decode 0x00000012 = .rejected .reservedField ∧
  decode 0x80000001 = .rejected .reservedField

/-- Each of the 2^32 words is exactly one of the seven commands or illegal (R94), and decoding and
encoding agree in both directions. -/
def Obligations.EveryWordIsOneCommandOrIllegal : Prop :=
  (∀ w i, decode w = .ok i ↔ w = encode i) ∧
  (∀ w, (∃ why, decode w = .rejected why) ↔ illegalWord w) ∧
  (∀ w, illegalWord w ∨ ∃ i, w = encode i) ∧ (∀ i, ¬ illegalWord (encode i))

/-- R90: a step whose pending transaction is a command write of a word that decodes to `i` is `exec i`
on the state with that transaction taken off, and then the result `Ok` (the event is counted, log
entry 3). `withFetchWord` puts exactly such a transaction in front. Whatever the first pending
transaction is, a read, a write or a reset, a step serves that one and leaves the others pending in the
host's order (R62, R75); with none pending it changes nothing (R233). The pending list is the model's
(log entry 1). -/
def Obligations.StepRunsTheDecodedCommand : Prop :=
  (∀ s w rest i t, s.pending = .write 0 0 w :: rest → decode w = .ok i →
    exec i { s with pending := rest } = .next t →
    step s = .next { t with response := some .ok, tick := t.tick + 1 }) ∧
  (∀ s i t, exec i s = .next t →
    step (s.withFetchWord 32 (encode i).toNat)
      = .next { t with response := some .ok, tick := t.tick + 1 }) ∧
  (∀ s x rest, s.pending = x :: rest →
    step s = serve x { s with pending := rest } ∧ ∀ t, step s = .next t → t.pending = rest) ∧
  (∀ s, s.pending = [] → step s = .next s)

/-- R94: an illegal command word reports IllegalCommand, `ERRINFO` 0 and `PARTIAL` 0 and changes no other
state (the transaction is served, so the host's list and the model's own counter move on); each word is
one of the seven commands or illegal and not both. -/
def Obligations.IllegalWordOnlyReports : Prop :=
  (∀ s w rest, s.pending = .write 0 0 w :: rest → illegalWord w →
    ∃ n, step s = .next { s with
      err := .illegalCommand, errInfo := 0, partialFlag := false
      response := some .ok, tick := n, pending := rest }) ∧
  ∀ w, illegalWord w ↔ ¬ ∃ i, w = encode i

/-- R254 and U17: every command completes and every step answers a next state. -/
def Obligations.EveryCommandCompletes : Prop :=
  (∀ i s, ∃ t, exec i s = .next t) ∧ ∀ s, ∃ t, step s = .next t

/-- R213: after an abort every output of the aborted operation is in its empty state and everything
else is unchanged; an illegal word changes the report alone. -/
def Obligations.AbortEmptiesTheOutputsAlone : Prop :=
  (∀ i s t, exec i s = .next t → t.err ≠ .noError →
    ∃ k info, t = { (match i with
      | .freq => { s with freq := [] }
      | .build => { s with tree := none, rootWeight := 0 }
      | .gencode => { s with code := none }
      | .serialize => { s with kinds := [], kindsLen := 0, values := [], valuesLen := 0 }
      | .deserialize => { s with tree := none, rootWeight := 0 }
      | .encode => { s with pk := [], pkLen := 0, bitCount := 0, symCount := 0 }
      | .decode => { s with out := [], outLen := 0 } : State) with
      err := k, errInfo := info, partialFlag := false }) ∧
  (∀ w s, illegalWord w → ∃ n, runCommand w s = .next { s with
    err := .illegalCommand, errInfo := 0, partialFlag := false, response := some .ok, tick := n })

/-- R90, R93: a successful command writes the outputs of R93 and the report and nothing else; `ERRINFO`
is 0, and `PARTIAL` is 0 after every command but DECODE. -/
def Obligations.SuccessWritesTheOutputsAlone : Prop :=
  ∀ i s t, exec i s = .next t → t.err = .noError →
    t.errInfo = 0 ∧ (i ≠ .decode → t.partialFlag = false) ∧
    t = { (match i with
      | .freq => { s with freq := t.freq }
      | .build => { s with tree := t.tree, rootWeight := t.rootWeight }
      | .gencode => { s with code := t.code }
      | .serialize => { s with
          kinds := t.kinds, kindsLen := t.kindsLen, values := t.values, valuesLen := t.valuesLen }
      | .deserialize => { s with tree := t.tree, rootWeight := t.rootWeight }
      | .encode => { s with
          pk := t.pk, pkLen := t.pkLen, bitCount := t.bitCount, symCount := t.symCount }
      | .decode => { s with out := t.out, outLen := t.outLen } : State) with
      err := .noError, errInfo := 0, partialFlag := t.partialFlag }

/-- R80: on success the cells of an output buffer at and beyond the new length keep their state. -/
def Obligations.CellsBeyondTheLengthAreKept : Prop :=
  ∀ i s t, Sound s → exec i s = .next t → t.err = .noError →
    (i = .serialize → (∀ j, t.kindsLen.toNat ≤ j → t.kinds.read j = s.kinds.read j) ∧
      ∀ j, t.valuesLen.toNat ≤ j → t.values.read j = s.values.read j) ∧
    (i = .encode → ∀ j, t.pkLen.toNat ≤ j → t.pk.read j = s.pk.read j) ∧
    (i = .decode → ∀ j, t.outLen.toNat ≤ j → t.out.read j = s.out.read j)

/-- Which command may change what (R23, R27, R30, R34, R38, R45, R61): in particular no command writes
`IN`, `IN_LEN` or a parameter, and `TREE` is written by BUILD and DESERIALIZE alone. -/
def Obligations.OnlyTheOwnerChangesAStore : Prop :=
  ∀ i s t, exec i s = .next t →
    t.cfg = s.cfg ∧ t.inp = s.inp ∧ t.inLen = s.inLen ∧
    (i ≠ .freq → t.freq = s.freq) ∧
    (i ≠ .build → i ≠ .deserialize → t.tree = s.tree ∧ t.rootWeight = s.rootWeight) ∧
    (i ≠ .gencode → t.code = s.code) ∧
    (i ≠ .serialize → t.kinds = s.kinds ∧ t.kindsLen = s.kindsLen ∧
      t.values = s.values ∧ t.valuesLen = s.valuesLen) ∧
    (i ≠ .encode → t.pk = s.pk ∧ t.pkLen = s.pkLen ∧
      t.bitCount = s.bitCount ∧ t.symCount = s.symCount) ∧
    (i ≠ .decode → t.out = s.out ∧ t.outLen = s.outLen) ∧
    t.pending = s.pending ∧ t.tick = s.tick ∧ t.response = s.response

/-- R61, R93: what a command leaves in its outputs and its report depends on the operands R93 lists and
on nothing else: not on stale cells, on another store, or on the events before. -/
def Obligations.ResultsDependOnTheOperandsAlone : Prop :=
  ∀ i s s' t t', inputsWritten i s = true → readsAgree i s s' →
    exec i s = .next t → exec i s' = .next t' → resultsAgree i t t'

/-! ## FREQ -/

/-- R112: after a successful FREQ every cell holds the number of occurrences of its symbol; the cells
sum to `IN_LEN`; each is at most `IN_LEN`; the non-zero ones are as many as the distinct bytes. -/
def Obligations.FreqCountsTheLiveInput : Prop :=
  ∀ s, s.inLen.toNat ≤ s.cfg.inCap.toNat → inputsWritten .freq s = true →
    ∃ f, exec .freq s = .next { s with
        freq := f, err := .noError, errInfo := 0, partialFlag := false } ∧
      (∀ b, (countAt f b).toNat = occurrences s b) ∧
      totalCount f = s.inLen.toNat ∧ (∀ b, (countAt f b).toNat ≤ s.inLen.toNat) ∧
      (allSymbols.filter fun b => countAt f b ≠ 0).length = s.input.dedup.length

/-- R111, R220: `IN_LEN > IN_CAP` aborts FREQ and clears every count. -/
def Obligations.FreqAbortsOverCapacity : Prop :=
  ∀ s, s.cfg.inCap.toNat < s.inLen.toNat →
    exec .freq s = .next { s with
      freq := [], err := .capacityExceeded, errInfo := 0, partialFlag := false }

/-- R113: FREQ of an empty input succeeds with every cell 0, and the error appears when BUILD is asked to
build from the empty mapping. -/
def Obligations.FreqOfEmptyInputIsTheEmptyMapping : Prop :=
  ∀ s, s.inLen = 0 →
    exec .freq s = .next { s with
      freq := [], err := .noError, errInfo := 0, partialFlag := false } ∧
    exec .build { s with freq := [], err := .noError, errInfo := 0, partialFlag := false }
      = .next { s with
          freq := [], tree := none, rootWeight := 0
          err := .emptyAlphabet, errInfo := 0, partialFlag := false }

/-- R114: FREQ does not depend on the order of the input. -/
def Obligations.FreqIgnoresTheOrderOfTheInput : Prop :=
  ∀ s s' t t', s.input.Perm s'.input →
    s.inLen.toNat ≤ s.cfg.inCap.toNat → s'.inLen.toNat ≤ s'.cfg.inCap.toNat →
    inputsWritten .freq s = true → inputsWritten .freq s' = true →
    exec .freq s = .next t → exec .freq s' = .next t' → t.freq = t'.freq

/-! ## BUILD -/

/-- R129: BUILD of a mapping whose cells are all 0 raises EmptyAlphabet; that is the mapping after reset,
after FREQ on an empty input and after an aborted FREQ. -/
def Obligations.BuildOfEmptyMappingAborts : Prop :=
  (∀ s, (∀ b, countAt s.freq b = 0) →
    exec .build s = .next { s with
      tree := none, rootWeight := 0, err := .emptyAlphabet, errInfo := 0, partialFlag := false }) ∧
  (∀ b, countAt State.reset.freq b = 0) ∧
  (∀ s t, exec .freq s = .next t → s.inLen = 0 ∨ t.err ≠ .noError → ∀ b, countAt t.freq b = 0)

/-- R128: with exactly one symbol present BUILD gives its leaf and its count. -/
def Obligations.BuildOfOneSymbolIsItsLeaf : Prop :=
  ∀ s b, countAt s.freq b ≠ 0 → (∀ c, c ≠ b → countAt s.freq c = 0) →
    ∃ t, exec .build s = .next t ∧
      t = { s with
        tree := some (.leaf b), rootWeight := (countAt s.freq b).setWidth 40
        err := .noError, errInfo := 0, partialFlag := false } ∧
      t.tv = true ∧ t.single = true

/-- R121, R124, R127: with a symbol present BUILD succeeds, whatever the tie-break, with a tree and a
root weight that the merge rule allows for this mapping, and changes nothing else. -/
def Obligations.BuildGivesAnAllowedTree : Prop :=
  ∀ s, (∃ b, countAt s.freq b ≠ 0) →
    ∃ t w, exec .build s = .next { s with
        tree := some t, rootWeight := BitVec.ofNat 40 w
        err := .noError, errInfo := 0, partialFlag := false } ∧
      allowed s.freq t w

/-- R130 (a), (b), (d), R131: every allowed tree has each present symbol on exactly one leaf; its root
weight is the sum of the counts and fits 40 bits; its weighted depth is the sum of its internal
weights. -/
def Obligations.AllowedTreesKeepLeavesAndWeight : Prop :=
  ∀ m t w, allowed m t w →
    t.leaves.Perm (allSymbols.filter fun b => countAt m b ≠ 0) ∧
    w = totalCount m ∧ w = treeWeight m t ∧ w < 2 ^ 40 ∧
    weightedDepth m t = internalWeights m t

/-- R130 (c): every allowed tree minimises the weighted depth among all trees with its leaf set, so that
sum is the same for every tie-break. -/
def Obligations.AllowedTreesAreOptimal : Prop :=
  (∀ m t w u, allowed m t w → u.leaves.Perm t.leaves → weightedDepth m t ≤ weightedDepth m u) ∧
  (∀ m t w t' w', allowed m t w → allowed m t' w' → weightedDepth m t = weightedDepth m t')

/-- R126: the reference policy returns the entry with the least pair of weight and sequence number, and
in every structure BUILD reaches the sequence numbers are distinct. -/
def Obligations.ReferencePolicyTakesTheEarliest : Prop :=
  (∀ m n pq, pq ≠ [] → pq.Pairwise (fun x y => x.seq < y.seq) →
    ∃ e, removeMin (tieIndex .reference m n) pq = some (e, pq.erase e) ∧ e ∈ pq ∧
      ∀ x ∈ pq, e.weight < x.weight ∨ (e.weight = x.weight ∧ e.seq ≤ x.seq)) ∧
  (∀ choice m k,
    (mergeSteps choice (leafEntries m 0 (presentSymbols m)).length k 0
      (leafEntries m 0 (presentSymbols m))).Pairwise fun x y => x.seq < y.seq)

/-- R132: the worked example under the reference policy. -/
def Obligations.BuildReferenceExample : Prop :=
  exec .build { State.reset with freq := [(0x61, 2), (0x62, 1), (0x63, 2), (0x65, 4), (0x66, 3)] }
    = .next { State.reset with
        freq := [(0x61, 2), (0x62, 1), (0x63, 2), (0x65, 4), (0x66, 3)]
        tree := some (.node (.node (.leaf 0x63) (.leaf 0x66))
          (.node (.node (.leaf 0x62) (.leaf 0x61)) (.leaf 0x65)))
        rootWeight := 12 }

/-! ## GENCODE -/

/-- R143 (a), (b): on a tree with distinct symbols GENCODE gives a symbol exactly the path that leads to
its leaf, and no code to any other symbol. -/
def Obligations.GencodeCodesAreLeafPaths : Prop :=
  ∀ s t, s.tree = some t → t.distinct →
    ∃ m, exec .gencode s = .next { s with
        code := some m, err := .noError, errInfo := 0, partialFlag := false } ∧
      ∀ b c, codeOf m b = some c ↔ t.follow c = some (.leaf b)

/-- R141, R145: on any tree a symbol's code is the path of the last of its leaves in the
left-before-right depth-first order; a symbol with no leaf has none. -/
def Obligations.GencodeKeepsTheLastLeafOfASymbol : Prop :=
  ∀ s t, s.tree = some t →
    ∃ m, exec .gencode s = .next { s with
        code := some m, err := .noError, errInfo := 0, partialFlag := false } ∧
      ∀ b, (codeOf m b = none ↔ ∀ c, t.follow c ≠ some (.leaf b)) ∧
        ∀ c, codeOf m b = some c → t.follow c = some (.leaf b) ∧
          ∀ d, t.follow d = some (.leaf b) →
            d = c ∨ ∃ p x y, d = p ++ false :: x ∧ c = p ++ true :: y

/-- R143 (c), (d): no code is a prefix of another symbol's code, on any tree; and on a tree with distinct
symbols that is no single leaf, every infinite bit string has exactly one symbol's code as a
prefix. -/
def Obligations.CodesArePrefixFreeAndComplete : Prop :=
  ∀ s t u m, s.tree = some t → exec .gencode s = .next u → u.code = some m →
    (∀ b b' c c', b ≠ b' → codeOf m b = some c → codeOf m b' = some c' → ¬ c <+: c') ∧
    (t.isLeaf = false → t.distinct → ∀ f : Nat → Bool,
      ∃! b, ∃ code, codeOf m b = some code ∧ ∀ i (h : i < code.length), code[i] = f i)

/-- R144: a single-leaf tree gives its symbol the empty code, present with length 0, and the host sees
`CODE_INFO` 0x100 and eight words 0. -/
def Obligations.GencodeOfALeafIsTheEmptyCode : Prop :=
  ∀ s b, s.tree = some (.leaf b) →
    ∃ m t, exec .gencode s = .next t ∧
      t = { s with code := some m, err := .noError, errInfo := 0, partialFlag := false } ∧
      codeOf m b = some [] ∧ (∀ c, c ≠ b → codeOf m c = none) ∧
      hostRead 7 (b.setWidth 32) t = .value 0x100 ∧
      ∀ j, j < 8 → hostRead 8 (BitVec.ofNat 32 (8 * b.toNat + j)) t = .value 0

/-- R216: GENCODE, SERIALIZE and DECODE raise NoOperand exactly when there is no tree, ENCODE exactly when
there is no table, and FREQ, BUILD and DESERIALIZE never. The abort leaves the outputs empty (R213) and
`ERRINFO` 0 (R211). -/
def Obligations.NoOperandExactlyWithoutTheStore : Prop :=
  (∀ i s t, exec i s = .next t →
    (t.err = .noOperand ↔
      ((i = .gencode ∨ i = .serialize ∨ i = .decode) ∧ s.tv = false) ∨
      (i = .encode ∧ s.cv = false))) ∧
  (∀ s, s.tv = false →
    exec .gencode s = .next { s with
      code := none, err := .noOperand, errInfo := 0, partialFlag := false } ∧
    exec .serialize s = .next { s with
      kinds := [], kindsLen := 0, values := [], valuesLen := 0
      err := .noOperand, errInfo := 0, partialFlag := false } ∧
    exec .decode s = .next { s with
      out := [], outLen := 0, err := .noOperand, errInfo := 0, partialFlag := false }) ∧
  (∀ s, s.cv = false →
    exec .encode s = .next { s with
      pk := [], pkLen := 0, bitCount := 0, symCount := 0
      err := .noOperand, errInfo := 0, partialFlag := false })

/-! ## SERIALIZE -/

/-- R150 to R152, R16: SERIALIZE writes the kinds of the nodes level by level, left to right within a
level, and the symbols of the leaves in that order, with their numbers in the length registers. -/
def Obligations.SerializeWritesLevelOrder : Prop :=
  ∀ s t, s.tree = some t → t.leafCount ≤ 256 →
    ∃ u, exec .serialize s = .next u ∧
      u = { s with
        kinds := u.kinds, kindsLen := BitVec.ofNat 32 t.levels.flatten.length
        values := u.values
        valuesLen := BitVec.ofNat 32 (t.levels.flatten.filterMap HuffTree.symbol?).length
        err := .noError, errInfo := 0, partialFlag := false } ∧
      (∀ j n, t.levels.flatten[j]? = some n → u.kinds.read j = some n.kind) ∧
      ∀ j b, (t.levels.flatten.filterMap HuffTree.symbol?)[j]? = some b →
        u.values.read j = some b

/-- R153 (a) to (c): the lengths are the numbers of nodes and of leaves, `KINDS_LEN` is
`2 * VALUES_LEN - 1`, one entry fewer than the leaves is `INTERNAL`, and entry 0 describes the root. -/
def Obligations.SerializedPairCountsTheTree : Prop :=
  ∀ s t u, s.tree = some t → t.leafCount ≤ 256 → exec .serialize s = .next u →
    u.kindsLen.toNat = t.size ∧ u.valuesLen.toNat = t.leafCount ∧
    u.kindsLen.toNat = 2 * u.valuesLen.toNat - 1 ∧
    ((List.range u.kindsLen.toNat).countP fun j => u.kinds.read j = some .internal)
      = u.valuesLen.toNat - 1 ∧
    u.kinds.read 0 = some t.kind

/-- R154: the pair of a single-leaf tree. -/
def Obligations.SerializeOfALeaf : Prop :=
  ∀ s b, s.tree = some (.leaf b) →
    ∃ u, exec .serialize s = .next u ∧ u.err = .noError ∧
      u.kindsLen = 1 ∧ u.kinds.read 0 = some .leaf ∧
      u.valuesLen = 1 ∧ u.values.read 0 = some b

/-! ## DESERIALIZE -/

/-- R169, first half: SERIALIZE and then DESERIALIZE succeed and leave the tree they started from. -/
def Obligations.DeserializeInvertsSerialize : Prop :=
  ∀ s t, s.tree = some t → t.leafCount ≤ 256 →
    ∃ u v, exec .serialize s = .next u ∧ exec .deserialize u = .next v ∧
      v.err = .noError ∧ v.tree = some t

/-- R169, second half: SERIALIZE after an accepted DESERIALIZE writes back the same lengths and the same
live cells. -/
def Obligations.SerializeInvertsDeserialize : Prop :=
  ∀ s u, inputsWritten .deserialize s = true → exec .deserialize s = .next u → u.err = .noError →
    ∃ v, exec .serialize u = .next v ∧ v.err = .noError ∧
      v.kindsLen = s.kindsLen ∧ v.valuesLen = s.valuesLen ∧
      (∀ j, j < s.kindsLen.toNat → v.kinds.read j = s.kinds.read j) ∧
      ∀ j, j < s.valuesLen.toNat → v.values.read j = s.values.read j

/-- R168: DESERIALIZE succeeds exactly on the pairs that fit the buffers and pass the counting test, and
then writes a tree and a root weight of 0 (R171) and nothing else. -/
def Obligations.DeserializeAcceptsByTheCountingTest : Prop :=
  (∀ s, inputsWritten .deserialize s = true →
    s.kindsLen.toNat ≤ 511 → s.valuesLen.toNat ≤ 256 → accepted s.kindsIn s.valuesIn →
    ∃ t, exec .deserialize s = .next { s with
      tree := some t, rootWeight := 0, err := .noError, errInfo := 0, partialFlag := false }) ∧
  (∀ s u, inputsWritten .deserialize s = true → exec .deserialize s = .next u → u.err = .noError →
    s.kindsLen.toNat ≤ 511 ∧ s.valuesLen.toNat ≤ 256 ∧ accepted s.kindsIn s.valuesIn) ∧
  (∀ ks vs, accepted ks vs → ks.length % 2 = 1 ∧ vs.length = (ks.length + 1) / 2)

/-- R166, R167: within the capacities a pair that is not accepted meets exactly one sub-cause first, and
DESERIALIZE aborts with its number, 1 to 5. -/
def Obligations.DeserializeReportsTheFirstSubCause : Prop :=
  (∀ s c, s.kindsLen.toNat ≤ 511 → s.valuesLen.toNat ≤ 256 →
    inputsWritten .deserialize s = true → malformed s.kindsIn s.valuesIn c →
    exec .deserialize s = .next { s with
      tree := none, rootWeight := 0
      err := .malformedSerialization
      errInfo := (match c with
        | .noRoot => 1
        | .valuesUsedUp => 2
        | .overConsumed => 3
        | .truncated => 4
        | .valuesLeft => 5)
      partialFlag := false }) ∧
  (∀ ks vs, ¬ accepted ks vs → ∃! c, malformed ks vs c)

/-- R163: lengths beyond the buffers raise CapacityExceeded before any entry is read. -/
def Obligations.DeserializeAbortsOverCapacity : Prop :=
  ∀ s, 511 < s.kindsLen.toNat ∨ 256 < s.valuesLen.toNat →
    exec .deserialize s = .next { s with
      tree := none, rootWeight := 0
      err := .capacityExceeded, errInfo := 0, partialFlag := false }

/-! ## ENCODE -/

/-- R185 to R187: on covered input that fits, ENCODE succeeds; `BITCOUNT` is the length of the
concatenated codes, `PK_LEN` that length in bytes rounded up, `SYMCOUNT` is `IN_LEN`; bit `p` of the
padded concatenation is bit `7 - (p mod 8)` of `PK[p div 8]`, and nothing else changes but `PK`. -/
def Obligations.EncodePacksTheConcatenatedCodes : Prop :=
  ∀ s m, s.code = some m → s.cfg.wf = true → s.inLen.toNat ≤ s.cfg.inCap.toNat →
    inputsWritten .encode s = true → covers m s.input →
    (concatCodes m s.input).length ≤ 8 * s.cfg.pkCap.toNat →
    ∃ u, exec .encode s = .next u ∧
      u = { s with
        pk := u.pk, pkLen := u.pkLen, bitCount := u.bitCount, symCount := s.inLen
        err := .noError, errInfo := 0, partialFlag := false } ∧
      u.bitCount.toNat = (concatCodes m s.input).length ∧
      u.pkLen.toNat = ((concatCodes m s.input).length + 7) / 8 ∧
      (∀ p, p < 8 * u.pkLen.toNat → ∃ byte, u.pk.read (p / 8) = some byte ∧
        byte.getLsbD (7 - p % 8) = (concatCodes m s.input).getD p false) ∧
      ∀ j, u.pkLen.toNat ≤ j → u.pk.read j = s.pk.read j

/-- R188: the first input byte whose entry is absent raises UnknownSymbol with its index, when the codes
before it fit. -/
def Obligations.EncodeAbortsAtTheFirstUncodedByte : Prop :=
  ∀ s m i b, s.code = some m → s.inLen.toNat ≤ s.cfg.inCap.toNat →
    inputsWritten .encode s = true → s.input[i]? = some b → codeOf m b = none →
    covers m (s.input.take i) →
    (concatCodes m (s.input.take i)).length ≤ 8 * s.cfg.pkCap.toNat →
    exec .encode s = .next { s with
      pk := [], pkLen := 0, bitCount := 0, symCount := 0
      err := .unknownSymbol, errInfo := BitVec.ofNat 32 i, partialFlag := false }

/-- R181, R184, R220: an input length beyond `IN` raises CapacityExceeded before any cell is read, so
whatever the cells hold; and so does the first byte whose code would pass `8 * PK_CAP` bits, an
UnknownSymbol of a later byte not coming into it. -/
def Obligations.EncodeAbortsOverCapacity : Prop :=
  (∀ s, s.cv = true → s.cfg.inCap.toNat < s.inLen.toNat →
    exec .encode s = .next { s with
      pk := [], pkLen := 0, bitCount := 0, symCount := 0
      err := .capacityExceeded, errInfo := 0, partialFlag := false }) ∧
  (∀ s m i b, s.code = some m → inputsWritten .encode s = true →
    s.input[i]? = some b → covers m (s.input.take (i + 1)) →
    (concatCodes m (s.input.take i)).length ≤ 8 * s.cfg.pkCap.toNat →
    8 * s.cfg.pkCap.toNat < (concatCodes m (s.input.take (i + 1))).length →
    exec .encode s = .next { s with
      pk := [], pkLen := 0, bitCount := 0, symCount := 0
      err := .capacityExceeded, errInfo := 0, partialFlag := false })

/-- R189: the empty input succeeds with the three outputs 0 and no cell of `PK` written. -/
def Obligations.EncodeOfEmptyInput : Prop :=
  ∀ s, s.cv = true → s.inLen = 0 →
    exec .encode s = .next { s with
      pkLen := 0, bitCount := 0, symCount := 0
      err := .noError, errInfo := 0, partialFlag := false }

/-- R190: with the table of a single-leaf tree, input bytes all equal to its symbol give no bits and are
counted, and the first other byte raises UnknownSymbol. -/
def Obligations.EncodeWithASingleSymbolTable : Prop :=
  ∀ s b, s.code = some (codeTable (.leaf b)) → s.inLen.toNat ≤ s.cfg.inCap.toNat →
    inputsWritten .encode s = true →
    ((∀ c ∈ s.input, c = b) →
      exec .encode s = .next { s with
        pkLen := 0, bitCount := 0, symCount := s.inLen
        err := .noError, errInfo := 0, partialFlag := false }) ∧
    (∀ i c, s.input[i]? = some c → c ≠ b → (∀ d ∈ s.input.take i, d = b) →
      exec .encode s = .next { s with
        pk := [], pkLen := 0, bitCount := 0, symCount := 0
        err := .unknownSymbol, errInfo := BitVec.ofNat 32 i, partialFlag := false })

/-! ## DECODE -/

/-- R196, R199 to R203, R205: in the general case the first `BITCOUNT` bits of `PK`, most significant
first within a byte, split into paths of leaves and a tail inside the tree; DECODE emits those leaves'
symbols in order and reports `PARTIAL` exactly when the tail is not empty, or aborts when they are
more than `OUT_CAP`. -/
def Obligations.DecodeEmitsTheLeavesOfThePaths : Prop :=
  ∀ s l r, s.tree = some (.node l r) → inputsWritten .decode s = true →
    s.pkLen.toNat ≤ s.cfg.pkCap.toNat → s.bitCount.toNat ≤ 8 * s.pkLen.toNat →
    (s.bitsIn.length = s.bitCount.toNat ∧
      ∀ p, p < s.bitCount.toNat → ∃ byte, s.pk.read (p / 8) = some byte ∧
        s.bitsIn[p]? = some (byte.getLsbD (7 - p % 8))) ∧
    ∃ parts tail, splits (.node l r) s.bitsIn parts tail ∧
      (parts.length ≤ s.cfg.outCap.toNat →
        ∃ u, exec .decode s = .next u ∧
          u = { s with
            out := u.out, outLen := BitVec.ofNat 32 parts.length
            err := .noError, errInfo := 0, partialFlag := decide (tail ≠ []) } ∧
          (∀ j e, parts[j]? = some e → u.out.read j = some e.2) ∧
          ∀ j, parts.length ≤ j → u.out.read j = s.out.read j) ∧
      (s.cfg.outCap.toNat < parts.length →
        exec .decode s = .next { s with
          out := [], outLen := 0, err := .capacityExceeded, errInfo := 0, partialFlag := false })

/-- R199, R200: a bit string splits in one way only, so the output of DECODE is determined by it. -/
def Obligations.SplitsAreUnique : Prop :=
  ∀ l r bits parts tail parts' tail',
    splits (.node l r) bits parts tail → splits (.node l r) bits parts' tail' →
    parts = parts' ∧ tail = tail'

/-- R202: a single-leaf tree emits its symbol `SYMCOUNT` times and interprets no bit, whatever `BITCOUNT`
is within the payload; a count beyond `OUT` aborts (R205). -/
def Obligations.DecodeOfALeafEmitsSymCountCopies : Prop :=
  ∀ s b, s.tree = some (.leaf b) → s.pkLen.toNat ≤ s.cfg.pkCap.toNat →
    s.bitCount.toNat ≤ 8 * s.pkLen.toNat →
    (s.symCount.toNat ≤ s.cfg.outCap.toNat →
      ∃ u, exec .decode s = .next u ∧
        u = { s with
          out := u.out, outLen := s.symCount
          err := .noError, errInfo := 0, partialFlag := false } ∧
        (∀ j, j < s.symCount.toNat → u.out.read j = some b) ∧
        ∀ j, s.symCount.toNat ≤ j → u.out.read j = s.out.read j) ∧
    (s.cfg.outCap.toNat < s.symCount.toNat →
      exec .decode s = .next { s with
        out := [], outLen := 0, err := .capacityExceeded, errInfo := 0, partialFlag := false })

/-- R198, R204: with a tree present, a `PK_LEN` beyond `PK` raises CapacityExceeded first; then, in the
degenerate case too, DECODE raises TruncatedBitstream exactly when `BITCOUNT > 8 * PK_LEN`. -/
def Obligations.DecodeChecksLengthsBeforeBits : Prop :=
  ∀ s, s.tv = true →
    (s.cfg.pkCap.toNat < s.pkLen.toNat →
      exec .decode s = .next { s with
        out := [], outLen := 0, err := .capacityExceeded, errInfo := 0, partialFlag := false }) ∧
    (s.pkLen.toNat ≤ s.cfg.pkCap.toNat → 8 * s.pkLen.toNat < s.bitCount.toNat →
      exec .decode s = .next { s with
        out := [], outLen := 0, err := .truncatedBitstream, errInfo := 0, partialFlag := false }) ∧
    (s.bitCount.toNat ≤ 8 * s.pkLen.toNat →
      ∀ t, exec .decode s = .next t → t.err ≠ .truncatedBitstream)

/-- R207: in the general case a `BITCOUNT` of 0 gives no output and no error. -/
def Obligations.DecodeOfNoBits : Prop :=
  ∀ s l r, s.tree = some (.node l r) → s.pkLen.toNat ≤ s.cfg.pkCap.toNat → s.bitCount = 0 →
    exec .decode s = .next { s with
      outLen := 0, err := .noError, errInfo := 0, partialFlag := false }

/-! ## The round trips of the engine -/

/-- R206: a successful ENCODE with the table GENCODE makes of a tree with distinct symbols, followed by
DECODE with that tree, gives the input back. -/
def Obligations.DecodeInvertsEncode : Prop :=
  ∀ s₀ s t u, s₀.tree = some t → t.distinct → exec .gencode s₀ = .next s →
    s.cfg.wf = true → s.inLen.toNat ≤ s.cfg.outCap.toNat → inputsWritten .encode s = true →
    exec .encode s = .next u → u.err = .noError →
    ∃ v, exec .decode u = .next v ∧ v.err = .noError ∧ v.partialFlag = false ∧
      v.outLen = s.inLen ∧ ∀ j, j < s.inLen.toNat → v.out.read j = s.inp.read j

/-- R100, R130, R169, R206: `COMPRESS` and then `EXPAND` give a non-empty input back, for every
tie-break; the bit count in between is the weighted depth of the tree. -/
def Obligations.ExpandInvertsCompress : Prop :=
  ∀ s u, s.cfg.wf = true → 1 ≤ s.inLen.toNat → s.inLen.toNat ≤ s.cfg.inCap.toNat →
    s.inLen.toNat ≤ s.cfg.outCap.toNat → inputsWritten .freq s = true →
    runPseudo compressCommands s = .next u → u.err = .noError →
    (∃ t, u.tree = some t ∧ u.bitCount.toNat = weightedDepth u.freq t) ∧
    ∃ v, runPseudo expandCommands u = .next v ∧ v.err = .noError ∧ v.partialFlag = false ∧
      v.outLen = s.inLen ∧ ∀ j, j < s.inLen.toNat → v.out.read j = s.inp.read j

/-! ## The host port -/

/-- R63, R46: what reading and writing each register number does; a write to `CMD` runs a command and answers
`Ok` whether the operation succeeded or aborted. -/
def Obligations.RegisterAccess : Prop :=
  (∀ s n, hostRead 0 n s = match n.toNat with
    | 0x01 => .value s.status
    | 0x02 => .value s.errInfo
    | 0x03 => .value s.inLen
    | 0x04 => .value s.pkLen
    | 0x05 => .value s.bitCount
    | 0x06 => .value s.symCount
    | 0x07 => .value s.outLen
    | 0x08 => .value s.kindsLen
    | 0x09 => .value s.valuesLen
    | 0x0A => .value (s.rootWeight.extractLsb' 0 32)
    | 0x0B => .value ((s.rootWeight.extractLsb' 32 8).setWidth 32)
    | 0x0C => .value s.cfg.inCap
    | 0x0D => .value s.cfg.pkCap
    | 0x0E => .value s.cfg.outCap
    | _ => .fault) ∧
  (∀ s n v, n ≠ 0 → ∃ k, serve (.write 0 n v) s = .next (match n.toNat with
    | 0x03 => { s with inLen := v, response := some .ok, tick := k }
    | 0x04 => { s with pkLen := v, response := some .ok, tick := k }
    | 0x05 => { s with bitCount := v, response := some .ok, tick := k }
    | 0x06 => { s with symCount := v, response := some .ok, tick := k }
    | 0x08 => { s with kindsLen := v, response := some .ok, tick := k }
    | 0x09 => { s with valuesLen := v, response := some .ok, tick := k }
    | _ => { s with response := some .fault, tick := k })) ∧
  (∀ s w, serve (.write 0 0 w) s = runCommand w s ∧
    ∃ t, runCommand w s = .next t ∧ t.response = some .ok)

/-- R43, R25, R27, R211: the fields of `STATUS`, with the number of each error kind. -/
def Obligations.StatusReportsTheStores : Prop :=
  ∀ s : State,
    s.status.extractLsb' 0 4 = (match s.err with
      | .noError => 0
      | .emptyAlphabet => 1
      | .unknownSymbol => 2
      | .malformedSerialization => 3
      | .truncatedBitstream => 4
      | .noOperand => 5
      | .capacityExceeded => 6
      | .illegalCommand => 7) ∧
    (s.status.getLsbD 4 = true ↔ ∃ t, s.tree = some t) ∧
    (s.status.getLsbD 5 = true ↔ ∃ m, s.code = some m) ∧
    (s.status.getLsbD 6 = true ↔ ∃ b, s.tree = some (.leaf b)) ∧
    s.status.getLsbD 7 = s.partialFlag ∧
    s.status.extractLsb' 8 24 = 0

/-- R64: a buffer write inside the capacity and the data range stores the data in that cell, leaves every
other cell and everything else alone, and answers `Ok`; in every other case the result is `Fault`. -/
def Obligations.BufferWritesStoreOneCell : Prop :=
  ∀ s i v,
    (i.toNat < s.cfg.inCap.toNat → v.toNat ≤ 255 →
      ∃ c n, serve (.write 1 i v) s
          = .next { s with inp := c, response := some .ok, tick := n } ∧
        ∀ j, c.read j = if j = i.toNat then some (v.setWidth 8) else s.inp.read j) ∧
    (i.toNat < 256 →
      ∃ c n, serve (.write 2 i v) s
          = .next { s with freq := c, response := some .ok, tick := n } ∧
        ∀ b, countAt c b = if b.toNat = i.toNat then v else countAt s.freq b) ∧
    (i.toNat < 511 → v.toNat ≤ 1 →
      ∃ c n, serve (.write 3 i v) s
          = .next { s with kinds := c, response := some .ok, tick := n } ∧
        ∀ j, c.read j = if j = i.toNat then some (if v = 1 then .internal else .leaf)
          else s.kinds.read j) ∧
    (i.toNat < 256 → v.toNat ≤ 255 →
      ∃ c n, serve (.write 4 i v) s
          = .next { s with values := c, response := some .ok, tick := n } ∧
        ∀ j, c.read j = if j = i.toNat then some (v.setWidth 8) else s.values.read j) ∧
    (i.toNat < s.cfg.pkCap.toNat → v.toNat ≤ 255 →
      ∃ c n, serve (.write 5 i v) s
          = .next { s with pk := c, response := some .ok, tick := n } ∧
        ∀ j, c.read j = if j = i.toNat then some (v.setWidth 8) else s.pk.read j) ∧
    (∀ space, space ≠ 0 → writeFaults space i v s →
      ∃ n, serve (.write space i v) s = .next { s with response := some .fault, tick := n })

/-- R65: reading a written cell below the capacity of `IN`, `FREQ`, `KINDS`, `VALUES` or `PK` returns it
zero-extended, whatever the length registers hold; reading an unwritten one returns some value; a read at
or above the capacity is a `Fault`. No read changes any state (R72). -/
def Obligations.BufferReadsReturnTheCell : Prop :=
  (∀ s i b, i.toNat < s.cfg.inCap.toNat → s.inp.read i.toNat = some b →
    hostRead 1 i s = .value (b.setWidth 32)) ∧
  (∀ s i, i.toNat < 256 → hostRead 2 i s = .value (countAt s.freq (i.setWidth 8))) ∧
  (∀ s i k, i.toNat < 511 → s.kinds.read i.toNat = some k →
    hostRead 3 i s = .value (if k = .internal then 1 else 0)) ∧
  (∀ s i b, i.toNat < 256 → s.values.read i.toNat = some b →
    hostRead 4 i s = .value (b.setWidth 32)) ∧
  (∀ s i b, i.toNat < s.cfg.pkCap.toNat → s.pk.read i.toNat = some b →
    hostRead 5 i s = .value (b.setWidth 32)) ∧
  (∀ s space i, 1 ≤ space.toNat → space.toNat ≤ 5 →
    (readFaults space i s → hostRead space i s = .fault) ∧
    (¬ readFaults space i s → ∃ v, hostRead space i s = .value v)) ∧
  (∀ s space i, ∃ n, serve (.read space i) s
    = .next { s with response := some (hostRead space i s), tick := n })

/-- R66: the host's view of the code table. -/
def Obligations.CodeTableView : Prop :=
  (∀ s m i, codeOk s.code → s.code = some m → i.toNat < 256 →
    ∃ v, hostRead 7 i s = .value v ∧
      (v.getLsbD 8 = (codeOf m (i.setWidth 8)).isSome) ∧
      (v.extractLsb' 0 8).toNat = ((codeOf m (i.setWidth 8)).getD []).length ∧
      v.extractLsb' 9 23 = 0) ∧
  (∀ s m (b : Sym8) j, s.code = some m → j < 8 →
    ∃ v, hostRead 8 (BitVec.ofNat 32 (8 * b.toNat + j)) s = .value v ∧
      ∀ i, i < 32 → v.getLsbD (31 - i) = ((codeOf m b).getD []).getD (32 * j + i) false) ∧
  (∀ s i, s.cv = false → hostRead 7 i s = .fault ∧ hostRead 8 i s = .fault)

/-- R67: a read of `OUT` succeeds exactly below `OUT_LEN`, and then it returns a written cell. -/
def Obligations.OutReadsLiveCellsOnly : Prop :=
  ∀ s i, Sound s →
    (i.toNat < s.outLen.toNat →
      ∃ b, s.out.read i.toNat = some b ∧ hostRead 6 i s = .value (b.setWidth 32)) ∧
    (s.outLen.toNat ≤ i.toNat → hostRead 6 i s = .fault)

/-- R68: a transaction returns `Fault` in exactly the listed cases, and a faulting transaction changes no
state: not the target, not `STATUS`, not `ERRINFO`. -/
def Obligations.AccessFaultsExactlyAndChangeNothing : Prop :=
  (∀ s space i t, serve (.read space i) s = .next t →
    (t.response = some .fault ↔ readFaults space i s)) ∧
  (∀ s space i v t, serve (.write space i v) s = .next t →
    (t.response = some .fault ↔ writeFaults space i v s)) ∧
  (∀ s x t, serve x s = .next t → t.response = some .fault →
    ∃ n, t = { s with response := some .fault, tick := n })

/-! ## Reset and the invariant -/

/-- R51: what reset leaves, in the reset state and after the reset input (R240) whatever the state before.
The reset input keeps the parameters, and the capacity registers read them. -/
def Obligations.ResetClearsEverything : Prop :=
  ∀ s t, (t = State.reset ∨ serve .reset s = .next t) →
    t.status = 0 ∧ t.errInfo = 0 ∧ t.inLen = 0 ∧ t.pkLen = 0 ∧ t.bitCount = 0 ∧ t.symCount = 0 ∧
    t.outLen = 0 ∧ t.kindsLen = 0 ∧ t.valuesLen = 0 ∧ t.rootWeight = 0 ∧
    (∀ b, countAt t.freq b = 0) ∧ t.tree = none ∧ t.code = none ∧
    (∀ j, t.inp.read j = none ∧ t.pk.read j = none ∧ t.out.read j = none ∧
      t.kinds.read j = none ∧ t.values.read j = none) ∧
    hostRead 0 0x0C t = .value t.cfg.inCap ∧ hostRead 0 0x0D t = .value t.cfg.pkCap ∧
    hostRead 0 0x0E t = .value t.cfg.outCap ∧ (serve .reset s = .next t → t.cfg = s.cfg)

/-- R242: after reset the engine is idle, and what each command gives on the reset state. -/
def Obligations.CommandsOnTheResetState : Prop :=
  step State.reset = .next State.reset ∧
  exec .freq State.reset = .next State.reset ∧
  exec .build State.reset = .next { State.reset with err := .emptyAlphabet } ∧
  exec .gencode State.reset = .next { State.reset with err := .noOperand } ∧
  exec .serialize State.reset = .next { State.reset with err := .noOperand } ∧
  exec .decode State.reset = .next { State.reset with err := .noOperand } ∧
  exec .encode State.reset = .next { State.reset with err := .noOperand } ∧
  exec .deserialize State.reset
    = .next { State.reset with err := .malformedSerialization, errInfo := 1 }

/-- The invariant holds at reset, with any parameters within their bounds. That State.reset has the default
parameters of R10 is the model's choice (log entries 4 and 5). -/
def Obligations.InvariantHoldsAtReset : Prop :=
  Sound State.reset ∧ (∀ c : Config, c.wf = true → Sound (State.resetWith c)) ∧
    State.reset = State.resetWith ⟨65536, 65536, 65536, .reference⟩

/-- Every step keeps the invariant: memories in canonical form and within their capacities, at most 256
leaves in `TREE` (R24), codes of at most 255 bits (R27), the live cells of `OUT` written (R67), a root
weight of 0 without a tree (R41), parameters within their bounds. -/
def Obligations.EveryStepKeepsTheInvariant : Prop :=
  ∀ s t, Sound s → step s = .next t → Sound t

/-! ## The report of every command -/

/-- R44, R211: which command raises which kind, and the detail each kind leaves in `ERRINFO`: an index of the
input, a sub-cause from 1 to 5, else 0. -/
def Obligations.ErrorDetailByKind : Prop :=
  ∀ i s t, exec i s = .next t →
    match t.err with
    | .noError => t.errInfo = 0
    | .emptyAlphabet => i = .build ∧ t.errInfo = 0
    | .unknownSymbol => i = .encode ∧ t.errInfo.toNat < s.inLen.toNat
    | .malformedSerialization =>
      i = .deserialize ∧ 1 ≤ t.errInfo.toNat ∧ t.errInfo.toNat ≤ 5
    | .truncatedBitstream => i = .decode ∧ t.errInfo = 0
    | .noOperand =>
      (i = .gencode ∨ i = .serialize ∨ i = .encode ∨ i = .decode) ∧ t.errInfo = 0
    | .capacityExceeded =>
      (i = .freq ∨ i = .deserialize ∨ i = .encode ∨ i = .decode) ∧ t.errInfo = 0
    | .illegalCommand => False
end

