-- ==== Sys2Proof/Laws/Memory.lean ====
section
/-! SUPPORT. Cells: a read after a write, and every operation keeps the canonical form. -/

namespace Sys2Proof.Machine

variable {α : Type}

@[simp] theorem Memory.read_nil (i : Nat) : Memory.read ([] : Memory α) i = none := rfl

theorem Memory.read_cons (k : Nat) (v : α) (m : Memory α) (i : Nat) :
    Memory.read ((k, v) :: m) i = if k = i then some v else Memory.read m i := rfl

@[simp] theorem Memory.read_write_same (m : Memory α) (i : Nat) (v : α) :
    (m.write i v).read i = some v := by
  induction m with
  | nil => simp [Memory.write, Memory.read]
  | cons e m ih =>
    obtain ⟨k, w⟩ := e
    simp only [Memory.write]
    split
    · simp [Memory.read]
    · split
      · simp [Memory.read]
      · rename_i _ hne
        rw [Memory.read_cons, if_neg (fun h => hne h.symm), ih]

@[simp] theorem Memory.read_write_ne (m : Memory α) {i j : Nat} (v : α) (h : j ≠ i) :
    (m.write i v).read j = m.read j := by
  induction m with
  | nil => simp [Memory.write, Memory.read, Ne.symm h]
  | cons e m ih =>
    obtain ⟨k, w⟩ := e
    simp only [Memory.write]
    split
    · simp [Memory.read, Ne.symm h]
    · split
      · rename_i _ heq
        subst heq
        simp [Memory.read, Ne.symm h]
      · simp only [Memory.read_cons, ih]

theorem Memory.read_write (m : Memory α) (i j : Nat) (v : α) :
    (m.write i v).read j = if j = i then some v else m.read j := by
  split
  · subst j; simp
  · simp [*]

theorem Memory.read_filter (m : Memory α) (p : Nat → Bool) (i : Nat) :
    Memory.read (m.filter fun e => p e.1) i = if p i then m.read i else none := by
  induction m with
  | nil => simp [Memory.read]
  | cons e m ih =>
    obtain ⟨k, w⟩ := e
    by_cases hp : p k = true
    · simp only [List.filter_cons, hp, if_true, Memory.read_cons, ih]
      by_cases hk : k = i
      · subst hk; simp [hp]
      · simp [hk]
    · rw [List.filter_cons_of_neg (by simpa using hp), ih, Memory.read_cons]
      by_cases hk : k = i
      · subst hk; simp [hp]
      · simp [hk]

theorem Memory.read_erase (m : Memory α) (i j : Nat) :
    (m.erase i).read j = if j = i then none else m.read j := by
  have := Memory.read_filter m (fun k => decide (k ≠ i)) j
  simp only [Memory.erase, ne_eq, decide_not, Bool.not_eq_eq_eq_not, Bool.not_true,
    decide_eq_false_iff_not] at this ⊢
  rw [this]
  by_cases h : j = i <;> simp [h]

theorem Memory.read_number (k : Nat) (vs : List α) (i : Nat) :
    (Memory.number k vs).read i = if k ≤ i then vs[i - k]? else none := by
  induction vs generalizing k with
  | nil => simp [Memory.number]
  | cons v vs ih =>
    simp only [Memory.number, Memory.read_cons, ih]
    by_cases h : k = i
    · subst h; simp
    · by_cases hlt : k < i
      · obtain ⟨d, rfl⟩ : ∃ d, i = k + 1 + d := ⟨i - (k + 1), by omega⟩
        have h1 : k + 1 + d - k = d + 1 := by omega
        simp [h, h1, show k ≤ k + 1 + d by omega]
      · simp [h, show ¬ k + 1 ≤ i by omega, show ¬ k ≤ i by omega]

theorem Memory.read_append (m n : Memory α) (i : Nat) :
    Memory.read (m ++ n) i = ((m.read i).or (n.read i)) := by
  induction m with
  | nil => simp [Memory.read]
  | cons e m ih =>
    obtain ⟨k, w⟩ := e
    simp only [List.cons_append, Memory.read_cons, ih]
    split <;> simp

/-- A fill gives the first cells the given values and leaves every other cell alone. -/
theorem Memory.read_fill (m : Memory α) (vs : List α) (i : Nat) :
    (m.fill vs).read i = if i < vs.length then vs[i]? else m.read i := by
  have hf := Memory.read_filter m (fun k => decide (vs.length ≤ k)) i
  rw [Memory.fill, Memory.read_append, Memory.read_number, hf]
  by_cases h : i < vs.length
  · simp [h, show ¬ vs.length ≤ i by omega]
  · simp [h, show vs.length ≤ i by omega]

/-! ## The canonical form -/

@[simp] theorem Memory.wf_nil (cap : Nat) : Memory.wf cap ([] : Memory α) = true := rfl

theorem Memory.rising_mono {lo lo' : Nat} {m : Memory α} (h : lo ≤ lo')
    (hm : Memory.rising lo' m = true) : Memory.rising lo m = true := by
  cases m with
  | nil => rfl
  | cons e m =>
    simp only [Memory.rising, Bool.and_eq_true, decide_eq_true_eq] at hm ⊢
    exact ⟨by omega, hm.2⟩

theorem Memory.rising_write {lo : Nat} {m : Memory α} {i : Nat} (v : α) (hlo : lo ≤ i)
    (hm : Memory.rising lo m = true) : Memory.rising lo (m.write i v) = true := by
  induction m generalizing lo with
  | nil => simp [Memory.write, Memory.rising, hlo]
  | cons e m ih =>
    obtain ⟨k, w⟩ := e
    simp only [Memory.rising, Bool.and_eq_true, decide_eq_true_eq] at hm
    simp only [Memory.write]
    split
    · simp only [Memory.rising, Bool.and_eq_true, decide_eq_true_eq]
      exact ⟨hlo, by omega, hm.2⟩
    · split
      · simp only [Memory.rising, Bool.and_eq_true, decide_eq_true_eq]
        subst i; exact ⟨hlo, hm.2⟩
      · simp only [Memory.rising, Bool.and_eq_true, decide_eq_true_eq]
        exact ⟨hm.1, ih (by omega) hm.2⟩

theorem Memory.mem_write {m : Memory α} {i : Nat} {v : α} {e : Nat × α}
    (h : e ∈ m.write i v) : e = (i, v) ∨ e ∈ m := by
  induction m with
  | nil => simpa [Memory.write] using h
  | cons a m ih =>
    obtain ⟨k, w⟩ := a
    simp only [Memory.write] at h
    split at h
    · simpa using h
    · split at h
      · rcases List.mem_cons.1 h with h | h
        · exact .inl h
        · exact .inr (List.mem_cons_of_mem _ h)
      · rcases List.mem_cons.1 h with h | h
        · exact .inr (h ▸ List.mem_cons_self)
        · exact (ih h).imp id (List.mem_cons_of_mem _)

theorem Memory.rising_filter {lo : Nat} {m : Memory α} (p : Nat × α → Bool)
    (hm : Memory.rising lo m = true) : Memory.rising lo (m.filter p) = true := by
  induction m generalizing lo with
  | nil => rfl
  | cons e m ih =>
    obtain ⟨k, w⟩ := e
    simp only [Memory.rising, Bool.and_eq_true, decide_eq_true_eq] at hm
    simp only [List.filter_cons]
    split
    · simp only [Memory.rising, Bool.and_eq_true, decide_eq_true_eq]
      exact ⟨hm.1, ih hm.2⟩
    · exact Memory.rising_mono (by omega) (ih hm.2)

theorem Memory.rising_number_append (k : Nat) (vs : List α) {m : Memory α}
    (hm : Memory.rising (k + vs.length) m = true) :
    Memory.rising k (Memory.number k vs ++ m) = true := by
  induction vs generalizing k with
  | nil => simpa [Memory.number] using hm
  | cons v vs ih =>
    simp only [Memory.number, List.cons_append, Memory.rising, Bool.and_eq_true,
      decide_eq_true_eq, Nat.le_refl, true_and]
    refine ih (k + 1) ?_
    simpa [Nat.add_assoc, Nat.add_comm 1] using hm

theorem Memory.rising_of_all {lo n : Nat} {m : Memory α} (hm : Memory.rising lo m = true)
    (hall : ∀ e ∈ m, n ≤ e.1) : Memory.rising n m = true := by
  cases m with
  | nil => rfl
  | cons e m =>
    simp only [Memory.rising, Bool.and_eq_true, decide_eq_true_eq] at hm ⊢
    exact ⟨hall e List.mem_cons_self, hm.2⟩

theorem Memory.mem_number {k : Nat} {vs : List α} {e : Nat × α}
    (h : e ∈ Memory.number k vs) : k ≤ e.1 ∧ e.1 < k + vs.length ∧ e.2 ∈ vs := by
  induction vs generalizing k with
  | nil => simp [Memory.number] at h
  | cons v vs ih =>
    rcases List.mem_cons.1 h with rfl | h
    · simp
    · have := ih h
      simp only [List.length_cons, List.mem_cons]
      exact ⟨by omega, by omega, .inr this.2.2⟩

theorem Memory.wf_iff {cap : Nat} {m : Memory α} :
    m.wf cap = true ↔ Memory.rising 0 m = true ∧ ∀ e ∈ m, e.1 < cap := by
  simp [Memory.wf]

/-- A write inside the space keeps the canonical form. -/
theorem Memory.wf_write {cap : Nat} {m : Memory α} {i : Nat} (v : α) (hi : i < cap)
    (hm : m.wf cap = true) : (m.write i v).wf cap = true := by
  rw [Memory.wf_iff] at hm ⊢
  refine ⟨Memory.rising_write v (Nat.zero_le _) hm.1, fun e he => ?_⟩
  rcases Memory.mem_write he with rfl | he
  · exact hi
  · exact hm.2 e he

/-- Erasing a cell keeps the canonical form. -/
theorem Memory.wf_erase {cap : Nat} {m : Memory α} (i : Nat) (hm : m.wf cap = true) :
    (m.erase i).wf cap = true := by
  rw [Memory.wf_iff] at hm ⊢
  exact ⟨Memory.rising_filter _ hm.1, fun e he => hm.2 e (List.mem_of_mem_filter he)⟩

/-- A fill that fits the space keeps the canonical form. -/
theorem Memory.wf_fill {cap : Nat} {m : Memory α} {vs : List α} (hvs : vs.length ≤ cap)
    (hm : m.wf cap = true) : (m.fill vs).wf cap = true := by
  rw [Memory.wf_iff] at hm ⊢
  refine ⟨?_, fun e he => ?_⟩
  · refine Memory.rising_number_append 0 vs ?_
    refine Memory.rising_of_all (Memory.rising_filter _ hm.1) fun e he => ?_
    simpa using (List.mem_filter.1 he).2
  · rcases List.mem_append.1 he with he | he
    · have := Memory.mem_number he; omega
    · exact hm.2 e (List.mem_of_mem_filter he)

theorem Memory.read_none_of_rising {lo i : Nat} {m : Memory α} (hm : Memory.rising lo m = true)
    (hi : i < lo) : m.read i = none := by
  induction m generalizing lo with
  | nil => rfl
  | cons e m ih =>
    obtain ⟨k, w⟩ := e
    simp only [Memory.rising, Bool.and_eq_true, decide_eq_true_eq] at hm
    rw [Memory.read_cons, if_neg (by omega)]
    exact ih hm.2 (by omega)

/-- A cell holds a value exactly when it is listed. -/
theorem Memory.mem_iff_read {lo : Nat} {m : Memory α} (hm : Memory.rising lo m = true) (i : Nat)
    (v : α) : (i, v) ∈ m ↔ m.read i = some v := by
  induction m generalizing lo with
  | nil => simp [Memory.read]
  | cons e m ih =>
    obtain ⟨k, w⟩ := e
    simp only [Memory.rising, Bool.and_eq_true, decide_eq_true_eq] at hm
    rw [Memory.read_cons, List.mem_cons, ih hm.2]
    by_cases hk : k = i
    · subst hk
      simp [Memory.read_none_of_rising hm.2 (Nat.lt_succ_self k), eq_comm]
    · simp [hk, Ne.symm hk]

/-- In canonical form, equal reads are equal lists. -/
theorem Memory.ext_of_read {lo lo' : Nat} {m n : Memory α} (hm : Memory.rising lo m = true)
    (hn : Memory.rising lo' n = true) (h : ∀ i, m.read i = n.read i) : m = n := by
  induction m generalizing lo lo' n with
  | nil =>
    cases n with
    | nil => rfl
    | cons e n => simpa [Memory.read] using h e.1
  | cons e m ih =>
    obtain ⟨k, w⟩ := e
    cases n with
    | nil => simpa [Memory.read_cons] using h k
    | cons e' n =>
      obtain ⟨k', w'⟩ := e'
      simp only [Memory.rising, Bool.and_eq_true, decide_eq_true_eq] at hm hn
      have hk : k = k' := by
        rcases Nat.lt_trichotomy k k' with hlt | heq | hgt
        · have := h k
          rw [Memory.read_cons, Memory.read_cons, if_pos rfl, if_neg (by omega),
            Memory.read_none_of_rising hn.2 (by omega)] at this
          cases this
        · exact heq
        · have := h k'
          rw [Memory.read_cons, Memory.read_cons, if_neg (by omega), if_pos rfl,
            Memory.read_none_of_rising hm.2 (by omega)] at this
          cases this
      subst hk
      have hw : w = w' := by simpa [Memory.read_cons] using h k
      subst hw
      congr 1
      refine ih hm.2 hn.2 fun i => ?_
      by_cases hi : k = i
      · subst hi
        rw [Memory.read_none_of_rising hm.2 (Nat.lt_succ_self k),
          Memory.read_none_of_rising hn.2 (Nat.lt_succ_self k)]
      · simpa [Memory.read_cons, hi] using h i

theorem Memory.writtenBelow_iff {m : Memory α} {n : Nat} :
    m.writtenBelow n = true ↔ ∀ i, i < n → ∃ v, m.read i = some v := by
  simp [Memory.writtenBelow, Option.isSome_iff_exists]

/-! ## The frequency mapping -/

@[simp] theorem countAt_nil (b : Sym8) : countAt [] b = 0 := rfl

@[simp] theorem countAt_setCount_same (m : Memory Word) (b : Sym8) (v : Word) :
    countAt (setCount m b v) b = v := by
  unfold setCount countAt
  split
  · rename_i h; simp [Memory.read_erase, h]
  · simp

@[simp] theorem countAt_setCount_ne (m : Memory Word) {b c : Sym8} (v : Word) (h : c ≠ b) :
    countAt (setCount m b v) c = countAt m c := by
  have hn : c.toNat ≠ b.toNat := fun e => h (BitVec.eq_of_toNat_eq e)
  unfold setCount countAt
  split
  · simp [Memory.read_erase, hn]
  · rw [Memory.read_write_ne _ _ hn]

theorem freqWf_iff {m : Memory Word} :
    freqWf m = true ↔ m.wf alphabetSize = true ∧ ∀ e ∈ m, e.2 ≠ 0 := by
  simp [freqWf]

/-- Setting a count keeps the mapping in canonical form. -/
theorem freqWf_setCount {m : Memory Word} (b : Sym8) (v : Word) (hm : freqWf m = true) :
    freqWf (setCount m b v) = true := by
  rw [freqWf_iff] at hm ⊢
  unfold setCount
  split
  · exact ⟨Memory.wf_erase _ hm.1, fun e he => hm.2 e (List.mem_of_mem_filter he)⟩
  · rename_i hv
    refine ⟨Memory.wf_write v (by have := b.isLt; simpa [alphabetSize] using this) hm.1, ?_⟩
    intro e he
    rcases Memory.mem_write he with rfl | he
    · exact hv
    · exact hm.2 e he

theorem freqWf_countBytes (bs : List Byte) : freqWf (countBytes bs) = true := by
  suffices h : ∀ (bs : List Byte) (m : Memory Word), freqWf m = true →
      freqWf (bs.foldl (fun m b => setCount m b (countAt m b + 1)) m) = true from h bs [] rfl
  intro bs
  induction bs with
  | nil => exact fun m hm => hm
  | cons b bs ih => exact fun m hm => ih _ (freqWf_setCount _ _ hm)

/-- Counting adds, for each symbol, the number of its occurrences (modulo the cell's width). -/
theorem countAt_countBytes (bs : List Byte) (b : Sym8) :
    countAt (countBytes bs) b = BitVec.ofNat 32 (bs.count b) := by
  suffices h : ∀ (bs : List Byte) (m : Memory Word),
      countAt (bs.foldl (fun m b => setCount m b (countAt m b + 1)) m) b
        = countAt m b + BitVec.ofNat 32 (bs.count b) by
    simpa [countBytes] using h bs []
  intro bs
  induction bs with
  | nil => intro m; simp
  | cons c bs ih =>
    intro m
    rw [List.foldl_cons, ih]
    by_cases hc : c = b
    · subst hc
      rw [countAt_setCount_same, List.count_cons_self, BitVec.add_assoc]
      congr 1
      rw [Nat.add_comm, BitVec.ofNat_add]; rfl
    · rw [countAt_setCount_ne _ _ (Ne.symm hc), List.count_cons_of_ne hc]

end Sys2Proof.Machine
end

