-- ==== Sys2Proof/Laws/State.lean ====
section
/-! SUPPORT. One lemma per field per named update of `State`, so that no proof unfolds an update. -/

namespace Sys2Proof.Machine

section
variable (k : ErrKind) (info : Word) (p : Bool) (s : State)

@[simp] theorem report_cfg : (report k info p s).cfg = s.cfg := rfl
@[simp] theorem report_tree : (report k info p s).tree = s.tree := rfl
@[simp] theorem report_freq : (report k info p s).freq = s.freq := rfl
@[simp] theorem report_code : (report k info p s).code = s.code := rfl
@[simp] theorem report_kinds : (report k info p s).kinds = s.kinds := rfl
@[simp] theorem report_values : (report k info p s).values = s.values := rfl
@[simp] theorem report_inp : (report k info p s).inp = s.inp := rfl
@[simp] theorem report_pk : (report k info p s).pk = s.pk := rfl
@[simp] theorem report_out : (report k info p s).out = s.out := rfl
@[simp] theorem report_inLen : (report k info p s).inLen = s.inLen := rfl
@[simp] theorem report_pkLen : (report k info p s).pkLen = s.pkLen := rfl
@[simp] theorem report_bitCount : (report k info p s).bitCount = s.bitCount := rfl
@[simp] theorem report_symCount : (report k info p s).symCount = s.symCount := rfl
@[simp] theorem report_outLen : (report k info p s).outLen = s.outLen := rfl
@[simp] theorem report_kindsLen : (report k info p s).kindsLen = s.kindsLen := rfl
@[simp] theorem report_valuesLen : (report k info p s).valuesLen = s.valuesLen := rfl
@[simp] theorem report_rootWeight : (report k info p s).rootWeight = s.rootWeight := rfl
@[simp] theorem report_err : (report k info p s).err = k := rfl
@[simp] theorem report_partialFlag : (report k info p s).partialFlag = p := rfl
@[simp] theorem report_errInfo : (report k info p s).errInfo = info := rfl
@[simp] theorem report_response : (report k info p s).response = s.response := rfl
@[simp] theorem report_tick : (report k info p s).tick = s.tick := rfl
@[simp] theorem report_pending : (report k info p s).pending = s.pending := rfl

end

section
variable (m : Memory Word) (s : State)

@[simp] theorem writeFreq_cfg : (writeFreq m s).cfg = s.cfg := rfl
@[simp] theorem writeFreq_tree : (writeFreq m s).tree = s.tree := rfl
@[simp] theorem writeFreq_freq : (writeFreq m s).freq = m := rfl
@[simp] theorem writeFreq_code : (writeFreq m s).code = s.code := rfl
@[simp] theorem writeFreq_kinds : (writeFreq m s).kinds = s.kinds := rfl
@[simp] theorem writeFreq_values : (writeFreq m s).values = s.values := rfl
@[simp] theorem writeFreq_inp : (writeFreq m s).inp = s.inp := rfl
@[simp] theorem writeFreq_pk : (writeFreq m s).pk = s.pk := rfl
@[simp] theorem writeFreq_out : (writeFreq m s).out = s.out := rfl
@[simp] theorem writeFreq_inLen : (writeFreq m s).inLen = s.inLen := rfl
@[simp] theorem writeFreq_pkLen : (writeFreq m s).pkLen = s.pkLen := rfl
@[simp] theorem writeFreq_bitCount : (writeFreq m s).bitCount = s.bitCount := rfl
@[simp] theorem writeFreq_symCount : (writeFreq m s).symCount = s.symCount := rfl
@[simp] theorem writeFreq_outLen : (writeFreq m s).outLen = s.outLen := rfl
@[simp] theorem writeFreq_kindsLen : (writeFreq m s).kindsLen = s.kindsLen := rfl
@[simp] theorem writeFreq_valuesLen : (writeFreq m s).valuesLen = s.valuesLen := rfl
@[simp] theorem writeFreq_rootWeight : (writeFreq m s).rootWeight = s.rootWeight := rfl
@[simp] theorem writeFreq_err : (writeFreq m s).err = s.err := rfl
@[simp] theorem writeFreq_partialFlag : (writeFreq m s).partialFlag = s.partialFlag := rfl
@[simp] theorem writeFreq_errInfo : (writeFreq m s).errInfo = s.errInfo := rfl
@[simp] theorem writeFreq_response : (writeFreq m s).response = s.response := rfl
@[simp] theorem writeFreq_tick : (writeFreq m s).tick = s.tick := rfl
@[simp] theorem writeFreq_pending : (writeFreq m s).pending = s.pending := rfl

end

section
variable (t : HuffTree) (w : Weight) (s : State)

@[simp] theorem writeTree_cfg : (writeTree t w s).cfg = s.cfg := rfl
@[simp] theorem writeTree_tree : (writeTree t w s).tree = some t := rfl
@[simp] theorem writeTree_freq : (writeTree t w s).freq = s.freq := rfl
@[simp] theorem writeTree_code : (writeTree t w s).code = s.code := rfl
@[simp] theorem writeTree_kinds : (writeTree t w s).kinds = s.kinds := rfl
@[simp] theorem writeTree_values : (writeTree t w s).values = s.values := rfl
@[simp] theorem writeTree_inp : (writeTree t w s).inp = s.inp := rfl
@[simp] theorem writeTree_pk : (writeTree t w s).pk = s.pk := rfl
@[simp] theorem writeTree_out : (writeTree t w s).out = s.out := rfl
@[simp] theorem writeTree_inLen : (writeTree t w s).inLen = s.inLen := rfl
@[simp] theorem writeTree_pkLen : (writeTree t w s).pkLen = s.pkLen := rfl
@[simp] theorem writeTree_bitCount : (writeTree t w s).bitCount = s.bitCount := rfl
@[simp] theorem writeTree_symCount : (writeTree t w s).symCount = s.symCount := rfl
@[simp] theorem writeTree_outLen : (writeTree t w s).outLen = s.outLen := rfl
@[simp] theorem writeTree_kindsLen : (writeTree t w s).kindsLen = s.kindsLen := rfl
@[simp] theorem writeTree_valuesLen : (writeTree t w s).valuesLen = s.valuesLen := rfl
@[simp] theorem writeTree_rootWeight : (writeTree t w s).rootWeight = w := rfl
@[simp] theorem writeTree_err : (writeTree t w s).err = s.err := rfl
@[simp] theorem writeTree_partialFlag : (writeTree t w s).partialFlag = s.partialFlag := rfl
@[simp] theorem writeTree_errInfo : (writeTree t w s).errInfo = s.errInfo := rfl
@[simp] theorem writeTree_response : (writeTree t w s).response = s.response := rfl
@[simp] theorem writeTree_tick : (writeTree t w s).tick = s.tick := rfl
@[simp] theorem writeTree_pending : (writeTree t w s).pending = s.pending := rfl

end

section
variable (m : Memory Code) (s : State)

@[simp] theorem writeCode_cfg : (writeCode m s).cfg = s.cfg := rfl
@[simp] theorem writeCode_tree : (writeCode m s).tree = s.tree := rfl
@[simp] theorem writeCode_freq : (writeCode m s).freq = s.freq := rfl
@[simp] theorem writeCode_code : (writeCode m s).code = some m := rfl
@[simp] theorem writeCode_kinds : (writeCode m s).kinds = s.kinds := rfl
@[simp] theorem writeCode_values : (writeCode m s).values = s.values := rfl
@[simp] theorem writeCode_inp : (writeCode m s).inp = s.inp := rfl
@[simp] theorem writeCode_pk : (writeCode m s).pk = s.pk := rfl
@[simp] theorem writeCode_out : (writeCode m s).out = s.out := rfl
@[simp] theorem writeCode_inLen : (writeCode m s).inLen = s.inLen := rfl
@[simp] theorem writeCode_pkLen : (writeCode m s).pkLen = s.pkLen := rfl
@[simp] theorem writeCode_bitCount : (writeCode m s).bitCount = s.bitCount := rfl
@[simp] theorem writeCode_symCount : (writeCode m s).symCount = s.symCount := rfl
@[simp] theorem writeCode_outLen : (writeCode m s).outLen = s.outLen := rfl
@[simp] theorem writeCode_kindsLen : (writeCode m s).kindsLen = s.kindsLen := rfl
@[simp] theorem writeCode_valuesLen : (writeCode m s).valuesLen = s.valuesLen := rfl
@[simp] theorem writeCode_rootWeight : (writeCode m s).rootWeight = s.rootWeight := rfl
@[simp] theorem writeCode_err : (writeCode m s).err = s.err := rfl
@[simp] theorem writeCode_partialFlag : (writeCode m s).partialFlag = s.partialFlag := rfl
@[simp] theorem writeCode_errInfo : (writeCode m s).errInfo = s.errInfo := rfl
@[simp] theorem writeCode_response : (writeCode m s).response = s.response := rfl
@[simp] theorem writeCode_tick : (writeCode m s).tick = s.tick := rfl
@[simp] theorem writeCode_pending : (writeCode m s).pending = s.pending := rfl

end

section
variable (ks : List NodeKind) (vs : List Byte) (s : State)

@[simp] theorem writePair_cfg : (writePair ks vs s).cfg = s.cfg := rfl
@[simp] theorem writePair_tree : (writePair ks vs s).tree = s.tree := rfl
@[simp] theorem writePair_freq : (writePair ks vs s).freq = s.freq := rfl
@[simp] theorem writePair_code : (writePair ks vs s).code = s.code := rfl
@[simp] theorem writePair_kinds : (writePair ks vs s).kinds = s.kinds.fill ks := rfl
@[simp] theorem writePair_values : (writePair ks vs s).values = s.values.fill vs := rfl
@[simp] theorem writePair_inp : (writePair ks vs s).inp = s.inp := rfl
@[simp] theorem writePair_pk : (writePair ks vs s).pk = s.pk := rfl
@[simp] theorem writePair_out : (writePair ks vs s).out = s.out := rfl
@[simp] theorem writePair_inLen : (writePair ks vs s).inLen = s.inLen := rfl
@[simp] theorem writePair_pkLen : (writePair ks vs s).pkLen = s.pkLen := rfl
@[simp] theorem writePair_bitCount : (writePair ks vs s).bitCount = s.bitCount := rfl
@[simp] theorem writePair_symCount : (writePair ks vs s).symCount = s.symCount := rfl
@[simp] theorem writePair_outLen : (writePair ks vs s).outLen = s.outLen := rfl
@[simp] theorem writePair_kindsLen : (writePair ks vs s).kindsLen = BitVec.ofNat 32 ks.length := rfl
@[simp] theorem writePair_valuesLen : (writePair ks vs s).valuesLen = BitVec.ofNat 32 vs.length := rfl
@[simp] theorem writePair_rootWeight : (writePair ks vs s).rootWeight = s.rootWeight := rfl
@[simp] theorem writePair_err : (writePair ks vs s).err = s.err := rfl
@[simp] theorem writePair_partialFlag : (writePair ks vs s).partialFlag = s.partialFlag := rfl
@[simp] theorem writePair_errInfo : (writePair ks vs s).errInfo = s.errInfo := rfl
@[simp] theorem writePair_response : (writePair ks vs s).response = s.response := rfl
@[simp] theorem writePair_tick : (writePair ks vs s).tick = s.tick := rfl
@[simp] theorem writePair_pending : (writePair ks vs s).pending = s.pending := rfl

end

section
variable (bits : List Bool) (s : State)

@[simp] theorem writePacked_cfg : (writePacked bits s).cfg = s.cfg := rfl
@[simp] theorem writePacked_tree : (writePacked bits s).tree = s.tree := rfl
@[simp] theorem writePacked_freq : (writePacked bits s).freq = s.freq := rfl
@[simp] theorem writePacked_code : (writePacked bits s).code = s.code := rfl
@[simp] theorem writePacked_kinds : (writePacked bits s).kinds = s.kinds := rfl
@[simp] theorem writePacked_values : (writePacked bits s).values = s.values := rfl
@[simp] theorem writePacked_inp : (writePacked bits s).inp = s.inp := rfl
@[simp] theorem writePacked_pk : (writePacked bits s).pk = s.pk.fill (packBytes (padBits bits)) := rfl
@[simp] theorem writePacked_out : (writePacked bits s).out = s.out := rfl
@[simp] theorem writePacked_inLen : (writePacked bits s).inLen = s.inLen := rfl
@[simp] theorem writePacked_pkLen : (writePacked bits s).pkLen = BitVec.ofNat 32 ((padBits bits).length / 8) := rfl
@[simp] theorem writePacked_bitCount : (writePacked bits s).bitCount = BitVec.ofNat 32 bits.length := rfl
@[simp] theorem writePacked_symCount : (writePacked bits s).symCount = s.inLen := rfl
@[simp] theorem writePacked_outLen : (writePacked bits s).outLen = s.outLen := rfl
@[simp] theorem writePacked_kindsLen : (writePacked bits s).kindsLen = s.kindsLen := rfl
@[simp] theorem writePacked_valuesLen : (writePacked bits s).valuesLen = s.valuesLen := rfl
@[simp] theorem writePacked_rootWeight : (writePacked bits s).rootWeight = s.rootWeight := rfl
@[simp] theorem writePacked_err : (writePacked bits s).err = s.err := rfl
@[simp] theorem writePacked_partialFlag : (writePacked bits s).partialFlag = s.partialFlag := rfl
@[simp] theorem writePacked_errInfo : (writePacked bits s).errInfo = s.errInfo := rfl
@[simp] theorem writePacked_response : (writePacked bits s).response = s.response := rfl
@[simp] theorem writePacked_tick : (writePacked bits s).tick = s.tick := rfl
@[simp] theorem writePacked_pending : (writePacked bits s).pending = s.pending := rfl

end

section
variable (syms : List Sym8) (s : State)

@[simp] theorem writeOut_cfg : (writeOut syms s).cfg = s.cfg := rfl
@[simp] theorem writeOut_tree : (writeOut syms s).tree = s.tree := rfl
@[simp] theorem writeOut_freq : (writeOut syms s).freq = s.freq := rfl
@[simp] theorem writeOut_code : (writeOut syms s).code = s.code := rfl
@[simp] theorem writeOut_kinds : (writeOut syms s).kinds = s.kinds := rfl
@[simp] theorem writeOut_values : (writeOut syms s).values = s.values := rfl
@[simp] theorem writeOut_inp : (writeOut syms s).inp = s.inp := rfl
@[simp] theorem writeOut_pk : (writeOut syms s).pk = s.pk := rfl
@[simp] theorem writeOut_out : (writeOut syms s).out = s.out.fill syms := rfl
@[simp] theorem writeOut_inLen : (writeOut syms s).inLen = s.inLen := rfl
@[simp] theorem writeOut_pkLen : (writeOut syms s).pkLen = s.pkLen := rfl
@[simp] theorem writeOut_bitCount : (writeOut syms s).bitCount = s.bitCount := rfl
@[simp] theorem writeOut_symCount : (writeOut syms s).symCount = s.symCount := rfl
@[simp] theorem writeOut_outLen : (writeOut syms s).outLen = BitVec.ofNat 32 syms.length := rfl
@[simp] theorem writeOut_kindsLen : (writeOut syms s).kindsLen = s.kindsLen := rfl
@[simp] theorem writeOut_valuesLen : (writeOut syms s).valuesLen = s.valuesLen := rfl
@[simp] theorem writeOut_rootWeight : (writeOut syms s).rootWeight = s.rootWeight := rfl
@[simp] theorem writeOut_err : (writeOut syms s).err = s.err := rfl
@[simp] theorem writeOut_partialFlag : (writeOut syms s).partialFlag = s.partialFlag := rfl
@[simp] theorem writeOut_errInfo : (writeOut syms s).errInfo = s.errInfo := rfl
@[simp] theorem writeOut_response : (writeOut syms s).response = s.response := rfl
@[simp] theorem writeOut_tick : (writeOut syms s).tick = s.tick := rfl
@[simp] theorem writeOut_pending : (writeOut syms s).pending = s.pending := rfl

end

section
variable (r : Response) (s : State)

@[simp] theorem respond_cfg : (respond r s).cfg = s.cfg := rfl
@[simp] theorem respond_tree : (respond r s).tree = s.tree := rfl
@[simp] theorem respond_freq : (respond r s).freq = s.freq := rfl
@[simp] theorem respond_code : (respond r s).code = s.code := rfl
@[simp] theorem respond_kinds : (respond r s).kinds = s.kinds := rfl
@[simp] theorem respond_values : (respond r s).values = s.values := rfl
@[simp] theorem respond_inp : (respond r s).inp = s.inp := rfl
@[simp] theorem respond_pk : (respond r s).pk = s.pk := rfl
@[simp] theorem respond_out : (respond r s).out = s.out := rfl
@[simp] theorem respond_inLen : (respond r s).inLen = s.inLen := rfl
@[simp] theorem respond_pkLen : (respond r s).pkLen = s.pkLen := rfl
@[simp] theorem respond_bitCount : (respond r s).bitCount = s.bitCount := rfl
@[simp] theorem respond_symCount : (respond r s).symCount = s.symCount := rfl
@[simp] theorem respond_outLen : (respond r s).outLen = s.outLen := rfl
@[simp] theorem respond_kindsLen : (respond r s).kindsLen = s.kindsLen := rfl
@[simp] theorem respond_valuesLen : (respond r s).valuesLen = s.valuesLen := rfl
@[simp] theorem respond_rootWeight : (respond r s).rootWeight = s.rootWeight := rfl
@[simp] theorem respond_err : (respond r s).err = s.err := rfl
@[simp] theorem respond_partialFlag : (respond r s).partialFlag = s.partialFlag := rfl
@[simp] theorem respond_errInfo : (respond r s).errInfo = s.errInfo := rfl
@[simp] theorem respond_response : (respond r s).response = some r := rfl
@[simp] theorem respond_tick : (respond r s).tick = s.tick + 1 := rfl
@[simp] theorem respond_pending : (respond r s).pending = s.pending := rfl

end

section
variable (i : Instr) (k : ErrKind) (info : Word) (s : State)

@[simp] theorem invalidate_cfg : (invalidate i s).cfg = s.cfg := by cases i <;> rfl
@[simp] theorem invalidate_freq_tree : (invalidate .freq s).tree = s.tree := rfl
@[simp] theorem invalidate_build_tree : (invalidate .build s).tree = none := rfl
@[simp] theorem invalidate_gencode_tree : (invalidate .gencode s).tree = s.tree := rfl
@[simp] theorem invalidate_serialize_tree : (invalidate .serialize s).tree = s.tree := rfl
@[simp] theorem invalidate_deserialize_tree : (invalidate .deserialize s).tree = none := rfl
@[simp] theorem invalidate_encode_tree : (invalidate .encode s).tree = s.tree := rfl
@[simp] theorem invalidate_decode_tree : (invalidate .decode s).tree = s.tree := rfl
@[simp] theorem invalidate_freq_freq : (invalidate .freq s).freq = [] := rfl
@[simp] theorem invalidate_build_freq : (invalidate .build s).freq = s.freq := rfl
@[simp] theorem invalidate_gencode_freq : (invalidate .gencode s).freq = s.freq := rfl
@[simp] theorem invalidate_serialize_freq : (invalidate .serialize s).freq = s.freq := rfl
@[simp] theorem invalidate_deserialize_freq : (invalidate .deserialize s).freq = s.freq := rfl
@[simp] theorem invalidate_encode_freq : (invalidate .encode s).freq = s.freq := rfl
@[simp] theorem invalidate_decode_freq : (invalidate .decode s).freq = s.freq := rfl
@[simp] theorem invalidate_freq_code : (invalidate .freq s).code = s.code := rfl
@[simp] theorem invalidate_build_code : (invalidate .build s).code = s.code := rfl
@[simp] theorem invalidate_gencode_code : (invalidate .gencode s).code = none := rfl
@[simp] theorem invalidate_serialize_code : (invalidate .serialize s).code = s.code := rfl
@[simp] theorem invalidate_deserialize_code : (invalidate .deserialize s).code = s.code := rfl
@[simp] theorem invalidate_encode_code : (invalidate .encode s).code = s.code := rfl
@[simp] theorem invalidate_decode_code : (invalidate .decode s).code = s.code := rfl
@[simp] theorem invalidate_freq_kinds : (invalidate .freq s).kinds = s.kinds := rfl
@[simp] theorem invalidate_build_kinds : (invalidate .build s).kinds = s.kinds := rfl
@[simp] theorem invalidate_gencode_kinds : (invalidate .gencode s).kinds = s.kinds := rfl
@[simp] theorem invalidate_serialize_kinds : (invalidate .serialize s).kinds = [] := rfl
@[simp] theorem invalidate_deserialize_kinds : (invalidate .deserialize s).kinds = s.kinds := rfl
@[simp] theorem invalidate_encode_kinds : (invalidate .encode s).kinds = s.kinds := rfl
@[simp] theorem invalidate_decode_kinds : (invalidate .decode s).kinds = s.kinds := rfl
@[simp] theorem invalidate_freq_values : (invalidate .freq s).values = s.values := rfl
@[simp] theorem invalidate_build_values : (invalidate .build s).values = s.values := rfl
@[simp] theorem invalidate_gencode_values : (invalidate .gencode s).values = s.values := rfl
@[simp] theorem invalidate_serialize_values : (invalidate .serialize s).values = [] := rfl
@[simp] theorem invalidate_deserialize_values : (invalidate .deserialize s).values = s.values := rfl
@[simp] theorem invalidate_encode_values : (invalidate .encode s).values = s.values := rfl
@[simp] theorem invalidate_decode_values : (invalidate .decode s).values = s.values := rfl
@[simp] theorem invalidate_inp : (invalidate i s).inp = s.inp := by cases i <;> rfl
@[simp] theorem invalidate_freq_pk : (invalidate .freq s).pk = s.pk := rfl
@[simp] theorem invalidate_build_pk : (invalidate .build s).pk = s.pk := rfl
@[simp] theorem invalidate_gencode_pk : (invalidate .gencode s).pk = s.pk := rfl
@[simp] theorem invalidate_serialize_pk : (invalidate .serialize s).pk = s.pk := rfl
@[simp] theorem invalidate_deserialize_pk : (invalidate .deserialize s).pk = s.pk := rfl
@[simp] theorem invalidate_encode_pk : (invalidate .encode s).pk = [] := rfl
@[simp] theorem invalidate_decode_pk : (invalidate .decode s).pk = s.pk := rfl
@[simp] theorem invalidate_freq_out : (invalidate .freq s).out = s.out := rfl
@[simp] theorem invalidate_build_out : (invalidate .build s).out = s.out := rfl
@[simp] theorem invalidate_gencode_out : (invalidate .gencode s).out = s.out := rfl
@[simp] theorem invalidate_serialize_out : (invalidate .serialize s).out = s.out := rfl
@[simp] theorem invalidate_deserialize_out : (invalidate .deserialize s).out = s.out := rfl
@[simp] theorem invalidate_encode_out : (invalidate .encode s).out = s.out := rfl
@[simp] theorem invalidate_decode_out : (invalidate .decode s).out = [] := rfl
@[simp] theorem invalidate_inLen : (invalidate i s).inLen = s.inLen := by cases i <;> rfl
@[simp] theorem invalidate_freq_pkLen : (invalidate .freq s).pkLen = s.pkLen := rfl
@[simp] theorem invalidate_build_pkLen : (invalidate .build s).pkLen = s.pkLen := rfl
@[simp] theorem invalidate_gencode_pkLen : (invalidate .gencode s).pkLen = s.pkLen := rfl
@[simp] theorem invalidate_serialize_pkLen : (invalidate .serialize s).pkLen = s.pkLen := rfl
@[simp] theorem invalidate_deserialize_pkLen : (invalidate .deserialize s).pkLen = s.pkLen := rfl
@[simp] theorem invalidate_encode_pkLen : (invalidate .encode s).pkLen = 0 := rfl
@[simp] theorem invalidate_decode_pkLen : (invalidate .decode s).pkLen = s.pkLen := rfl
@[simp] theorem invalidate_freq_bitCount : (invalidate .freq s).bitCount = s.bitCount := rfl
@[simp] theorem invalidate_build_bitCount : (invalidate .build s).bitCount = s.bitCount := rfl
@[simp] theorem invalidate_gencode_bitCount : (invalidate .gencode s).bitCount = s.bitCount := rfl
@[simp] theorem invalidate_serialize_bitCount : (invalidate .serialize s).bitCount = s.bitCount := rfl
@[simp] theorem invalidate_deserialize_bitCount : (invalidate .deserialize s).bitCount = s.bitCount := rfl
@[simp] theorem invalidate_encode_bitCount : (invalidate .encode s).bitCount = 0 := rfl
@[simp] theorem invalidate_decode_bitCount : (invalidate .decode s).bitCount = s.bitCount := rfl
@[simp] theorem invalidate_freq_symCount : (invalidate .freq s).symCount = s.symCount := rfl
@[simp] theorem invalidate_build_symCount : (invalidate .build s).symCount = s.symCount := rfl
@[simp] theorem invalidate_gencode_symCount : (invalidate .gencode s).symCount = s.symCount := rfl
@[simp] theorem invalidate_serialize_symCount : (invalidate .serialize s).symCount = s.symCount := rfl
@[simp] theorem invalidate_deserialize_symCount : (invalidate .deserialize s).symCount = s.symCount := rfl
@[simp] theorem invalidate_encode_symCount : (invalidate .encode s).symCount = 0 := rfl
@[simp] theorem invalidate_decode_symCount : (invalidate .decode s).symCount = s.symCount := rfl
@[simp] theorem invalidate_freq_outLen : (invalidate .freq s).outLen = s.outLen := rfl
@[simp] theorem invalidate_build_outLen : (invalidate .build s).outLen = s.outLen := rfl
@[simp] theorem invalidate_gencode_outLen : (invalidate .gencode s).outLen = s.outLen := rfl
@[simp] theorem invalidate_serialize_outLen : (invalidate .serialize s).outLen = s.outLen := rfl
@[simp] theorem invalidate_deserialize_outLen : (invalidate .deserialize s).outLen = s.outLen := rfl
@[simp] theorem invalidate_encode_outLen : (invalidate .encode s).outLen = s.outLen := rfl
@[simp] theorem invalidate_decode_outLen : (invalidate .decode s).outLen = 0 := rfl
@[simp] theorem invalidate_freq_kindsLen : (invalidate .freq s).kindsLen = s.kindsLen := rfl
@[simp] theorem invalidate_build_kindsLen : (invalidate .build s).kindsLen = s.kindsLen := rfl
@[simp] theorem invalidate_gencode_kindsLen : (invalidate .gencode s).kindsLen = s.kindsLen := rfl
@[simp] theorem invalidate_serialize_kindsLen : (invalidate .serialize s).kindsLen = 0 := rfl
@[simp] theorem invalidate_deserialize_kindsLen : (invalidate .deserialize s).kindsLen = s.kindsLen := rfl
@[simp] theorem invalidate_encode_kindsLen : (invalidate .encode s).kindsLen = s.kindsLen := rfl
@[simp] theorem invalidate_decode_kindsLen : (invalidate .decode s).kindsLen = s.kindsLen := rfl
@[simp] theorem invalidate_freq_valuesLen : (invalidate .freq s).valuesLen = s.valuesLen := rfl
@[simp] theorem invalidate_build_valuesLen : (invalidate .build s).valuesLen = s.valuesLen := rfl
@[simp] theorem invalidate_gencode_valuesLen : (invalidate .gencode s).valuesLen = s.valuesLen := rfl
@[simp] theorem invalidate_serialize_valuesLen : (invalidate .serialize s).valuesLen = 0 := rfl
@[simp] theorem invalidate_deserialize_valuesLen : (invalidate .deserialize s).valuesLen = s.valuesLen := rfl
@[simp] theorem invalidate_encode_valuesLen : (invalidate .encode s).valuesLen = s.valuesLen := rfl
@[simp] theorem invalidate_decode_valuesLen : (invalidate .decode s).valuesLen = s.valuesLen := rfl
@[simp] theorem invalidate_freq_rootWeight : (invalidate .freq s).rootWeight = s.rootWeight := rfl
@[simp] theorem invalidate_build_rootWeight : (invalidate .build s).rootWeight = 0 := rfl
@[simp] theorem invalidate_gencode_rootWeight : (invalidate .gencode s).rootWeight = s.rootWeight := rfl
@[simp] theorem invalidate_serialize_rootWeight : (invalidate .serialize s).rootWeight = s.rootWeight := rfl
@[simp] theorem invalidate_deserialize_rootWeight : (invalidate .deserialize s).rootWeight = 0 := rfl
@[simp] theorem invalidate_encode_rootWeight : (invalidate .encode s).rootWeight = s.rootWeight := rfl
@[simp] theorem invalidate_decode_rootWeight : (invalidate .decode s).rootWeight = s.rootWeight := rfl
@[simp] theorem invalidate_err : (invalidate i s).err = s.err := by cases i <;> rfl
@[simp] theorem invalidate_partialFlag : (invalidate i s).partialFlag = s.partialFlag := by cases i <;> rfl
@[simp] theorem invalidate_errInfo : (invalidate i s).errInfo = s.errInfo := by cases i <;> rfl
@[simp] theorem invalidate_response : (invalidate i s).response = s.response := by cases i <;> rfl
@[simp] theorem invalidate_tick : (invalidate i s).tick = s.tick := by cases i <;> rfl
@[simp] theorem invalidate_pending : (invalidate i s).pending = s.pending := by cases i <;> rfl

@[simp] theorem aborted_err : (aborted i k info s).err = k := rfl
@[simp] theorem aborted_errInfo : (aborted i k info s).errInfo = info := rfl
@[simp] theorem aborted_partialFlag : (aborted i k info s).partialFlag = false := rfl
@[simp] theorem aborted_cfg : (aborted i k info s).cfg = s.cfg := by cases i <;> rfl
@[simp] theorem aborted_tree : (aborted i k info s).tree = (invalidate i s).tree := rfl
@[simp] theorem aborted_freq : (aborted i k info s).freq = (invalidate i s).freq := rfl
@[simp] theorem aborted_code : (aborted i k info s).code = (invalidate i s).code := rfl
@[simp] theorem aborted_kinds : (aborted i k info s).kinds = (invalidate i s).kinds := rfl
@[simp] theorem aborted_values : (aborted i k info s).values = (invalidate i s).values := rfl
@[simp] theorem aborted_inp : (aborted i k info s).inp = s.inp := by cases i <;> rfl
@[simp] theorem aborted_pk : (aborted i k info s).pk = (invalidate i s).pk := rfl
@[simp] theorem aborted_out : (aborted i k info s).out = (invalidate i s).out := rfl
@[simp] theorem aborted_inLen : (aborted i k info s).inLen = s.inLen := by cases i <;> rfl
@[simp] theorem aborted_pkLen : (aborted i k info s).pkLen = (invalidate i s).pkLen := rfl
@[simp] theorem aborted_bitCount : (aborted i k info s).bitCount = (invalidate i s).bitCount := rfl
@[simp] theorem aborted_symCount : (aborted i k info s).symCount = (invalidate i s).symCount := rfl
@[simp] theorem aborted_outLen : (aborted i k info s).outLen = (invalidate i s).outLen := rfl
@[simp] theorem aborted_kindsLen : (aborted i k info s).kindsLen = (invalidate i s).kindsLen := rfl
@[simp] theorem aborted_valuesLen : (aborted i k info s).valuesLen = (invalidate i s).valuesLen := rfl
@[simp] theorem aborted_rootWeight : (aborted i k info s).rootWeight = (invalidate i s).rootWeight := rfl
@[simp] theorem aborted_response : (aborted i k info s).response = s.response := by cases i <;> rfl
@[simp] theorem aborted_tick : (aborted i k info s).tick = s.tick := by cases i <;> rfl
@[simp] theorem aborted_pending : (aborted i k info s).pending = s.pending := by cases i <;> rfl

end

/-- Two states are equal when all their fields are. -/
theorem State.ext_fields {s t : State} (h0 : s.cfg = t.cfg) (h1 : s.tree = t.tree) (h2 : s.freq
    = t.freq) (h3 : s.code = t.code) (h4 : s.kinds = t.kinds) (h5 : s.values = t.values) (h6 : s.inp
    = t.inp) (h7 : s.pk = t.pk) (h8 : s.out = t.out) (h9 : s.inLen = t.inLen) (h10 : s.pkLen =
    t.pkLen) (h11 : s.bitCount = t.bitCount) (h12 : s.symCount = t.symCount) (h13 : s.outLen =
    t.outLen) (h14 : s.kindsLen = t.kindsLen) (h15 : s.valuesLen = t.valuesLen) (h16 : s.rootWeight
    = t.rootWeight) (h17 : s.err = t.err) (h18 : s.partialFlag = t.partialFlag) (h19 : s.errInfo =
    t.errInfo) (h20 : s.response = t.response) (h21 : s.tick = t.tick) (h22 : s.pending = t.pending) :
    s = t := by
  cases s; cases t; simp_all

end Sys2Proof.Machine
end

