-- ==== Sys2Proof/Laws/Ops.lean ====
section
/-! SUPPORT. What each operation and each transaction can do, once: provers cite these and do not unfold
the operation. -/

namespace Sys2Proof.Machine

/-! ## The operations -/

/-- FREQ aborts on its capacity or writes the counts of its input. -/
theorem execFreq_cases (s : State) :
    (s.cfg.inCap.toNat < s.inLen.toNat ∧
      execFreq s = .next (aborted .freq .capacityExceeded 0 s)) ∨
    (s.inLen.toNat ≤ s.cfg.inCap.toNat ∧
      execFreq s = .next (report .noError 0 false (writeFreq (countBytes s.input) s))) := by
  unfold execFreq raise complete
  split
  · exact .inl ⟨‹_›, rfl⟩
  · exact .inr ⟨by omega, rfl⟩

/-- BUILD aborts on an empty alphabet or writes the tree and the weight of the root entry. -/
theorem execBuild_cases (s : State) :
    (buildRoot s.cfg.tiebreak s.freq = none ∧
      execBuild s = .next (aborted .build .emptyAlphabet 0 s)) ∨
    (∃ r, buildRoot s.cfg.tiebreak s.freq = some r ∧
      execBuild s =
        .next (report .noError 0 false (writeTree r.tree (BitVec.ofNat 40 r.weight) s))) := by
  unfold execBuild raise complete
  split
  · exact .inl ⟨‹_›, rfl⟩
  · exact .inr ⟨_, ‹_›, rfl⟩

/-- GENCODE aborts without a tree or writes the tree's code table. -/
theorem execGencode_cases (s : State) :
    (s.tree = none ∧ execGencode s = .next (aborted .gencode .noOperand 0 s)) ∨
    (∃ t, s.tree = some t ∧
      execGencode s = .next (report .noError 0 false (writeCode (codeTable t) s))) := by
  unfold execGencode raise complete
  split
  · exact .inl ⟨‹_›, rfl⟩
  · exact .inr ⟨_, ‹_›, rfl⟩

/-- SERIALIZE aborts without a tree or writes the tree's pair. -/
theorem execSerialize_cases (s : State) :
    (s.tree = none ∧ execSerialize s = .next (aborted .serialize .noOperand 0 s)) ∨
    (∃ t, s.tree = some t ∧
      execSerialize s =
        .next (report .noError 0 false (writePair (serializeTree t).1 (serializeTree t).2 s))) := by
  unfold execSerialize raise complete
  split
  · exact .inl ⟨‹_›, rfl⟩
  · exact .inr ⟨_, ‹_›, rfl⟩

/-- DESERIALIZE aborts on a capacity, aborts on a sub-cause, or writes the pair's tree. -/
theorem execDeserialize_cases (s : State) :
    ((kindsCap < s.kindsLen.toNat ∨ valuesCap < s.valuesLen.toNat) ∧
      execDeserialize s = .next (aborted .deserialize .capacityExceeded 0 s)) ∨
    (s.kindsLen.toNat ≤ kindsCap ∧ s.valuesLen.toNat ≤ valuesCap ∧
      ((∃ c, deserializePair s.kindsIn s.valuesIn = .error c ∧
        execDeserialize s = .next (aborted .deserialize .malformedSerialization c.toCode s)) ∨
      (∃ t, deserializePair s.kindsIn s.valuesIn = .ok t ∧
        execDeserialize s = .next (report .noError 0 false (writeTree t 0 s))))) := by
  unfold execDeserialize raise complete
  split
  · exact .inl ⟨‹_›, rfl⟩
  · refine .inr ⟨by omega, by omega, ?_⟩
    split
    · exact .inl ⟨_, ‹_›, rfl⟩
    · exact .inr ⟨_, ‹_›, rfl⟩

/-- ENCODE aborts without a table, on its input capacity, or at a byte; or writes the packed bits. -/
theorem execEncode_cases (s : State) :
    (s.code = none ∧ execEncode s = .next (aborted .encode .noOperand 0 s)) ∨
    (∃ m, s.code = some m ∧
      ((s.cfg.inCap.toNat < s.inLen.toNat ∧
        execEncode s = .next (aborted .encode .capacityExceeded 0 s)) ∨
      (s.inLen.toNat ≤ s.cfg.inCap.toNat ∧
        ((∃ e, encodeBytes m (8 * s.cfg.pkCap.toNat) 0 0 s.input = .error e ∧
          execEncode s = .next (aborted .encode e.1 e.2 s)) ∨
        (∃ bits, encodeBytes m (8 * s.cfg.pkCap.toNat) 0 0 s.input = .ok bits ∧
          execEncode s = .next (report .noError 0 false (writePacked bits s))))))) := by
  unfold execEncode raise complete
  split
  · exact .inl ⟨‹_›, rfl⟩
  · refine .inr ⟨_, ‹_›, ?_⟩
    split
    · exact .inl ⟨‹_›, rfl⟩
    · refine .inr ⟨by omega, ?_⟩
      split
      · exact .inl ⟨_, ‹_›, rfl⟩
      · exact .inr ⟨_, ‹_›, rfl⟩

/-- DECODE's leading checks, in order, and its two cases. -/
theorem execDecode_cases (s : State) :
    (s.tree = none ∧ execDecode s = .next (aborted .decode .noOperand 0 s)) ∨
    (∃ t, s.tree = some t ∧
      ((s.cfg.pkCap.toNat < s.pkLen.toNat ∧
        execDecode s = .next (aborted .decode .capacityExceeded 0 s)) ∨
      (s.pkLen.toNat ≤ s.cfg.pkCap.toNat ∧ 8 * s.pkLen.toNat < s.bitCount.toNat ∧
        execDecode s = .next (aborted .decode .truncatedBitstream 0 s)) ∨
      (s.pkLen.toNat ≤ s.cfg.pkCap.toNat ∧ s.bitCount.toNat ≤ 8 * s.pkLen.toNat ∧
        ((∃ sym, t = .leaf sym ∧
          ((s.cfg.outCap.toNat < s.symCount.toNat ∧
            execDecode s = .next (aborted .decode .capacityExceeded 0 s)) ∨
          (s.symCount.toNat ≤ s.cfg.outCap.toNat ∧
            execDecode s = .next (report .noError 0 false
              (writeOut (List.replicate s.symCount.toNat sym) s))))) ∨
        (∃ l r, t = .node l r ∧
          ((decodeWalk t s.cfg.outCap.toNat t false 0 s.bitsIn = none ∧
            execDecode s = .next (aborted .decode .capacityExceeded 0 s)) ∨
          (∃ o, decodeWalk t s.cfg.outCap.toNat t false 0 s.bitsIn = some o ∧
            execDecode s = .next (report .noError 0 o.2 (writeOut o.1 s))))))))) := by
  unfold execDecode raise complete
  cases ht : s.tree with
  | none => exact .inl ⟨rfl, rfl⟩
  | some t =>
    refine .inr ⟨t, rfl, ?_⟩
    simp only []
    by_cases h1 : s.cfg.pkCap.toNat < s.pkLen.toNat
    · exact .inl ⟨h1, by rw [if_pos h1]⟩
    rw [if_neg h1]
    by_cases h2 : 8 * s.pkLen.toNat < s.bitCount.toNat
    · exact .inr (.inl ⟨by omega, h2, by rw [if_pos h2]⟩)
    rw [if_neg h2]
    refine .inr (.inr ⟨by omega, by omega, ?_⟩)
    cases t with
    | leaf sym =>
      refine .inl ⟨sym, rfl, ?_⟩
      by_cases h3 : s.cfg.outCap.toNat < s.symCount.toNat
      · exact .inl ⟨h3, by simp only [if_pos h3]⟩
      · exact .inr ⟨by omega, by simp only [if_neg h3]⟩
    | node l r =>
      refine .inr ⟨l, r, rfl, ?_⟩
      simp only []
      split
      · exact .inl ⟨‹_›, rfl⟩
      · exact .inr ⟨_, ‹_›, rfl⟩

/-! ## Commands and transactions -/

/-- A command is illegal, or runs the operation its word decodes to. -/
theorem runCommand_cases (w : Word) (s : State) :
    (∃ why, decode w = .rejected why ∧ runCommand w s = .next (respond .ok (illegal s))) ∨
    (∃ i, decode w = .ok i ∧ ∀ t, exec i s = .next t → runCommand w s = .next (respond .ok t)) := by
  unfold runCommand
  split
  · exact .inl ⟨_, ‹_›, rfl⟩
  · exact .inr ⟨_, ‹_›, fun t h => by rw [h]⟩

/-- A write that is no command gives the state and the result of `hostWrite`. -/
theorem serve_write {space : BitVec 4} {i v : Word} (h : isCommand space i = false) (s : State) :
    serve (.write space i v) s
      = .next (respond (hostWrite space i v s).2 (hostWrite space i v s).1) := by
  simp [serve, h]

theorem serve_command (w : Word) (s : State) : serve (.write 0 0 w) s = runCommand w s := rfl

theorem serve_read (space : BitVec 4) (i : Word) (s : State) :
    serve (.read space i) s = .next (respond (hostRead space i s) s) := rfl

theorem serve_reset (s : State) : serve .reset s = .next (resetInput s) := rfl

/-- A write that is no command either faults and changes nothing, or writes through `writeSpace`. -/
theorem hostWrite_cases (space : BitVec 4) (i v : Word) (s : State) :
    (hostWrite space i v s = (s, .fault)) ∨
    (∃ sp t, spaceAt space = some sp ∧ writeSpace sp i v s = some t ∧
      hostWrite space i v s = (t, .ok)) := by
  unfold hostWrite
  split
  · exact .inl rfl
  · split
    · exact .inr ⟨_, _, ‹_›, ‹_›, rfl⟩
    · exact .inl rfl

@[simp] theorem step_idle (s : State) (h : s.pending = []) : step s = .next s := by
  simp [step, serveNext, h]

theorem step_pending {s : State} {x : Transaction} {rest : List Transaction}
    (h : s.pending = x :: rest) : step s = serve x { s with pending := rest } := by
  simp [step, serveNext, h]

@[simp] theorem report_pending_eq (k : ErrKind) (info : Word) (p : Bool) (s : State)
    (rest : List Transaction) :
    report k info p { s with pending := rest } = { report k info p s with pending := rest } := rfl

/-! ## The status register -/

theorem status_err (s : State) : s.status.extractLsb' 0 4 = s.err.toCode := by
  unfold State.status
  cases s.partialFlag <;> cases s.single <;> cases s.cv <;> cases s.tv <;> cases s.err <;> decide

/-! ## The live cells -/

@[simp] theorem liveBytes_length (m : Memory Byte) (tick n : Nat) :
    (liveBytes m tick n).length = n := by simp [liveBytes]

@[simp] theorem liveKinds_length (m : Memory NodeKind) (tick n : Nat) :
    (liveKinds m tick n).length = n := by simp [liveKinds]

@[simp] theorem liveBits_length (m : Memory Byte) (tick n : Nat) :
    (liveBits m tick n).length = n := by simp [liveBits]

theorem liveBytes_getElem? (m : Memory Byte) (tick n i : Nat) :
    (liveBytes m tick n)[i]? =
      if i < n then some ((m.read i).getD (Config.freeByte tick i)) else none := by
  simp only [liveBytes, List.getElem?_map]
  by_cases h : i < n <;> simp [h]

/-- Where every live cell is written, no free value is read. -/
theorem liveBytes_written {m : Memory Byte} {n : Nat} (h : m.writtenBelow n = true)
    (tick tick' : Nat) : liveBytes m tick n = liveBytes m tick' n := by
  refine List.map_congr_left fun i hi => ?_
  obtain ⟨v, hv⟩ := Memory.writtenBelow_iff.1 h i (List.mem_range.1 hi)
  simp [hv]

theorem liveKinds_written {m : Memory NodeKind} {n : Nat} (h : m.writtenBelow n = true)
    (tick tick' : Nat) : liveKinds m tick n = liveKinds m tick' n := by
  refine List.map_congr_left fun i hi => ?_
  obtain ⟨v, hv⟩ := Memory.writtenBelow_iff.1 h i (List.mem_range.1 hi)
  simp [hv]

theorem liveBits_written {m : Memory Byte} {n : Nat} (h : m.writtenBelow ((n + 7) / 8) = true)
    (tick tick' : Nat) : liveBits m tick n = liveBits m tick' n := by
  refine List.map_congr_left fun i hi => ?_
  have hi' := List.mem_range.1 hi
  obtain ⟨v, hv⟩ := Memory.writtenBelow_iff.1 h (i / 8) (by omega)
  simp [hv]

/-- Filling a buffer and reading the filled cells gives the values back. -/
theorem liveBytes_fill (m : Memory Byte) (vs : List Byte) (tick : Nat) :
    liveBytes (m.fill vs) tick vs.length = vs := by
  refine List.ext_getElem? fun i => ?_
  rw [liveBytes_getElem?, Memory.read_fill]
  by_cases h : i < vs.length
  · simp [h]
  · simp [h]

theorem liveKinds_fill (m : Memory NodeKind) (vs : List NodeKind) (tick : Nat) :
    liveKinds (m.fill vs) tick vs.length = vs := by
  refine List.ext_getElem? fun i => ?_
  simp only [liveKinds, List.getElem?_map]
  by_cases h : i < vs.length
  · simp [h, Memory.read_fill]
  · simp [h]

end Sys2Proof.Machine
end

