-- ==== Sys2Proof/Laws/Trees.lean ====
section
/-! SUPPORT. Counting and walking lemmas about trees, the merge and packing. -/

namespace Sys2Proof.Machine

theorem HuffTree.leafCount_pos (t : HuffTree) : 1 ≤ t.leafCount := by
  induction t with
  | leaf s => exact Nat.le_refl 1
  | node l r ihl ihr => simp only [HuffTree.leafCount]; omega

/-- "a tree with `n` leaves has `n - 1` internal nodes and `2n - 1` nodes in all" (R24). -/
theorem HuffTree.size_eq (t : HuffTree) : t.size = 2 * t.leafCount - 1 := by
  induction t with
  | leaf s => rfl
  | node l r ihl ihr =>
    have := l.leafCount_pos
    have := r.leafCount_pos
    simp only [HuffTree.size, HuffTree.leafCount]
    omega

@[simp] theorem HuffTree.leaves_length (t : HuffTree) : t.leaves.length = t.leafCount := by
  induction t with
  | leaf s => rfl
  | node l r ihl ihr => simp [HuffTree.leaves, HuffTree.leafCount, ihl, ihr]

/-- A walk meets the leaves left to right. -/
@[simp] theorem HuffTree.walk_symbols (t : HuffTree) (p : Code) :
    (t.walk p).map Prod.fst = t.leaves := by
  induction t generalizing p with
  | leaf s => rfl
  | node l r ihl ihr => simp [HuffTree.walk, HuffTree.leaves, ihl, ihr]

/-- A walk prefixes every path with the path it starts with. -/
theorem HuffTree.walk_prefix (t : HuffTree) (p : Code) :
    t.walk p = (t.walk []).map fun e => (e.1, p ++ e.2) := by
  induction t generalizing p with
  | leaf s => simp [HuffTree.walk]
  | node l r ihl ihr =>
    simp only [HuffTree.walk, List.nil_append, List.map_append]
    rw [ihl (p ++ [false]), ihr (p ++ [true]), ihl [false], ihr [true]]
    simp [Function.comp_def]

@[simp] theorem HuffTree.follow_nil (t : HuffTree) : t.follow [] = some t := by
  cases t <;> rfl

@[simp] theorem HuffTree.follow_node (l r : HuffTree) (b : Bool) (bs : Code) :
    (HuffTree.node l r).follow (b :: bs) = (if b then r else l).follow bs := rfl

@[simp] theorem HuffTree.follow_leaf (s : Sym8) (b : Bool) (bs : Code) :
    (HuffTree.leaf s).follow (b :: bs) = none := rfl

/-- Following two bit strings one after the other. -/
theorem HuffTree.follow_append (t : HuffTree) (p q : Code) :
    t.follow (p ++ q) = (t.follow p).bind fun u => u.follow q := by
  induction p generalizing t with
  | nil => simp
  | cons b p ih =>
    cases t with
    | leaf s => simp
    | node l r => simp [ih]

/-- Every path of a walk leads to its leaf. -/
theorem HuffTree.follow_of_mem_walk {t : HuffTree} {s : Sym8} {c : Code} (h : (s, c) ∈ t.walk []) :
    t.follow c = some (.leaf s) := by
  induction t generalizing s c with
  | leaf u =>
    simp only [HuffTree.walk, List.mem_singleton, Prod.mk.injEq] at h
    obtain ⟨rfl, rfl⟩ := h
    rfl
  | node l r ihl ihr =>
    simp only [HuffTree.walk, List.nil_append, List.mem_append] at h
    rw [l.walk_prefix, r.walk_prefix] at h
    rcases h with h | h
    · obtain ⟨e, he, heq⟩ := List.mem_map.1 h
      obtain ⟨rfl, rfl⟩ := Prod.mk.injEq .. ▸ heq
      simpa using ihl he
    · obtain ⟨e, he, heq⟩ := List.mem_map.1 h
      obtain ⟨rfl, rfl⟩ := Prod.mk.injEq .. ▸ heq
      simpa using ihr he

/-! ## The code table -/

/-- A later leaf's path replaces an earlier one's (R145). -/
theorem codeOf_tableOf (w : List (Sym8 × Code)) (s : Sym8) :
    codeOf (tableOf w) s = (w.reverse.find? fun e => e.1 = s).map Prod.snd := by
  suffices h : ∀ (w : List (Sym8 × Code)) (m : Memory Code),
      codeOf (w.foldl (fun m e => m.write e.1.toNat e.2) m) s
        = ((w.reverse.find? fun e => e.1 = s).map Prod.snd).or (codeOf m s) by
    simpa [tableOf, codeOf] using h w []
  intro w
  induction w with
  | nil => intro m; simp
  | cons e w ih =>
    intro m
    rw [List.foldl_cons, ih, List.reverse_cons, List.find?_append]
    cases hf : w.reverse.find? fun e => e.1 = s with
    | some x => simp
    | none =>
      by_cases he : e.1 = s
      · simp [he, codeOf]
      · have : s.toNat ≠ e.1.toNat := fun h => he (BitVec.eq_of_toNat_eq h.symm)
        simp [he, codeOf, Memory.read_write_ne _ _ this]

/-! ## The merge -/

theorem leastEntries_ne_nil {pq : List PqEntry} (h : pq ≠ []) : leastEntries pq ≠ [] := by
  intro hc
  cases hm : (pq.map PqEntry.weight).min? with
  | none => simp [h] at hm
  | some w =>
    have hw := List.min?_mem hm
    obtain ⟨e, he, rfl⟩ := List.mem_map.1 hw
    have := (List.filter_eq_nil_iff.1 hc) e he
    simp [leastWeight, hm] at this

/-- `remove_min` fails on the empty structure alone. -/
theorem removeMin_eq_none {choice : Nat} {pq : List PqEntry} : removeMin choice pq = none ↔ pq = [] := by
  constructor
  · intro h
    by_contra hne
    unfold removeMin at h
    split at h
    · exact leastEntries_ne_nil hne ‹_›
    · cases h
  · rintro rfl; rfl

/-- `remove_min` returns an entry whose weight is the least present, and what remains. -/
theorem removeMin_some {choice : Nat} {pq rest : List PqEntry} {e : PqEntry}
    (h : removeMin choice pq = some (e, rest)) : isLeast e pq ∧ rest = pq.erase e := by
  unfold removeMin at h
  split at h
  · cases h
  · rename_i a as hl
    simp only [Option.some.injEq, Prod.mk.injEq] at h
    obtain ⟨rfl, rfl⟩ := h
    refine ⟨?_, rfl⟩
    have hlt : choice % (as.length + 1) < (a :: as).length := by
      simpa using Nat.mod_lt choice (Nat.succ_pos as.length)
    have hmem : (a :: as).getD (choice % (as.length + 1)) a ∈ leastEntries pq := by
      rw [hl, List.getD_eq_getElem _ _ hlt]
      exact List.getElem_mem hlt
    rw [leastEntries, List.mem_filter, decide_eq_true_eq] at hmem
    refine ⟨hmem.1, fun x hx => ?_⟩
    rw [hmem.2, leastWeight]
    cases hm : (pq.map PqEntry.weight).min? with
    | none => simp
    | some w =>
      exact (List.min?_eq_some_iff.1 hm).2 x.weight (List.mem_map_of_mem hx)

/-! ## Packing -/

theorem padBits_length (bits : List Bool) :
    (padBits bits).length = 8 * ((bits.length + 7) / 8) := by
  simp only [padBits, List.length_append, List.length_replicate]
  omega

@[simp] theorem packBytes_length (bits : List Bool) :
    (packBytes bits).length = bits.length / 8 := by simp [packBytes]

end Sys2Proof.Machine
end

