-- ==== Sys2Proof/Laws/PerInstr.lean ====
section
/-! SUPPORT. The per-instruction family: an instruction's word has its reserved field zero, the opcode
of the map, and is legal (spec/30_encoding.md R91, R92, R94). -/

namespace Sys2Proof.Laws.EncodingFits

def Statement (i : Instr) : Prop :=
  i.wf = true ∧ rsvField (encode i) = 0 ∧ opField (encode i) = opcodeOf i ∧
    commandWordWf (encode i) = true

theorem freq : Statement .freq := by unfold Statement; decide
theorem build : Statement .build := by unfold Statement; decide
theorem gencode : Statement .gencode := by unfold Statement; decide
theorem serialize : Statement .serialize := by unfold Statement; decide
theorem deserialize : Statement .deserialize := by unfold Statement; decide
theorem encode : Statement .encode := by unfold Statement; decide
theorem decode : Statement .decode := by unfold Statement; decide

end Sys2Proof.Laws.EncodingFits
end

