-- ==== Sys2Proof/Tests/Slice0.lean ====
section
/-! SUPPORT. The model's own tests. Every expected value is from spec/: the words are written out bit by
bit from the format of spec/30_encoding.md R91 and the opcode map R92, the results are the vectors of
spec/95_test_vectors.md (each named by its id). -/

namespace Sys2Proof.Tests

open Sys2Proof Sys2Proof.Machine

/-! ## Helpers -/

/-- The state after an instruction, the same state if it stopped. -/
def after (i : Instr) (s : State) : State :=
  match exec i s with
  | .next t => t
  | .fault _ => s
  | .refused _ => s

/-- The state after a transaction. -/
def served (x : Transaction) (s : State) : State :=
  match serve x s with
  | .next t => t
  | .fault _ => s
  | .refused _ => s

/-- The state after one step. -/
def stepped (s : State) : State :=
  match step s with
  | .next t => t
  | .fault _ => s
  | .refused _ => s

/-- Cells 0, 1, … holding bytes. -/
def bytes (bs : List Byte) : Memory Byte := Memory.number 0 bs

/-- The reset state with the given bytes in `IN` and their number in `IN_LEN`. -/
def withInput (bs : List Byte) (s : State) : State :=
  { s with inp := bytes bs, inLen := BitVec.ofNat 32 bs.length }

/-- The reset state with a pair in `KINDS` and `VALUES`; `true` is `INTERNAL`. -/
def withPair (ks : List Bool) (vs : List Byte) (s : State) : State :=
  { s with
    kinds := Memory.number 0 (ks.map fun b => if b then .internal else .leaf)
    kindsLen := BitVec.ofNat 32 ks.length
    values := bytes vs
    valuesLen := BitVec.ofNat 32 vs.length }

/-- A packed payload. -/
def withPacked (bs : List Byte) (bits : Nat) (s : State) : State :=
  { s with pk := bytes bs, pkLen := BitVec.ofNat 32 bs.length, bitCount := BitVec.ofNat 32 bits }

/-- The tree of spec/41_tree_builder.md R132. -/
def tree132 : HuffTree :=
  .node (.node (.leaf 0x63) (.leaf 0x66)) (.node (.node (.leaf 0x62) (.leaf 0x61)) (.leaf 0x65))

/-! ## Decoding: `RSV` in bits 31:4, `OP` in bits 3:0 (R91, R92) -/

theorem test_decode_freq : decode 0b0000000000000000000000000000_0001 = .ok .freq := by decide
theorem test_decode_build : decode 0b0000000000000000000000000000_0010 = .ok .build := by decide
theorem test_decode_gencode : decode 0b0000000000000000000000000000_0011 = .ok .gencode := by decide
theorem test_decode_serialize :
    decode 0b0000000000000000000000000000_0100 = .ok .serialize := by decide
theorem test_decode_deserialize :
    decode 0b0000000000000000000000000000_0101 = .ok .deserialize := by decide
theorem test_decode_encode : decode 0b0000000000000000000000000000_0110 = .ok .encode := by decide
theorem test_decode_decode : decode 0b0000000000000000000000000000_0111 = .ok .decode := by decide

/-- V-C1 and V-C2: the unassigned opcodes. -/
theorem test_decode_unassigned :
    ([0x0, 0x8, 0x9, 0xA, 0xB, 0xC, 0xD, 0xE, 0xF] : List Word).all
      (fun w => decode w = .rejected .unassignedOpcode) = true := by decide

/-- V-C3 and V-C4: a reserved bit set. -/
theorem test_decode_reserved :
    decode 0x00000012 = .rejected .reservedField ∧ decode 0x80000001 = .rejected .reservedField := by
  decide

/-- The host's view: the row's bits as a number. -/
theorem test_decodeTableWord :
    decodeTableWord 32 5 = some .deserialize ∧ decodeTableWord 32 0 = none ∧
      decodeTableWord 8 7 = some .decode := by decide

/-! ## Well-formedness: one ill-formed term for each check -/

theorem test_rsvZero_refuses : rsvZero 0x00000012 = false := by decide
theorem test_opAssigned_refuses_zero : opAssigned 0x00000000 = false := by decide
theorem test_opAssigned_refuses_eight : opAssigned 0x00000008 = false := by decide
theorem test_commandWordWf_refuses :
    commandWordWf 0x80000001 = false ∧ commandWordWf 0x0000000F = false := by decide
theorem test_commandWordWf_accepts : commandWordWf (encode .decode) = true := by decide
/-- An instruction has no operand, so no ill-formed instruction exists (R93). -/
theorem test_instr_wf (i : Instr) : i.wf = true := by cases i <;> rfl
theorem test_config_refuses_inCap : Config.wf ⟨0, 1, 1, .reference⟩ = false := by decide
theorem test_config_refuses_pkCap :
    Config.wf ⟨1, 0, 1, .reference⟩ = false ∧
      Config.wf ⟨1, 0x20000000, 1, .reference⟩ = false := by decide
theorem test_config_refuses_outCap : Config.wf ⟨1, 1, 0, .reference⟩ = false := by decide
theorem test_config_default : Config.default.wf = true := by decide
theorem test_memory_refuses_disorder :
    Memory.wf 4 [(1, 0#8), (0, 0#8)] = false ∧ Memory.wf 4 [(4, 0#8)] = false := by decide
theorem test_freq_refuses_zero : freqWf [(3, 0)] = false := by decide

/-! ## FREQ -/

/-- V-F3: symbols 0x00 and 0xFF, and a symbol that no longer occurs. -/
theorem test_freq_counts :
    (after .freq (withInput [0x00, 0x00, 0x00, 0x01, 0x00, 0xFF, 0xFF]
      { State.reset with freq := [(0x10, 7)] })).freq = [(0x00, 4), (0x01, 1), (0xFF, 2)] := by
  decide +kernel

/-- V-F4: one byte more than the buffer. -/
theorem test_freq_capacity :
    let t := after .freq { State.reset with freq := [(0x10, 7)], inLen := 65537 }
    t.err = .capacityExceeded ∧ t.freq = [] := by decide +kernel

/-! ## BUILD -/

/-- V-B1, spec/41_tree_builder.md R132: the worked example. -/
theorem test_build_example :
    let t := after .build
      { State.reset with freq := [(0x61, 2), (0x62, 1), (0x63, 2), (0x65, 4), (0x66, 3)] }
    t.tree = some tree132 ∧ t.rootWeight = 12 := by decide +kernel

/-- V-B10, R131: two full counts; the 40-bit sum. -/
theorem test_build_full_counts :
    let t := after .build { State.reset with freq := [(0x00, 0xFFFFFFFF), (0xFF, 0xFFFFFFFF)] }
    t.tree = some (.node (.leaf 0x00) (.leaf 0xFF)) ∧ t.rootWeight = 0x1FFFFFFFE := by
  decide +kernel

/-! ## GENCODE -/

/-- V-G1: `a` = "101" and `f` = "01" as the host reads them. -/
theorem test_gencode_codes :
    let t := after .gencode { State.reset with tree := some tree132 }
    hostRead 7 0x61 t = .value 0x103 ∧ hostRead 8 0x308 t = .value 0xA0000000 ∧
      hostRead 8 0x330 t = .value 0x40000000 ∧ hostRead 7 0x64 t = .value 0 := by decide +kernel

/-- V-G8: of a repeated symbol the last leaf's path. -/
theorem test_gencode_repeated :
    let t := after .gencode
      { State.reset with tree := some (.node (.leaf 0x41) (.node (.leaf 0x41) (.leaf 0x42))) }
    hostRead 7 0x41 t = .value 0x102 ∧ hostRead 8 0x208 t = .value 0x80000000 := by decide +kernel

/-! ## SERIALIZE -/

/-- V-S1. -/
theorem test_serialize_example :
    let t := after .serialize { State.reset with tree := some tree132 }
    t.kinds.map Prod.snd = [.internal, .internal, .internal, .leaf, .leaf, .internal, .leaf, .leaf, .leaf]
      ∧ t.values = bytes [0x63, 0x66, 0x65, 0x62, 0x61] ∧ t.kindsLen = 9 ∧ t.valuesLen = 5 := by
  decide +kernel

/-- V-S2. -/
theorem test_serialize_leaf :
    let t := after .serialize { State.reset with tree := some (.leaf 0x78) }
    t.kinds = [(0, .leaf)] ∧ t.values = bytes [0x78] ∧ t.kindsLen = 1 ∧ t.valuesLen = 1 := by
  decide +kernel

/-! ## DESERIALIZE -/

/-- V-X13: level order, not depth first. -/
theorem test_deserialize_level_order :
    (after .deserialize
      (withPair [true, true, false, false, false] [0x01, 0x02, 0x03] State.reset)).tree
      = some (.node (.node (.leaf 0x02) (.leaf 0x03)) (.leaf 0x01)) := by decide +kernel

/-- V-X8b: sub-cause 3 is tested before 2. -/
theorem test_deserialize_subcause :
    let t := after .deserialize
      (withPair [false, false] [0x01] { State.reset with tree := some (.leaf 1), rootWeight := 3 })
    t.err = .malformedSerialization ∧ t.errInfo = 3 ∧ t.tree = none ∧ t.rootWeight = 0 := by
  decide +kernel

/-! ## ENCODE -/

/-- V-E13. -/
theorem test_encode_bytes :
    let t := after .encode (withInput [0x00, 0x00, 0x00, 0x01, 0x00, 0xFF, 0xFF]
      { State.reset with
        code := some (codeTable (.node (.node (.leaf 0x01) (.leaf 0xFF)) (.leaf 0x00))) })
    t.pk = bytes [0xE5, 0x40] ∧ t.pkLen = 2 ∧ t.bitCount = 10 ∧ t.symCount = 7 := by decide +kernel

/-- V-E12: for one byte UnknownSymbol is tested before the capacity. -/
theorem test_encode_unknown_first :
    let t := after .encode (withInput [0x61, 0x62, 0x63, 0x64, 0x7A]
      { State.reset with
        cfg := ⟨65536, 1, 65536, .reference⟩
        code := some (codeTable
          (.node (.node (.leaf 0x61) (.leaf 0x62)) (.node (.leaf 0x63) (.leaf 0x64)))) })
    t.err = .unknownSymbol ∧ t.errInfo = 4 ∧ t.pkLen = 0 := by decide +kernel

/-! ## DECODE -/

/-- V-D10: the walk ends inside a code; `STATUS` is 0x90. -/
theorem test_decode_partial :
    let t := after .decode (withPacked [0xB6] 8 { State.reset with tree := some tree132 })
    t.out = bytes [0x61, 0x61] ∧ t.outLen = 2 ∧ t.status = 0x90 := by decide +kernel

/-- V-D7: in the degenerate case the bits are ignored. -/
theorem test_decode_leaf :
    let t := after .decode
      (withPacked [0xFF] 5 { State.reset with tree := some (.leaf 0x78), symCount := 2 })
    t.out = bytes [0x78, 0x78] ∧ t.outLen = 2 ∧ t.partialFlag = false := by decide +kernel

/-! ## The host port, reset and the fetch of a command -/

/-- V-C1: the all-zero word. -/
theorem test_illegal_command :
    let t := served (.write 0 0 0) { State.reset with inLen := 9, errInfo := 4 }
    t.status = 7 ∧ t.errInfo = 0 ∧ t.inLen = 9 ∧ t.response = some .ok := by decide

/-- V-H1, V-H3, V-H10, V-H12: reads that fault. -/
theorem test_read_faults :
    hostRead 0 0x00 State.reset = .fault ∧ hostRead 0 0x0F State.reset = .fault ∧
      hostRead 9 0 State.reset = .fault ∧ hostRead 2 256 State.reset = .fault ∧
      hostRead 1 65536 State.reset = .fault := by decide

/-- V-H2, V-H5, V-H6, V-H7: writes that fault. -/
theorem test_write_faults :
    ([.write 0 0x07 1, .write 0 0x0C 1, .write 1 0 0x100, .write 3 0 2, .write 3 511 0,
      .write 6 0 0, .write 8 0 0] : List Transaction).all
      (fun x => (served x State.reset).response = some .fault) = true := by decide

/-- V-H4: a length register stores all 32 bits. -/
theorem test_write_inLen :
    hostRead 0 0x03 (served (.write 0 0x03 0xFFFFFFFF) State.reset) = .value 0xFFFFFFFF := by decide

/-- V-H13: the two halves of `ROOT_WEIGHT`. -/
theorem test_read_rootWeight :
    hostRead 0 0x0A { State.reset with rootWeight := 0x1FFFFFFFE } = .value 0xFFFFFFFE ∧
      hostRead 0 0x0B { State.reset with rootWeight := 0x1FFFFFFFE } = .value 0x00000001 := by
  decide

/-- V-R1, V-R2: the registers after reset. -/
theorem test_reset_registers :
    (List.range 11).all (fun n => hostRead 0 (BitVec.ofNat 32 (n + 1)) State.reset = .value 0) = true
      ∧ hostRead 0 0x0D State.reset = .value 65536 := by decide

/-- The memories of the reset state are in canonical form. -/
theorem test_reset_memory_wf :
    State.reset.inp.wf 65536 = true ∧ State.reset.pk.wf 65536 = true ∧
      State.reset.out.wf 65536 = true ∧ State.reset.kinds.wf kindsCap = true ∧
      State.reset.values.wf valuesCap = true ∧ freqWf State.reset.freq = true := by decide

/-- The reset input keeps the parameters and clears the rest (spec/70_reset_and_hazards.md R240). -/
theorem test_reset_input :
    let t := served .reset { State.reset with cfg := ⟨1, 2, 3, .other 5⟩, inLen := 7, err := .noOperand }
    t.cfg = ⟨1, 2, 3, .other 5⟩ ∧ t.inLen = 0 ∧ t.status = 0 := by decide

/-- The very next step runs the fetched command: BUILD on the reset state (V-R4). -/
theorem test_fetch_runs : (stepped (State.reset.withFetchWord 32 2)).err = .emptyAlphabet := by
  decide +kernel

/-- `LOAD IN, [0x61, 0x62]` stands for two buffer writes (spec/30_encoding.md R99). -/
theorem test_script_load :
    (ScriptLine.load .inp [0x61, 0x62]).expand = [.write 1 0 0x61, .write 1 1 0x62] := by decide

/-- The pseudo-instruction stops at the first error (R100): EXPAND on the reset state (V-R6). -/
theorem test_pseudo_stops :
    (match runPseudo expandCommands State.reset with
      | .next t => decide (t.err = .malformedSerialization ∧ t.errInfo = 1)
      | .fault _ => false
      | .refused _ => false) = true := by decide +kernel

end Sys2Proof.Tests
end

