-- ==== Sys2Proof/Tests/Witness.lean ====
section
/-! SUPPORT. For every statement of Certificates/Slice0/Obligations.lean that has hypotheses, a concrete
state and operands that meet them all together, at the boundary values of each clause. A theorem
`witness_X` belongs to the statement `X`. -/

namespace Sys2Proof.Tests

open Sys2Proof Sys2Proof.Machine

/-! ## One small state on which every command succeeds -/

/-- The tree of the mapping 0x61 ↦ 2, 0x62 ↦ 1 (V-B4 with other counts): 0x62 left, 0x61 right. -/
def smallTree : HuffTree := .node (.leaf 0x62) (.leaf 0x61)

/-- The input 0x61 0x62 0x61 with its mapping, tree, table, pair and payload "101". -/
def small : State :=
  { withInput [0x61, 0x62, 0x61]
      (withPair [true, false, false] [0x62, 0x61] (withPacked [0xA0] 3 State.reset)) with
    freq := [(0x61, 2), (0x62, 1)]
    tree := some smallTree
    rootWeight := 3
    code := some (codeTable smallTree)
    symCount := 3 }

theorem small_sound : Sound small where
  cfg := by decide
  tree := by
    rintro u ⟨⟩
    decide
  freq := by decide
  code := by
    rintro m ⟨⟩
    decide
  kinds := by decide
  values := by decide
  inp := by decide
  pk := by decide
  out := by decide
  outLen := by decide
  outWritten := by decide
  rootWeight := by rintro ⟨⟩

theorem small_freq : exec .freq small = .next (after .freq small) := rfl
theorem small_build : exec .build small = .next (after .build small) := rfl
theorem small_gencode : exec .gencode small = .next (after .gencode small) := rfl
theorem small_serialize : exec .serialize small = .next (after .serialize small) := rfl
theorem small_deserialize : exec .deserialize small = .next (after .deserialize small) := rfl
theorem small_encode : exec .encode small = .next (after .encode small) := rfl
theorem small_decode : exec .decode small = .next (after .decode small) := rfl

/-- Every command succeeds on the small state. -/
theorem small_succeeds :
    ([.freq, .build, .gencode, .serialize, .deserialize, .encode, .decode] : List Instr).all
      (fun i => (after i small).err = .noError) = true := by decide +kernel

/-- A state on which FREQ aborts; the other six abort on the reset state. -/
def overlong : State := { State.reset with inLen := 65537 }

/-! ## Commands and decoding -/

theorem witness_StepRunsTheDecodedCommand :
    { small with pending := [.write 0 0 1, .reset] }.pending = .write 0 0 1 :: [.reset] ∧
      Sys2Proof.decode 1 = .ok .freq ∧
      exec .freq { { small with pending := [.write 0 0 1, .reset] } with pending := [.reset] }
        = .next (after .freq { small with pending := [.reset] }) ∧
      exec .decode small = .next (after .decode small) ∧
      ({ small with pending := [.read 0 1, .reset] }.pending = .read 0 1 :: [.reset] ∧
        step { small with pending := [.read 0 1, .reset] }
          = .next (stepped { small with pending := [.read 0 1, .reset] })) ∧
      { small with pending := [.write 1 0 7] }.pending = .write 1 0 7 :: [] ∧
      { small with pending := [.reset] }.pending = .reset :: [] ∧ small.pending = [] :=
  ⟨rfl, by decide, rfl, rfl, ⟨rfl, rfl⟩, rfl, rfl, rfl⟩

theorem witness_IllegalWordOnlyReports :
    ([.write 0 0 0, .reset] : List Transaction) = .write 0 0 0 :: [.reset] ∧
      illegalWord 0 ∧ illegalWord 8 ∧ illegalWord 15 ∧ illegalWord 0x11 ∧ illegalWord 0x80000001 := by
  refine ⟨rfl, ?_⟩
  unfold illegalWord
  decide

theorem witness_AbortEmptiesTheOutputsAlone :
    exec .freq overlong = .next (after .freq overlong) ∧
      (after .freq overlong).err ≠ .noError ∧
      exec .build State.reset = .next (after .build State.reset) ∧
      (after .build State.reset).err ≠ .noError ∧
      exec .gencode State.reset = .next (after .gencode State.reset) ∧
      (after .gencode State.reset).err ≠ .noError ∧
      exec .serialize State.reset = .next (after .serialize State.reset) ∧
      (after .serialize State.reset).err ≠ .noError ∧
      exec .deserialize State.reset = .next (after .deserialize State.reset) ∧
      (after .deserialize State.reset).err ≠ .noError ∧
      exec .encode State.reset = .next (after .encode State.reset) ∧
      (after .encode State.reset).err ≠ .noError ∧
      exec .decode State.reset = .next (after .decode State.reset) ∧
      (after .decode State.reset).err ≠ .noError :=
  ⟨rfl, by decide +kernel, rfl, by decide +kernel, rfl, by decide +kernel, rfl, by decide +kernel,
    rfl, by decide +kernel, rfl, by decide +kernel, rfl, by decide +kernel⟩

theorem witness_SuccessWritesTheOutputsAlone :
    (exec .freq small = .next (after .freq small) ∧ (after .freq small).err = .noError) ∧
      (exec .build small = .next (after .build small) ∧ (after .build small).err = .noError) ∧
      (exec .gencode small = .next (after .gencode small) ∧
        (after .gencode small).err = .noError) ∧
      (exec .serialize small = .next (after .serialize small) ∧
        (after .serialize small).err = .noError) ∧
      (exec .deserialize small = .next (after .deserialize small) ∧
        (after .deserialize small).err = .noError) ∧
      (exec .encode small = .next (after .encode small) ∧ (after .encode small).err = .noError) ∧
      (exec .decode small = .next (after .decode small) ∧ (after .decode small).err = .noError) :=
  ⟨⟨rfl, by decide +kernel⟩, ⟨rfl, by decide +kernel⟩, ⟨rfl, by decide +kernel⟩,
    ⟨rfl, by decide +kernel⟩, ⟨rfl, by decide +kernel⟩, ⟨rfl, by decide +kernel⟩,
    ⟨rfl, by decide +kernel⟩⟩

theorem witness_CellsBeyondTheLengthAreKept :
    Sound small ∧ exec .serialize small = .next (after .serialize small) ∧
      exec .encode small = .next (after .encode small) ∧
      exec .decode small = .next (after .decode small) ∧
      ([.serialize, .encode, .decode] : List Instr).all
        (fun i => (after i small).err = .noError) = true :=
  ⟨small_sound, rfl, rfl, rfl, by decide +kernel⟩

theorem witness_OnlyTheOwnerChangesAStore :
    exec .freq small = .next (after .freq small) ∧
      exec .gencode small = .next (after .gencode small) := ⟨rfl, rfl⟩

/-- The small state with other stale cells, another report and another number of events. -/
def small' : State :=
  { small with
    inp := bytes [0x61, 0x62, 0x61, 0x99]
    kinds := Memory.number 0 [.internal, .leaf, .leaf, .internal]
    values := bytes [0x62, 0x61, 0x07]
    pk := bytes [0xA0, 0xFF]
    out := bytes [0x01]
    outLen := 1
    rootWeight := 8
    errInfo := 9
    tick := 5 }

theorem witness_ResultsDependOnTheOperandsAlone :
    (∀ i, inputsWritten i small = true) ∧ (∀ i, readsAgree i small small') ∧
      exec .freq small = .next (after .freq small) ∧
      exec .freq small' = .next (after .freq small') ∧
      exec .decode small = .next (after .decode small) ∧
      exec .decode small' = .next (after .decode small') := by
  refine ⟨fun i => ?_, fun i => ?_, rfl, rfl, rfl, rfl⟩
  · cases i <;> decide
  · cases i <;> (unfold readsAgree; decide)

/-! ## FREQ -/

/-- The small state with buffers of the given sizes. -/
def sized (inCap pkCap outCap : Word) (s : State) : State :=
  { s with cfg := ⟨inCap, pkCap, outCap, .other 3⟩ }

theorem witness_FreqCountsTheLiveInput :
    (sized 3 1 1 small).inLen.toNat ≤ (sized 3 1 1 small).cfg.inCap.toNat ∧
      inputsWritten .freq (sized 3 1 1 small) = true := by decide

theorem witness_FreqAbortsOverCapacity :
    (sized 2 1 1 small).cfg.inCap.toNat < (sized 2 1 1 small).inLen.toNat := by decide

theorem witness_FreqOfEmptyInputIsTheEmptyMapping : { small with inLen := 0 }.inLen = 0 := rfl

theorem witness_FreqIgnoresTheOrderOfTheInput :
    small.input.Perm (withInput [0x61, 0x61, 0x62] State.reset).input ∧
      small.inLen.toNat ≤ small.cfg.inCap.toNat ∧
      (withInput [0x61, 0x61, 0x62] State.reset).inLen.toNat
        ≤ (withInput [0x61, 0x61, 0x62] State.reset).cfg.inCap.toNat ∧
      inputsWritten .freq small = true ∧
      inputsWritten .freq (withInput [0x61, 0x61, 0x62] State.reset) = true ∧
      exec .freq small = .next (after .freq small) ∧
      exec .freq (withInput [0x61, 0x61, 0x62] State.reset)
        = .next (after .freq (withInput [0x61, 0x61, 0x62] State.reset)) := by
  refine ⟨?_, by decide, by decide, by decide, by decide, rfl, rfl⟩
  have h : small.input = [0x61, 0x62, 0x61] := rfl
  have h' : (withInput [0x61, 0x61, 0x62] State.reset).input = [0x61, 0x61, 0x62] := rfl
  rw [h, h']
  decide

/-! ## BUILD -/

theorem witness_BuildOfEmptyMappingAborts :
    (∀ b, countAt { small with freq := [] }.freq b = 0) ∧
      exec .freq State.reset = .next (after .freq State.reset) ∧ State.reset.inLen = 0 ∧
      exec .freq overlong = .next (after .freq overlong) ∧ (after .freq overlong).err ≠ .noError :=
  ⟨fun _ => rfl, rfl, rfl, rfl, by decide +kernel⟩

theorem witness_BuildOfOneSymbolIsItsLeaf :
    countAt [(0xFF, 0xFFFFFFFF)] 0xFF ≠ 0 ∧
      ∀ c : Sym8, c ≠ 0xFF → countAt [(0xFF, 0xFFFFFFFF)] c = 0 := by
  refine ⟨by decide, fun c hc => ?_⟩
  have h : ¬ 255 = c.toNat := fun h => hc (BitVec.eq_of_toNat_eq h.symm)
  simp [countAt, Memory.read, h]

theorem witness_BuildGivesAnAllowedTree :
    (∃ b, countAt small.freq b ≠ 0) ∧ ∃ b, countAt (sized 3 1 1 small).freq b ≠ 0 :=
  ⟨⟨0x61, by decide⟩, 0x62, by decide⟩

/-- Two equal counts: both orders are allowed. -/
theorem allowed_tie :
    allowed [(0x61, 1), (0x62, 1)] (.node (.leaf 0x61) (.leaf 0x62)) 2 ∧
      allowed [(0x61, 1), (0x62, 1)] (.node (.leaf 0x62) (.leaf 0x61)) 2 := by
  have h : leafEntries [(0x61, 1), (0x62, 1)] 0 (presentSymbols [(0x61, 1), (0x62, 1)])
      = [⟨1, 0, .leaf 0x61⟩, ⟨1, 1, .leaf 0x62⟩] := by decide +kernel
  refine ⟨⟨2, .single ?_⟩, ⟨2, .single ?_⟩⟩ <;> rw [h]
  · exact ⟨⟨1, 0, .leaf 0x61⟩, ⟨1, 1, .leaf 0x62⟩, 2, ⟨by decide, by decide⟩,
      ⟨by decide, by decide⟩, by decide⟩
  · exact ⟨⟨1, 1, .leaf 0x62⟩, ⟨1, 0, .leaf 0x61⟩, 2, ⟨by decide, by decide⟩,
      ⟨by decide, by decide⟩, by decide⟩

theorem witness_AllowedTreesKeepLeavesAndWeight :
    allowed [(0x61, 1), (0x62, 1)] (.node (.leaf 0x61) (.leaf 0x62)) 2 := allowed_tie.1

theorem witness_AllowedTreesAreOptimal :
    allowed [(0x61, 1), (0x62, 1)] (.node (.leaf 0x61) (.leaf 0x62)) 2 ∧
      (HuffTree.node (.leaf 0x62) (.leaf 0x61)).leaves.Perm
        (HuffTree.node (.leaf 0x61) (.leaf 0x62)).leaves ∧
      allowed [(0x61, 1), (0x62, 1)] (.node (.leaf 0x62) (.leaf 0x61)) 2 :=
  ⟨allowed_tie.1, by decide, allowed_tie.2⟩

theorem witness_ReferencePolicyTakesTheEarliest :
    ([⟨5, 0, .leaf 1⟩, ⟨2, 1, .leaf 2⟩, ⟨2, 4, .leaf 3⟩] : List PqEntry) ≠ [] ∧
      ([⟨5, 0, .leaf 1⟩, ⟨2, 1, .leaf 2⟩, ⟨2, 4, .leaf 3⟩] : List PqEntry).Pairwise
        (fun x y => x.seq < y.seq) := by decide

/-! ## GENCODE -/

/-- A tree that carries 0x41 twice (V-G8). -/
def repeated : HuffTree := .node (.leaf 0x41) (.node (.leaf 0x41) (.leaf 0x42))

theorem witness_GencodeCodesAreLeafPaths :
    small.tree = some smallTree ∧ smallTree.distinct ∧ (HuffTree.leaf 0x00).distinct := by
  unfold HuffTree.distinct
  exact ⟨rfl, by decide, by decide⟩

theorem witness_GencodeKeepsTheLastLeafOfASymbol :
    { small with tree := some repeated }.tree = some repeated ∧
      repeated.follow [true, false] = some (.leaf 0x41) ∧
      repeated.follow [false] = some (.leaf 0x41) := ⟨rfl, by decide, by decide⟩

theorem witness_CodesArePrefixFreeAndComplete :
    small.tree = some smallTree ∧ exec .gencode small = .next (after .gencode small) ∧
      (after .gencode small).code = some (codeTable smallTree) ∧
      ((0x61 : Sym8) ≠ 0x62 ∧ codeOf (codeTable smallTree) 0x61 = some [true] ∧
        codeOf (codeTable smallTree) 0x62 = some [false]) ∧
      smallTree.isLeaf = false ∧ smallTree.distinct := by
  refine ⟨rfl, rfl, rfl, by decide, by decide, ?_⟩
  unfold HuffTree.distinct
  decide

theorem witness_GencodeOfALeafIsTheEmptyCode :
    { small with tree := some (.leaf 0xFF) }.tree = some (.leaf 0xFF) := rfl

theorem witness_NoOperandExactlyWithoutTheStore :
    (exec .decode State.reset = .next (after .decode State.reset) ∧ State.reset.tv = false) ∧
      (exec .encode State.reset = .next (after .encode State.reset) ∧ State.reset.cv = false) ∧
      exec .build State.reset = .next (after .build State.reset) :=
  ⟨⟨rfl, rfl⟩, ⟨rfl, rfl⟩, rfl⟩

/-! ## SERIALIZE and DESERIALIZE -/

/-- A tree of `2^d` leaves of equal depth. -/
def balanced : Nat → Sym8 → HuffTree
  | 0, b => .leaf b
  | d + 1, b => .node (balanced d (2 * b)) (balanced d (2 * b + 1))

theorem witness_SerializeWritesLevelOrder :
    { small with tree := some (balanced 8 0) }.tree = some (balanced 8 0) ∧
      (balanced 8 0).leafCount ≤ 256 ∧ (balanced 8 0).leafCount = 256 :=
  ⟨rfl, by decide +kernel, by decide +kernel⟩

theorem witness_SerializedPairCountsTheTree :
    small.tree = some smallTree ∧ smallTree.leafCount ≤ 256 ∧
      exec .serialize small = .next (after .serialize small) := ⟨rfl, by decide, rfl⟩

theorem witness_SerializeOfALeaf :
    { small with tree := some (.leaf 0x78) }.tree = some (.leaf 0x78) := rfl

theorem witness_DeserializeInvertsSerialize :
    { small with tree := some repeated }.tree = some repeated ∧ repeated.leafCount ≤ 256 ∧
      (balanced 8 0).leafCount ≤ 256 := ⟨rfl, by decide, by decide +kernel⟩

theorem witness_SerializeInvertsDeserialize :
    inputsWritten .deserialize small = true ∧
      exec .deserialize small = .next (after .deserialize small) ∧
      (after .deserialize small).err = .noError := ⟨by decide, rfl, by decide +kernel⟩

theorem witness_DeserializeAcceptsByTheCountingTest :
    inputsWritten .deserialize small = true ∧ small.kindsLen.toNat ≤ 511 ∧
      small.valuesLen.toNat ≤ 256 ∧ accepted small.kindsIn small.valuesIn ∧
      exec .deserialize small = .next (after .deserialize small) ∧
      (after .deserialize small).err = .noError := by
  refine ⟨by decide, by decide, by decide, ?_, rfl, by decide +kernel⟩
  have hk : small.kindsIn = [.internal, .leaf, .leaf] := rfl
  have hv : small.valuesIn = [0x62, 0x61] := rfl
  rw [hk, hv]
  refine ⟨by decide, fun i h₁ h₂ => ?_, by decide, by decide⟩
  have : i = 1 ∨ i = 2 := by
    simp only [List.length_cons, List.length_nil] at h₂
    omega
  rcases this with rfl | rfl <;> (unfold placeOpen; decide)

theorem witness_DeserializeReportsTheFirstSubCause :
    (small.kindsLen.toNat ≤ 511 ∧ small.valuesLen.toNat ≤ 256 ∧
      inputsWritten .deserialize (withPair [false] [] State.reset) = true ∧
      malformed (withPair [false] [] State.reset).kindsIn
        (withPair [false] [] State.reset).valuesIn .valuesUsedUp) ∧
      malformed [] [0x05] .noRoot ∧ malformed [.leaf, .leaf] [0x01] .overConsumed ∧
      malformed [.internal] [] .truncated ∧ malformed [.leaf] [0x01, 0x02] .valuesLeft ∧
      ¬ accepted [] [] := by
  refine ⟨⟨by decide, by decide, by decide, 0, rfl, by omega, rfl⟩, rfl,
    ⟨1, by decide, by decide, ?_, by omega, by decide⟩, ⟨by decide, ?_, by decide, by decide⟩,
    ⟨by decide, ?_, by decide, by decide⟩, fun h => by simpa using h.1⟩
  · unfold placeOpen
    decide
  · intro j h₁ h₂
    simp only [List.length_cons, List.length_nil] at h₂
    omega
  · intro j h₁ h₂
    simp only [List.length_cons, List.length_nil] at h₂
    omega

theorem witness_DeserializeAbortsOverCapacity :
    511 < { small with kindsLen := 512 }.kindsLen.toNat ∧
      256 < { small with valuesLen := 257 }.valuesLen.toNat := by decide

/-! ## ENCODE -/

/-- Eight bytes of one-bit codes fill one cell of `PK` exactly. -/
def eight : State :=
  sized 9 1 9 (withInput [0x61, 0x62, 0x61, 0x62, 0x61, 0x62, 0x61, 0x62] small)

/-- Nine do not fit it. -/
def nine : State :=
  sized 9 1 9 (withInput [0x61, 0x62, 0x61, 0x62, 0x61, 0x62, 0x61, 0x62, 0x61] small)

theorem eight_input : eight.input = [0x61, 0x62, 0x61, 0x62, 0x61, 0x62, 0x61, 0x62] := rfl
theorem nine_input : nine.input = [0x61, 0x62, 0x61, 0x62, 0x61, 0x62, 0x61, 0x62, 0x61] := rfl

theorem witness_EncodePacksTheConcatenatedCodes :
    eight.code = some (codeTable smallTree) ∧ eight.cfg.wf = true ∧
      eight.inLen.toNat ≤ eight.cfg.inCap.toNat ∧ inputsWritten .encode eight = true ∧
      covers (codeTable smallTree) eight.input ∧
      (concatCodes (codeTable smallTree) eight.input).length = 8 * eight.cfg.pkCap.toNat := by
  rw [eight_input]
  unfold covers
  exact ⟨rfl, by decide, by decide, by decide, by decide, by decide⟩

theorem witness_EncodeAbortsAtTheFirstUncodedByte :
    (withInput [0x61, 0x64] small).code = some (codeTable smallTree) ∧
      (withInput [0x61, 0x64] small).inLen.toNat ≤ small.cfg.inCap.toNat ∧
      inputsWritten .encode (withInput [0x61, 0x64] small) = true ∧
      (withInput [0x61, 0x64] small).input[1]? = some 0x64 ∧
      codeOf (codeTable smallTree) 0x64 = none ∧
      covers (codeTable smallTree) ((withInput [0x61, 0x64] small).input.take 1) ∧
      (concatCodes (codeTable smallTree) ((withInput [0x61, 0x64] small).input.take 1)).length
        ≤ 8 * small.cfg.pkCap.toNat := by
  have h : (withInput [0x61, 0x64] small).input = [0x61, 0x64] := rfl
  rw [h]
  unfold covers
  exact ⟨rfl, by decide, by decide, by decide, by decide, by decide, by decide⟩

/-- One byte more than `IN` holds: a state the host reaches by a write to `IN_LEN`. -/
def oneTooMany : State := { small with inLen := 65537 }

theorem oneTooMany_sound : Sound oneTooMany :=
  ⟨small_sound.cfg, small_sound.tree, small_sound.freq, small_sound.code, small_sound.kinds,
    small_sound.values, small_sound.inp, small_sound.pk, small_sound.out, small_sound.outLen,
    small_sound.outWritten, small_sound.rootWeight⟩

theorem witness_EncodeAbortsOverCapacity :
    (Sound oneTooMany ∧ oneTooMany.cv = true ∧
      oneTooMany.cfg.inCap.toNat < oneTooMany.inLen.toNat) ∧
      nine.code = some (codeTable smallTree) ∧ inputsWritten .encode nine = true ∧
      nine.input[8]? = some 0x61 ∧ covers (codeTable smallTree) (nine.input.take 9) ∧
      (concatCodes (codeTable smallTree) (nine.input.take 8)).length ≤ 8 * nine.cfg.pkCap.toNat ∧
      8 * nine.cfg.pkCap.toNat < (concatCodes (codeTable smallTree) (nine.input.take 9)).length := by
  rw [nine_input]
  unfold covers
  exact ⟨⟨oneTooMany_sound, rfl, by decide⟩, rfl, by decide, by decide, by decide, by decide,
    by decide⟩

theorem witness_EncodeOfEmptyInput :
    { small with inLen := 0 }.cv = true ∧ { small with inLen := 0 }.inLen = 0 := ⟨rfl, rfl⟩

/-- A state with the table of a single-leaf tree. -/
def oneSymbol (bs : List Byte) : State :=
  withInput bs { State.reset with code := some (codeTable (.leaf 0x78)) }

theorem witness_EncodeWithASingleSymbolTable :
    ((oneSymbol [0x78, 0x78]).code = some (codeTable (.leaf 0x78)) ∧
      (oneSymbol [0x78, 0x78]).inLen.toNat ≤ (oneSymbol [0x78, 0x78]).cfg.inCap.toNat ∧
      inputsWritten .encode (oneSymbol [0x78, 0x78]) = true ∧
      ∀ c ∈ (oneSymbol [0x78, 0x78]).input, c = 0x78) ∧
      inputsWritten .encode (oneSymbol [0x78, 0x79]) = true ∧
      (oneSymbol [0x78, 0x79]).input[1]? = some 0x79 ∧ (0x79 : Byte) ≠ 0x78 ∧
      ∀ d ∈ (oneSymbol [0x78, 0x79]).input.take 1, d = 0x78 := by
  have h : (oneSymbol [0x78, 0x78]).input = [0x78, 0x78] := rfl
  have h' : (oneSymbol [0x78, 0x79]).input = [0x78, 0x79] := rfl
  rw [h, h']
  exact ⟨⟨rfl, by decide, by decide, by decide⟩, by decide, by decide, by decide, by decide⟩

/-! ## DECODE -/

theorem witness_DecodeEmitsTheLeavesOfThePaths :
    { small with bitCount := 8 }.tree = some (.node (.leaf 0x62) (.leaf 0x61)) ∧
      inputsWritten .decode { small with bitCount := 8 } = true ∧
      (sized 9 1 1 small).pkLen.toNat ≤ (sized 9 1 1 small).cfg.pkCap.toNat ∧
      { small with bitCount := 8 }.bitCount.toNat ≤ 8 * small.pkLen.toNat ∧
      splits smallTree small.bitsIn [([true], 0x61), ([false], 0x62), ([true], 0x61)] [] ∧
      [([true], (0x61 : Sym8)), ([false], 0x62), ([true], 0x61)].length
        ≤ (sized 9 1 3 small).cfg.outCap.toNat ∧
      ((sized 9 1 2 small).tree = some (.node (.leaf 0x62) (.leaf 0x61)) ∧
        inputsWritten .decode (sized 9 1 2 small) = true ∧
        (sized 9 1 2 small).pkLen.toNat ≤ (sized 9 1 2 small).cfg.pkCap.toNat ∧
        (sized 9 1 2 small).bitCount.toNat ≤ 8 * (sized 9 1 2 small).pkLen.toNat ∧
        (sized 9 1 2 small).cfg.outCap.toNat
          < [([true], (0x61 : Sym8)), ([false], 0x62), ([true], 0x61)].length) ∧
      splits tree132 [true, false] [] [true, false] := by
  refine ⟨rfl, by decide, by decide, by decide, ?_, by decide,
    ⟨rfl, by decide, by decide, by decide, by decide⟩, ?_⟩
  · have h : small.bitsIn = [true, false, true] := rfl
    rw [h]
    exact ⟨by decide, by decide, _, _, rfl⟩
  · exact ⟨by decide, by decide, _, _, rfl⟩

theorem witness_SplitsAreUnique :
    splits smallTree [true, false] [([true], 0x61), ([false], 0x62)] [] :=
  ⟨by decide, by decide, _, _, rfl⟩

theorem witness_DecodeOfALeafEmitsSymCountCopies :
    { small with tree := some (.leaf 0x78) }.tree = some (.leaf 0x78) ∧
      (sized 9 1 3 small).pkLen.toNat ≤ (sized 9 1 3 small).cfg.pkCap.toNat ∧
      small.bitCount.toNat ≤ 8 * small.pkLen.toNat ∧
      (sized 9 1 3 small).symCount.toNat ≤ (sized 9 1 3 small).cfg.outCap.toNat ∧
      (sized 9 1 2 small).cfg.outCap.toNat < (sized 9 1 2 small).symCount.toNat := by
  refine ⟨rfl, ?_⟩
  decide

theorem witness_DecodeChecksLengthsBeforeBits :
    small.tv = true ∧ (small.cfg.pkCap.toNat < { small with pkLen := 65537 }.pkLen.toNat) ∧
      (small.pkLen.toNat ≤ small.cfg.pkCap.toNat ∧
        8 * small.pkLen.toNat < { small with bitCount := 9 }.bitCount.toNat) ∧
      { small with bitCount := 8 }.bitCount.toNat ≤ 8 * small.pkLen.toNat ∧
      exec .decode { small with bitCount := 8 }
        = .next (after .decode { small with bitCount := 8 }) :=
  ⟨rfl, by decide, by decide, by decide, rfl⟩

theorem witness_DecodeOfNoBits :
    small.tree = some (.node (.leaf 0x62) (.leaf 0x61)) ∧
      small.pkLen.toNat ≤ small.cfg.pkCap.toNat ∧ { small with bitCount := 0 }.bitCount = 0 :=
  ⟨rfl, by decide, rfl⟩

/-! ## The round trips -/

theorem witness_DecodeInvertsEncode :
    small.tree = some smallTree ∧ smallTree.distinct ∧
      exec .gencode small = .next (after .gencode small) ∧
      (after .gencode small).cfg.wf = true ∧
      (after .gencode small).inLen.toNat ≤ (after .gencode small).cfg.outCap.toNat ∧
      inputsWritten .encode (after .gencode small) = true ∧
      exec .encode (after .gencode small) = .next (after .encode (after .gencode small)) ∧
      (after .encode (after .gencode small)).err = .noError := by
  unfold HuffTree.distinct
  exact ⟨rfl, by decide, rfl, by decide +kernel, by decide +kernel, by decide +kernel, rfl,
    by decide +kernel⟩

/-- The state after the commands of `COMPRESS`, the same state if they stopped. -/
def compressed (s : State) : State :=
  match runPseudo compressCommands s with
  | .next t => t
  | .fault _ => s
  | .refused _ => s

theorem witness_ExpandInvertsCompress :
    small.cfg.wf = true ∧ 1 ≤ small.inLen.toNat ∧ small.inLen.toNat ≤ small.cfg.inCap.toNat ∧
      small.inLen.toNat ≤ small.cfg.outCap.toNat ∧ inputsWritten .freq small = true ∧
      runPseudo compressCommands small = .next (compressed small) ∧
      (compressed small).err = .noError :=
  ⟨by decide, by decide, by decide, by decide, by decide, rfl, by decide +kernel⟩

/-! ## The host port -/

theorem witness_RegisterAccess : (0x03 : Word) ≠ 0 ∧ (0x0F : Word) ≠ 0 := by decide

theorem witness_BufferWritesStoreOneCell :
    ((65535 : Word).toNat < small.cfg.inCap.toNat ∧ (255 : Word).toNat ≤ 255) ∧
      (255 : Word).toNat < 256 ∧ ((510 : Word).toNat < 511 ∧ (1 : Word).toNat ≤ 1) ∧
      ((65535 : Word).toNat < small.cfg.pkCap.toNat) ∧
      ((1 : BitVec 4) ≠ 0 ∧ writeFaults 1 65536 0 small ∧ writeFaults 1 0 256 small ∧
        writeFaults 2 256 0 small ∧ writeFaults 3 511 0 small ∧ writeFaults 3 0 2 small ∧
        writeFaults 4 256 0 small ∧ writeFaults 5 65536 0 small ∧ writeFaults 6 0 0 small ∧
        writeFaults 9 0 0 small) := by
  refine ⟨by decide, by decide, by decide, by decide, by decide, ?_⟩
  exact ⟨.inl (by decide), .inr (by decide), (by decide : 256 ≤ (256 : Word).toNat),
    .inl (by decide), .inr (by decide), .inl (by decide), .inl (by decide), trivial, trivial⟩

theorem witness_BufferReadsReturnTheCell :
    ((2 : Word).toNat < small.cfg.inCap.toNat ∧ small.inp.read (2 : Word).toNat = some 0x61) ∧
      (255 : Word).toNat < 256 ∧
      ((0 : Word).toNat < 511 ∧ small.kinds.read (0 : Word).toNat = some .internal) ∧
      ((1 : Word).toNat < 256 ∧ small.values.read (1 : Word).toNat = some 0x61) ∧
      ((0 : Word).toNat < small.cfg.pkCap.toNat ∧ small.pk.read (0 : Word).toNat = some 0xA0) ∧
      (1 ≤ (2 : BitVec 4).toNat ∧ (2 : BitVec 4).toNat ≤ 5 ∧ readFaults 2 256 small ∧
        ¬ readFaults 2 255 small) := by
  refine ⟨by decide, by decide, by decide, by decide, by decide, by decide, by decide,
    (by decide : 256 ≤ (256 : Word).toNat), (by decide : ¬ 256 ≤ (255 : Word).toNat)⟩

theorem witness_CodeTableView :
    codeOk small.code ∧ small.code = some (codeTable smallTree) ∧ (255 : Word).toNat < 256 ∧
      (7 : Nat) < 8 ∧ State.reset.cv = false :=
  ⟨small_sound.code, rfl, by decide, by decide, rfl⟩

/-- The small state with one live cell of `OUT`. -/
def smallOut : State := { small with out := bytes [0x62], outLen := 1 }

theorem smallOut_sound : Sound smallOut where
  cfg := small_sound.cfg
  tree := small_sound.tree
  freq := small_sound.freq
  code := small_sound.code
  kinds := small_sound.kinds
  values := small_sound.values
  inp := small_sound.inp
  pk := small_sound.pk
  out := by decide
  outLen := by decide
  outWritten := by decide
  rootWeight := small_sound.rootWeight

theorem witness_OutReadsLiveCellsOnly :
    Sound smallOut ∧ (0 : Word).toNat < smallOut.outLen.toNat ∧
      smallOut.outLen.toNat ≤ (1 : Word).toNat := ⟨smallOut_sound, by decide, by decide⟩

theorem witness_AccessFaultsExactlyAndChangeNothing :
    serve (.read 0 0) small = .next (served (.read 0 0) small) ∧
      serve (.write 0 1 0) small = .next (served (.write 0 1 0) small) ∧
      (served (.write 0 1 0) small).response = some .fault :=
  ⟨rfl, rfl, by decide +kernel⟩

/-! ## Reset and the invariant -/

theorem witness_ResetClearsEverything :
    State.reset = State.reset ∧ serve .reset smallOut = .next (served .reset smallOut) := ⟨rfl, rfl⟩

theorem witness_InvariantHoldsAtReset : Config.wf ⟨1, 1, 1, .other 0⟩ = true := by decide

/-- The small state with a DECODE pending. -/
def smallPending : State := { small with pending := [.write 0 0 7] }

theorem witness_EveryStepKeepsTheInvariant :
    Sound smallPending ∧ step smallPending = .next (stepped smallPending) :=
  ⟨⟨small_sound.cfg, small_sound.tree, small_sound.freq, small_sound.code, small_sound.kinds,
    small_sound.values, small_sound.inp, small_sound.pk, small_sound.out, small_sound.outLen,
    small_sound.outWritten, small_sound.rootWeight⟩, rfl⟩

/-! ## The report of every command -/

theorem witness_ErrorDetailByKind :
    (exec .freq small = .next (after .freq small) ∧ (after .freq small).err = .noError) ∧
      (exec .build State.reset = .next (after .build State.reset) ∧
        (after .build State.reset).err = .emptyAlphabet) ∧
      (exec .encode (withInput [0x61, 0x64] small)
          = .next (after .encode (withInput [0x61, 0x64] small)) ∧
        (after .encode (withInput [0x61, 0x64] small)).err = .unknownSymbol) ∧
      (exec .deserialize State.reset = .next (after .deserialize State.reset) ∧
        (after .deserialize State.reset).err = .malformedSerialization) ∧
      (exec .decode { small with bitCount := 9 }
          = .next (after .decode { small with bitCount := 9 }) ∧
        (after .decode { small with bitCount := 9 }).err = .truncatedBitstream) ∧
      (exec .gencode State.reset = .next (after .gencode State.reset) ∧
        (after .gencode State.reset).err = .noOperand) ∧
      (exec .freq overlong = .next (after .freq overlong) ∧
        (after .freq overlong).err = .capacityExceeded) :=
  ⟨⟨rfl, by decide +kernel⟩, ⟨rfl, by decide +kernel⟩, ⟨rfl, by decide +kernel⟩,
    ⟨rfl, by decide +kernel⟩, ⟨rfl, by decide +kernel⟩, ⟨rfl, by decide +kernel⟩,
    ⟨rfl, by decide +kernel⟩⟩

end Sys2Proof.Tests
end

section
/-! PROOFS. What a command can do, said once for all seven: it raises an error kind and aborts, or it
writes its outputs and completes. -/

namespace Sys2Proof.Machine

/-! ## The outcomes of a command -/

/-- Without an early abort ENCODE stops at a byte: at one without a code, whose index it reports, or at
one whose code does not fit. -/
theorem encodeBytes_error {table : Memory Code} {maxBits i n : Nat} {bs : List Byte}
    {e : ErrKind × Word} (h : encodeBytes table maxBits i n bs = .error e) :
    e = (.capacityExceeded, 0) ∨
      ∃ j, j < i + bs.length ∧ e = (.unknownSymbol, BitVec.ofNat 32 j) := by
  induction bs generalizing i n with
  | nil => simp [encodeBytes] at h
  | cons b bs ih =>
    rw [encodeBytes] at h
    split at h
    · exact .inr ⟨i, by simp, (Except.error.inj h).symm⟩
    · split at h
      · exact .inl (Except.error.inj h).symm
      · split at h
        · rename_i hrec
          obtain rfl := Except.error.inj h
          refine (ih hrec).imp id fun ⟨j, hj, he⟩ => ⟨j, ?_, he⟩
          rw [List.length_cons]
          omega
        · cases h

/-- The error kinds each command raises, with the detail it reports (spec/10_state.md R44,
spec/60_exceptions.md R211). -/
inductive Raises (s : State) : Instr → ErrKind → Word → Prop
  | emptyAlphabet : Raises s .build .emptyAlphabet 0
  | unknownSymbol {info : Word} (h : info.toNat < s.inLen.toNat) :
      Raises s .encode .unknownSymbol info
  | malformed (c : SubCause) : Raises s .deserialize .malformedSerialization c.toCode
  | truncated : Raises s .decode .truncatedBitstream 0
  | noOperand {i : Instr} (hi : i = .gencode ∨ i = .serialize ∨ i = .encode ∨ i = .decode) :
      Raises s i .noOperand 0
  | capacity {i : Instr} (hi : i = .freq ∨ i = .deserialize ∨ i = .encode ∨ i = .decode) :
      Raises s i .capacityExceeded 0

theorem raises_of_encodeBytes_error {s : State} {table : Memory Code} {maxBits : Nat}
    {e : ErrKind × Word} (h : encodeBytes table maxBits 0 0 s.input = .error e) :
    Raises s .encode e.1 e.2 := by
  rcases encodeBytes_error h with rfl | ⟨j, hj, rfl⟩
  · exact .capacity (by simp)
  · have hlen : s.input.length = s.inLen.toNat := liveBytes_length ..
    refine .unknownSymbol ?_
    rw [BitVec.toNat_ofNat]
    exact lt_of_le_of_lt (Nat.mod_le _ _) (by omega)

/-- The ways a command ends: an abort, or one completion per command (two for DECODE). -/
inductive Ends (s : State) : Instr → State → Prop
  | abort {i : Instr} {k : ErrKind} {info : Word} (h : Raises s i k info) :
      Ends s i (aborted i k info s)
  | freq : Ends s .freq (report .noError 0 false (writeFreq (countBytes s.input) s))
  | build {r : PqEntry} (h : buildRoot s.cfg.tiebreak s.freq = some r) :
      Ends s .build (report .noError 0 false (writeTree r.tree (BitVec.ofNat 40 r.weight) s))
  | gencode {u : HuffTree} (h : s.tree = some u) :
      Ends s .gencode (report .noError 0 false (writeCode (codeTable u) s))
  | serialize {u : HuffTree} (h : s.tree = some u) :
      Ends s .serialize
        (report .noError 0 false (writePair (serializeTree u).1 (serializeTree u).2 s))
  | deserialize {u : HuffTree} (hlen : s.kindsLen.toNat ≤ kindsCap)
      (h : deserializePair s.kindsIn s.valuesIn = .ok u) :
      Ends s .deserialize (report .noError 0 false (writeTree u 0 s))
  | encode {m : Memory Code} {bits : List Bool} (hcode : s.code = some m)
      (h : encodeBytes m (8 * s.cfg.pkCap.toNat) 0 0 s.input = .ok bits) :
      Ends s .encode (report .noError 0 false (writePacked bits s))
  | decodeLeaf {sym : Sym8} (htree : s.tree = some (.leaf sym))
      (h : s.symCount.toNat ≤ s.cfg.outCap.toNat) :
      Ends s .decode
        (report .noError 0 false (writeOut (List.replicate s.symCount.toNat sym) s))
  | decodeWalk {u : HuffTree} {o : List Sym8 × Bool} (htree : s.tree = some u)
      (h : decodeWalk u s.cfg.outCap.toNat u false 0 s.bitsIn = some o) :
      Ends s .decode (report .noError 0 o.2 (writeOut o.1 s))

theorem execFreq_ends (s : State) : ∃ t, execFreq s = .next t ∧ Ends s .freq t := by
  rcases execFreq_cases s with ⟨-, h⟩ | ⟨-, h⟩
  · exact ⟨_, h, .abort (.capacity (by simp))⟩
  · exact ⟨_, h, .freq⟩

theorem execBuild_ends (s : State) : ∃ t, execBuild s = .next t ∧ Ends s .build t := by
  rcases execBuild_cases s with ⟨-, h⟩ | ⟨r, hr, h⟩
  · exact ⟨_, h, .abort .emptyAlphabet⟩
  · exact ⟨_, h, .build hr⟩

theorem execGencode_ends (s : State) : ∃ t, execGencode s = .next t ∧ Ends s .gencode t := by
  rcases execGencode_cases s with ⟨-, h⟩ | ⟨u, hu, h⟩
  · exact ⟨_, h, .abort (.noOperand (by simp))⟩
  · exact ⟨_, h, .gencode hu⟩

theorem execSerialize_ends (s : State) :
    ∃ t, execSerialize s = .next t ∧ Ends s .serialize t := by
  rcases execSerialize_cases s with ⟨-, h⟩ | ⟨u, hu, h⟩
  · exact ⟨_, h, .abort (.noOperand (by simp))⟩
  · exact ⟨_, h, .serialize hu⟩

theorem execDeserialize_ends (s : State) :
    ∃ t, execDeserialize s = .next t ∧ Ends s .deserialize t := by
  rcases execDeserialize_cases s with ⟨-, h⟩ | ⟨hlen, -, ⟨c, -, h⟩ | ⟨u, hu, h⟩⟩
  · exact ⟨_, h, .abort (.capacity (by simp))⟩
  · exact ⟨_, h, .abort (.malformed c)⟩
  · exact ⟨_, h, .deserialize hlen hu⟩

theorem execEncode_ends (s : State) : ∃ t, execEncode s = .next t ∧ Ends s .encode t := by
  rcases execEncode_cases s with
    ⟨-, h⟩ | ⟨m, hm, ⟨-, h⟩ | ⟨-, ⟨e, he, h⟩ | ⟨bits, hbits, h⟩⟩⟩
  · exact ⟨_, h, .abort (.noOperand (by simp))⟩
  · exact ⟨_, h, .abort (.capacity (by simp))⟩
  · exact ⟨_, h, .abort (raises_of_encodeBytes_error he)⟩
  · exact ⟨_, h, .encode hm hbits⟩

theorem execDecode_ends (s : State) : ∃ t, execDecode s = .next t ∧ Ends s .decode t := by
  rcases execDecode_cases s with ⟨-, h⟩ | ⟨u, hu, ⟨-, h⟩ | ⟨-, -, h⟩ | ⟨-, -, hrun⟩⟩
  · exact ⟨_, h, .abort (.noOperand (by simp))⟩
  · exact ⟨_, h, .abort (.capacity (by simp))⟩
  · exact ⟨_, h, .abort .truncated⟩
  · rcases hrun with ⟨sym, rfl, ⟨-, h⟩ | ⟨hle, h⟩⟩ | ⟨l, r, -, ⟨-, h⟩ | ⟨o, ho, h⟩⟩
    · exact ⟨_, h, .abort (.capacity (by simp))⟩
    · exact ⟨_, h, .decodeLeaf hu hle⟩
    · exact ⟨_, h, .abort (.capacity (by simp))⟩
    · exact ⟨_, h, .decodeWalk hu ho⟩

/-- Every command completes (spec/70_reset_and_hazards.md R254), in one of its ways. -/
theorem exec_ends (i : Instr) (s : State) : ∃ t, exec i s = .next t ∧ Ends s i t := by
  cases i with
  | freq => exact execFreq_ends s
  | build => exact execBuild_ends s
  | gencode => exact execGencode_ends s
  | serialize => exact execSerialize_ends s
  | deserialize => exact execDeserialize_ends s
  | encode => exact execEncode_ends s
  | decode => exact execDecode_ends s

theorem ends_of_exec {i : Instr} {s t : State} (h : exec i s = .next t) : Ends s i t := by
  obtain ⟨u, hu, hends⟩ := exec_ends i s
  obtain rfl := Host.Outcome.next.inj (hu.symm.trans h)
  exact hends

theorem SubCause.toCode_bounds (c : SubCause) : 1 ≤ c.toCode.toNat ∧ c.toCode.toNat ≤ 5 := by
  cases c <;> decide

/-- Settles O58: an abort leaves what its `Raises` case says, a completion leaves `ERRINFO` 0. -/
theorem errorDetailByKind : Obligations.ErrorDetailByKind := by
  intro i s t h
  cases ends_of_exec h with
  | abort hraise =>
    cases hraise with
    | emptyAlphabet => exact ⟨rfl, rfl⟩
    | unknownSymbol hindex => exact ⟨rfl, hindex⟩
    | malformed c => exact ⟨rfl, c.toCode_bounds⟩
    | truncated => exact ⟨rfl, rfl⟩
    | noOperand hi => exact ⟨hi, rfl⟩
    | capacity hi => exact ⟨hi, rfl⟩
  | _ => exact rfl

/-- Settles O9: on an abort because `invalidate` empties the command's own outputs, on a completion
because each command's write touches its own outputs. -/
theorem onlyTheOwnerChangesAStore : Obligations.OnlyTheOwnerChangesAStore := by
  intro i s t h
  cases ends_of_exec h with
  | abort _ => cases i <;> simp
  | _ => simp

end Sys2Proof.Machine
end

section
/-! PROOFS. The sizes of what the commands write: trees of at most 256 leaves, codes of at most 255 bits,
pairs and packed bits and symbols within the capacity of their buffers. -/

namespace Sys2Proof.Machine

/-! ## BUILD -/

/-- The number of leaves of all trees in a priority structure. -/
def leafTotal (pq : List PqEntry) : Nat := (pq.map fun e => e.tree.leafCount).sum

theorem leafTotal_removeMin {choice : Nat} {pq rest : List PqEntry} {e : PqEntry}
    (h : removeMin choice pq = some (e, rest)) :
    e.tree.leafCount + leafTotal rest = leafTotal pq := by
  obtain ⟨hleast, rfl⟩ := removeMin_some h
  exact List.sum_map_erase (fun e : PqEntry => e.tree.leafCount) hleast.1

theorem leafTotal_mergeStep (choice : Nat → Nat) (seq : Nat) (pq : List PqEntry) :
    leafTotal (mergeStep choice seq pq) = leafTotal pq := by
  unfold mergeStep
  split
  · rfl
  · rename_i a pq₁ ha
    split
    · rfl
    · rename_i b pq₂ hb
      rw [← leafTotal_removeMin ha, ← leafTotal_removeMin hb]
      simp only [leafTotal, mergeEntry, HuffTree.leafCount, List.map_append, List.map_cons,
        List.map_nil, List.sum_append, List.sum_cons, List.sum_nil]
      omega

theorem leafTotal_mergeSteps (choice : Nat → Nat) (n fuel k : Nat) (pq : List PqEntry) :
    leafTotal (mergeSteps choice n fuel k pq) = leafTotal pq := by
  induction fuel generalizing k pq with
  | zero => rfl
  | succ fuel ih => rw [mergeSteps, ih, leafTotal_mergeStep]

theorem leafTotal_leafEntries (m : Memory Word) (seq : Nat) (bs : List Sym8) :
    leafTotal (leafEntries m seq bs) = bs.length := by
  induction bs generalizing seq with
  | nil => rfl
  | cons b bs ih =>
    have hrec := ih (seq + 1)
    simp only [leafTotal] at hrec
    simp only [leafTotal, leafEntries, List.map_cons, List.sum_cons, HuffTree.leafCount, hrec,
      List.length_cons, Nat.add_comm]

theorem presentSymbols_length_le (m : Memory Word) : (presentSymbols m).length ≤ 256 := by
  rw [presentSymbols, List.length_map]
  exact (List.length_filter_le _ _).trans_eq List.length_range

theorem mergeLeaves_leafCount_le {choice : Nat → Nat} {leaves : List PqEntry} {r : PqEntry}
    (h : mergeLeaves choice leaves = some r) : r.tree.leafCount ≤ leafTotal leaves := by
  cases leaves with
  | nil => cases h
  | cons e es =>
    rw [← leafTotal_mergeSteps choice (es.length + 1) es.length 0 (e :: es)]
    exact List.le_sum_of_mem (List.mem_map_of_mem (List.mem_of_mem_head? h))

/-- BUILD never writes a tree with more leaves than there are symbols (spec/10_state.md R24). -/
theorem buildRoot_leafCount_le {tb : TieBreak} {m : Memory Word} {r : PqEntry}
    (h : buildRoot tb m = some r) : r.tree.leafCount ≤ 256 :=
  calc r.tree.leafCount
      ≤ leafTotal (leafEntries m 0 (presentSymbols m)) := mergeLeaves_leafCount_le h
    _ = (presentSymbols m).length := leafTotal_leafEntries ..
    _ ≤ 256 := presentSymbols_length_le m

/-! ## GENCODE -/

/-- A path has at most one bit per leaf beside its own. -/
theorem HuffTree.walk_length {t : HuffTree} {p : Code} {e : Sym8 × Code} (h : e ∈ t.walk p) :
    e.2.length + 1 ≤ p.length + t.leafCount := by
  induction t generalizing p with
  | leaf b =>
    obtain rfl := List.mem_singleton.1 h
    exact le_rfl
  | node l r ihl ihr =>
    have hl := l.leafCount_pos
    have hr := r.leafCount_pos
    rw [HuffTree.leafCount]
    rcases List.mem_append.1 h with h | h
    · have := ihl h
      rw [List.length_append, List.length_singleton] at this
      omega
    · have := ihr h
      rw [List.length_append, List.length_singleton] at this
      omega

theorem mem_tableOf {w : List (Sym8 × Code)} {x : Nat × Code} (h : x ∈ tableOf w) :
    ∃ e ∈ w, x = (e.1.toNat, e.2) := by
  unfold tableOf at h
  induction w using List.reverseRecOn with
  | nil => cases h
  | append_singleton w e ih =>
    rw [List.foldl_append] at h
    rcases Memory.mem_write h with rfl | h
    · exact ⟨e, by simp, rfl⟩
    · obtain ⟨e', he', hx⟩ := ih h
      exact ⟨e', List.mem_append_left _ he', hx⟩

theorem wf_tableOf (w : List (Sym8 × Code)) : (tableOf w).wf alphabetSize = true := by
  unfold tableOf
  induction w using List.reverseRecOn with
  | nil => rfl
  | append_singleton w e ih =>
    rw [List.foldl_append]
    exact Memory.wf_write _ e.1.isLt ih

/-- The table of a tree within its bounds is within its own (spec/10_state.md R27). -/
theorem codeOk_codeTable {t : HuffTree} (ht : t.leafCount ≤ 256) :
    codeOk (some (codeTable t)) := by
  rintro m ⟨⟩
  refine ⟨wf_tableOf _, fun x hx => ?_⟩
  obtain ⟨e, he, rfl⟩ := mem_tableOf hx
  have hlen := HuffTree.walk_length he
  rw [List.length_nil] at hlen
  show e.2.length ≤ 255
  omega

/-! ## SERIALIZE -/

theorem serializeQueue_kinds_length_le (fuel : Nat) (q : List HuffTree) :
    (serializeQueue fuel q).1.length ≤ fuel := by
  induction fuel generalizing q with
  | zero => rfl
  | succ fuel ih =>
    rcases q with _ | ⟨_ | ⟨l, r⟩, q⟩
    · exact Nat.zero_le _
    · exact Nat.succ_le_succ (ih q)
    · exact Nat.succ_le_succ (ih (q ++ [l, r]))

theorem serializeQueue_values_length_le (fuel : Nat) (q : List HuffTree) :
    (serializeQueue fuel q).2.length ≤ (q.map HuffTree.leafCount).sum := by
  induction fuel generalizing q with
  | zero => exact Nat.zero_le _
  | succ fuel ih =>
    rcases q with _ | ⟨_ | ⟨l, r⟩, q⟩
    · exact Nat.zero_le _
    · have := ih q
      simp only [serializeQueue, List.length_cons, List.map_cons, List.sum_cons,
        HuffTree.leafCount]
      omega
    · have := ih (q ++ [l, r])
      simp only [List.map_append, List.map_cons, List.map_nil, List.sum_append, List.sum_cons,
        List.sum_nil] at this
      simp only [serializeQueue, List.map_cons, List.sum_cons, HuffTree.leafCount]
      omega

theorem serializeTree_kinds_length_le {t : HuffTree} (ht : t.leafCount ≤ 256) :
    (serializeTree t).1.length ≤ kindsCap := by
  have hlen : (serializeTree t).1.length ≤ t.size := serializeQueue_kinds_length_le ..
  rw [t.size_eq] at hlen
  show _ ≤ 511
  omega

theorem serializeTree_values_length_le {t : HuffTree} (ht : t.leafCount ≤ 256) :
    (serializeTree t).2.length ≤ valuesCap := by
  have hlen := serializeQueue_values_length_le t.size [t]
  rw [List.map_singleton, List.sum_singleton] at hlen
  exact hlen.trans ht

/-! ## ENCODE and DECODE -/

theorem encodeBytes_length_le {table : Memory Code} {maxBits i n : Nat} {bs : List Byte}
    {bits : List Bool} (hn : n ≤ maxBits) (h : encodeBytes table maxBits i n bs = .ok bits) :
    n + bits.length ≤ maxBits := by
  induction bs generalizing i n bits with
  | nil =>
    obtain rfl := Except.ok.inj h
    exact hn
  | cons b bs ih =>
    rw [encodeBytes] at h
    split at h
    · cases h
    · split at h
      · cases h
      · split at h
        · cases h
        · rename_i hrec
          have hfits := ih (by omega) hrec
          obtain rfl := Except.ok.inj h
          rw [List.length_append]
          omega

theorem decodeWalk_length_le {root cur : HuffTree} {outCap m : Nat} {inside : Bool}
    {bits : List Bool} {o : List Sym8 × Bool} (hm : m ≤ outCap)
    (h : decodeWalk root outCap cur inside m bits = some o) : m + o.1.length ≤ outCap := by
  induction bits generalizing cur inside m o with
  | nil =>
    obtain rfl := Option.some.inj h
    exact hm
  | cons bit bits ih =>
    rw [decodeWalk] at h
    split at h
    · split at h
      · cases h
      · split at h
        · cases h
        · rename_i hrec
          have hfits := ih (by omega) hrec
          obtain rfl := Option.some.inj h
          rw [List.length_cons]
          omega
    · exact ih hm h

end Sys2Proof.Machine
end

section
/-! PROOFS. DESERIALIZE writes a tree of at most 256 leaves: its records form a forest with one record
for each entry of `KINDS`, and a tree read from a forest visits no record twice. -/

namespace Sys2Proof.Machine

/-! ## Forests of node records -/

/-- The children a record has so far. -/
def NodeRec.children : NodeRec → List Nat
  | .leaf _ => []
  | .internal left right => left.toList ++ right.toList

/-- Record `c` is attached to record `p`. -/
def childOf (nodes : List NodeRec) (p c : Nat) : Prop :=
  ∃ x, nodes[p]? = some x ∧ c ∈ x.children

/-- Records whose attached children are below `n`, come after their parent, and are attached once. -/
structure Forest (n : Nat) (nodes : List NodeRec) : Prop where
  bound : ∀ p c, childOf nodes p c → p < c ∧ c < n
  parent : ∀ p q c, childOf nodes p c → childOf nodes q c → p = q
  nodup : ∀ (p : Nat) (x : NodeRec), nodes[p]? = some x → x.children.Nodup

theorem Forest.mono {n m : Nat} {nodes : List NodeRec} (h : Forest n nodes) (hnm : n ≤ m) :
    Forest m nodes where
  bound p c hc := ⟨(h.bound p c hc).1, (h.bound p c hc).2.trans_le hnm⟩
  parent := h.parent
  nodup := h.nodup

theorem getElem?_append_singleton {nodes : List NodeRec} {x y : NodeRec} {p : Nat}
    (h : (nodes ++ [x])[p]? = some y) : nodes[p]? = some y ∨ y = x := by
  rw [List.getElem?_append] at h
  split at h
  · exact .inl h
  · exact .inr (List.mem_singleton.1 (List.mem_of_getElem? h))

/-- A record without children may join a forest. -/
theorem Forest.append {n : Nat} {nodes : List NodeRec} {x : NodeRec} (h : Forest n nodes)
    (hx : x.children = []) : Forest n (nodes ++ [x]) := by
  have hold : ∀ p c, childOf (nodes ++ [x]) p c → childOf nodes p c := by
    rintro p c ⟨y, hy, hc⟩
    rcases getElem?_append_singleton hy with hy | rfl
    · exact ⟨y, hy, hc⟩
    · simp [hx] at hc
  refine ⟨fun p c hc => h.bound p c (hold p c hc),
    fun p q c hp hq => h.parent p q c (hold p c hp) (hold q c hq), fun p y hy => ?_⟩
  rcases getElem?_append_singleton hy with hy | rfl
  · exact h.nodup p y hy
  · simp [hx]

/-- Record `x` has, beside some children of record `y`, the child `n` alone. -/
def AddsChild (n : Nat) (y x : NodeRec) : Prop :=
  (∀ c ∈ x.children, c = n ∨ c ∈ y.children) ∧
    (n ∉ y.children → y.children.Nodup → x.children.Nodup)

/-- Attaching the new record `n` to an earlier record keeps a forest. -/
theorem Forest.set {n p : Nat} {nodes : List NodeRec} {y x : NodeRec} (h : Forest n nodes)
    (hp : p < n) (hy : nodes[p]? = some y) (hx : AddsChild n y x) :
    Forest (n + 1) (nodes.set p x) := by
  have hnew : ∀ q c, childOf (nodes.set p x) q c → (q = p ∧ c = n) ∨ childOf nodes q c := by
    rintro q c ⟨z, hz, hc⟩
    rw [List.getElem?_set] at hz
    split at hz
    · subst q
      split at hz
      · obtain rfl := Option.some.inj hz
        exact (hx.1 c hc).imp (fun hcn => ⟨rfl, hcn⟩) fun hold => ⟨y, hy, hold⟩
      · cases hz
    · exact .inr ⟨z, hz, hc⟩
  have hfresh : ∀ q, ¬ childOf nodes q n := fun q hq => (h.bound q n hq).2.false
  refine ⟨fun q c hc => ?_, fun q r c hq hr => ?_, fun q z hz => ?_⟩
  · rcases hnew q c hc with ⟨rfl, rfl⟩ | hold
    · exact ⟨hp, Nat.lt_succ_self _⟩
    · exact ⟨(h.bound q c hold).1, (h.bound q c hold).2.trans (Nat.lt_succ_self n)⟩
  · rcases hnew q c hq with ⟨rfl, rfl⟩ | hq' <;> rcases hnew r c hr with ⟨rfl, hrc⟩ | hr'
    · rfl
    · exact absurd hr' (hfresh r)
    · exact absurd (hrc ▸ hq') (hfresh q)
    · exact h.parent q r c hq' hr'
  · rw [List.getElem?_set] at hz
    split at hz
    · split at hz
      · obtain rfl := Option.some.inj hz
        exact hx.2 (fun hn => hfresh p ⟨y, hy, hn⟩) (h.nodup p y hy)
      · cases hz
    · exact h.nodup q z hz

/-! ## The records DESERIALIZE builds -/

/-- After `n` entries there are `n` records, they form a forest, and the queue names some of them. -/
structure Built (n : Nat) (b : Building) : Prop where
  length : b.nodes.length = n
  forest : Forest n b.nodes
  queue : ∀ p ∈ b.queue, p < n

/-- Making a node adds a record without children, which may join the back of the queue. -/
theorem makeNode_ok {values : List Byte} {k : NodeKind} {b b' : Building}
    (h : makeNode values k b = .ok b') :
    ∃ x q, x.children = [] ∧ b'.nodes = b.nodes ++ [x] ∧ b'.queue = b.queue ++ q ∧
      ∀ p ∈ q, p = b.nodes.length := by
  cases k with
  | leaf =>
    rw [makeNode] at h
    split at h
    · cases h
    · obtain rfl := Except.ok.inj h
      exact ⟨_, [], rfl, rfl, by simp, by simp⟩
  | internal =>
    obtain rfl := Except.ok.inj h
    exact ⟨_, [b.nodes.length], rfl, rfl, rfl, by simp⟩

/-- The record made for entry `n` joins the forest unattached. -/
theorem Built.makeNode {n : Nat} {values : List Byte} {k : NodeKind} {b b' : Building}
    (hb : Built n b) (h : makeNode values k b = .ok b') :
    b'.nodes.length = n + 1 ∧ Forest n b'.nodes ∧ (∀ p ∈ b'.queue, p < n + 1) ∧
      ∃ q, b'.queue = b.queue ++ q := by
  obtain ⟨x, q, hx, hnodes, hqueue, hback⟩ := makeNode_ok h
  refine ⟨?_, hnodes ▸ hb.forest.append hx, fun p hp => ?_, q, hqueue⟩
  · rw [hnodes, List.length_append, hb.length]
    rfl
  · rw [hqueue, List.mem_append] at hp
    rcases hp with hp | hp
    · exact (hb.queue p hp).trans (Nat.lt_succ_self n)
    · rw [hback p hp, hb.length]
      exact Nat.lt_succ_self n

/-- Attaching changes nothing, or gives the front of the queue one more child. -/
theorem attach_cases {n p : Nat} {b : Building} {q : List Nat} (hq : b.queue = p :: q) :
    attach n b = b ∨
      ∃ y x, b.nodes[p]? = some y ∧ AddsChild n y x ∧ (attach n b).nodes = b.nodes.set p x ∧
        (attach n b).queue ⊆ b.queue := by
  unfold attach
  rw [hq]
  dsimp only
  split
  · rename_i r hp
    refine .inr ⟨_, _, hp, ⟨?_, ?_⟩, rfl, List.Subset.refl _⟩
    · simp [NodeRec.children]
    · exact fun hn hnodup => List.nodup_cons.2 ⟨hn, hnodup⟩
  · rename_i l r hp
    refine .inr ⟨_, _, hp, ⟨?_, ?_⟩, rfl, List.subset_cons_self p q⟩
    · simp [NodeRec.children]
    · intro hn _
      simp [NodeRec.children] at hn ⊢
      omega
  · exact .inl rfl
  · exact .inl rfl

/-- An entry after the first adds one record and attaches it to an earlier one. -/
theorem Built.parseEntry {n : Nat} {values : List Byte} {k : NodeKind} {b b' : Building}
    (hb : Built n b) (h : parseEntry values k b = .ok b') : Built (n + 1) b' := by
  unfold Machine.parseEntry at h
  split at h
  · cases h
  · rename_i p q hqueue
    split at h
    · cases h
    · rename_i c hc
      obtain rfl := Except.ok.inj h
      obtain ⟨hlen, hforest, hlt, q₂, hq₂⟩ := hb.makeNode hc
      have hfront : p < n := hb.queue p (hqueue ▸ List.mem_cons_self)
      rw [hb.length]
      rcases attach_cases (n := n) (hq₂.trans (by rw [hqueue]; rfl)) with
        heq | ⟨y, x, hy, hx, hset, hsub⟩
      · rw [heq]
        exact ⟨hlen, hforest.mono (Nat.le_succ n), hlt⟩
      · refine ⟨?_, ?_, fun j hj => hlt j (hsub hj)⟩
        · rw [hset, List.length_set, hlen]
        · rw [hset]
          exact hforest.set hfront hy hx

theorem Built.parseEntries {n : Nat} {values : List Byte} {ks : List NodeKind} {b b' : Building}
    (hb : Built n b) (h : parseEntries values ks b = .ok b') : Built (n + ks.length) b' := by
  induction ks generalizing n b with
  | nil =>
    obtain rfl := Except.ok.inj h
    exact hb
  | cons k ks ih =>
    rw [Machine.parseEntries] at h
    split at h
    · cases h
    · rename_i c hc
      have := ih (hb.parseEntry hc) h
      rwa [Nat.add_assoc, Nat.add_comm 1] at this

theorem built_empty : Built 0 ⟨[], [], 0⟩ where
  length := rfl
  forest := ⟨fun _ _ ⟨_, h, _⟩ => by simp at h, fun _ _ _ ⟨_, h, _⟩ => by simp at h,
    fun _ _ h => by simp at h⟩
  queue := by simp

/-- The first entry makes the root record, attached to nothing. -/
theorem built_root {values : List Byte} {k : NodeKind} {b : Building}
    (h : makeNode values k ⟨[], [], 0⟩ = .ok b) : Built 1 b := by
  obtain ⟨hlen, hforest, hlt, -⟩ := built_empty.makeNode h
  exact ⟨hlen, hforest.mono (Nat.zero_le 1), hlt⟩

theorem finishTree_ok {values : List Byte} {b : Building} {t : HuffTree}
    (h : finishTree values b = .ok t) : readTree b.nodes b.nodes.length 0 = some t := by
  unfold finishTree at h
  split at h
  · cases h
  · split at h
    · cases h
    · split at h
      · rename_i ht
        exact ht.trans (congrArg some (Except.ok.inj h))
      · cases h

/-- An accepted pair's tree is read from a forest with one record for each entry. -/
theorem deserializePair_ok {ks : List NodeKind} {vs : List Byte} {t : HuffTree}
    (h : deserializePair ks vs = .ok t) :
    ∃ b, Built ks.length b ∧ readTree b.nodes b.nodes.length 0 = some t := by
  unfold deserializePair at h
  split at h
  · cases h
  · split at h
    · cases h
    · rename_i hmake
      split at h
      · cases h
      · rename_i b' hparse
        refine ⟨b', ?_, finishTree_ok h⟩
        rw [List.length_cons, Nat.add_comm]
        exact (built_root hmake).parseEntries hparse

/-! ## Reading a tree from a forest -/

section
open Relation

theorem Forest.le_of_descendant {n p c : Nat} {nodes : List NodeRec} (h : Forest n nodes)
    (hc : ReflTransGen (childOf nodes) p c) : p ≤ c := by
  induction hc with
  | refl => exact le_rfl
  | tail _ hstep ih => exact ih.trans (h.bound _ _ hstep).1.le

/-- A child of `i` that descends from another child `l` of `i` is `l`: its one parent `i` would descend
from `l`, which comes after `i`. -/
theorem Forest.eq_of_siblings {n i l r : Nat} {nodes : List NodeRec} (h : Forest n nodes)
    (hl : childOf nodes i l) (hr : childOf nodes i r) (hlr : ReflTransGen (childOf nodes) l r) :
    r = l := by
  rcases hlr.cases_tail with rfl | ⟨j, hlj, hjr⟩
  · rfl
  · obtain rfl := h.parent i j r hr hjr
    exact absurd (h.le_of_descendant hlj) (h.bound i l hl).1.not_ge

/-- Nothing descends from two children of one record: of two ancestors of a record, one descends from
the other, as parents are unique. -/
theorem Forest.disjoint_descendants {n i l r j : Nat} {nodes : List NodeRec} (h : Forest n nodes)
    (hl : childOf nodes i l) (hr : childOf nodes i r) (hlj : ReflTransGen (childOf nodes) l j)
    (hrj : ReflTransGen (childOf nodes) r j) : l = r := by
  have hunique : Relator.RightUnique (Function.swap (childOf nodes)) :=
    fun c p q hp hq => h.parent p q c hp hq
  rcases ReflTransGen.total_of_right_unique hunique (reflTransGen_swap.2 hlj)
    (reflTransGen_swap.2 hrj) with hrl | hlr
  · exact h.eq_of_siblings hr hl (reflTransGen_swap.1 hrl)
  · exact (h.eq_of_siblings hl hr (reflTransGen_swap.1 hlr)).symm

/-- A tree read from record `i` of a forest has as many nodes as there are records it is read from, all
of them descending from `i`. -/
theorem Forest.readTree_records {n fuel i : Nat} {nodes : List NodeRec} {t : HuffTree}
    (h : Forest n nodes) (ht : readTree nodes fuel i = some t) :
    ∃ V : Finset Nat, V.card = t.size ∧
      ∀ j ∈ V, j < nodes.length ∧ ReflTransGen (childOf nodes) i j := by
  induction fuel generalizing i t with
  | zero => cases ht
  | succ fuel ih =>
    rw [readTree] at ht
    split at ht
    · rename_i hi
      obtain rfl := Option.some.inj ht
      have hlt := (List.getElem?_eq_some_iff.1 hi).1
      exact ⟨{i}, rfl, by simp [hlt, ReflTransGen.refl]⟩
    · rename_i l r hi
      have hlt := (List.getElem?_eq_some_iff.1 hi).1
      have hl : childOf nodes i l := ⟨_, hi, by simp [NodeRec.children]⟩
      have hr : childOf nodes i r := ⟨_, hi, by simp [NodeRec.children]⟩
      have hne : l ≠ r := by simpa [NodeRec.children] using h.nodup i _ hi
      split at ht
      · rename_i tl tr htl htr
        obtain rfl := Option.some.inj ht
        obtain ⟨Vl, hcl, hVl⟩ := ih htl
        obtain ⟨Vr, hcr, hVr⟩ := ih htr
        have hdisj : Disjoint Vl Vr := Finset.disjoint_left.2 fun j hjl hjr =>
          hne (h.disjoint_descendants hl hr (hVl j hjl).2 (hVr j hjr).2)
        have hroot : i ∉ Vl ∪ Vr := by
          intro hi'
          rcases Finset.mem_union.1 hi' with hi' | hi'
          · exact absurd (h.le_of_descendant (hVl i hi').2) (h.bound i l hl).1.not_ge
          · exact absurd (h.le_of_descendant (hVr i hi').2) (h.bound i r hr).1.not_ge
        refine ⟨insert i (Vl ∪ Vr), ?_, fun j hj => ?_⟩
        · rw [Finset.card_insert_of_notMem hroot, Finset.card_union_of_disjoint hdisj, hcl, hcr,
            HuffTree.size]
          omega
        · rcases Finset.mem_insert.1 hj with rfl | hj
          · exact ⟨hlt, .refl⟩
          · rcases Finset.mem_union.1 hj with hj | hj
            · exact ⟨(hVl j hj).1, (hVl j hj).2.head hl⟩
            · exact ⟨(hVr j hj).1, (hVr j hj).2.head hr⟩
      · cases ht
    · cases ht

end

theorem Forest.size_le_of_readTree {n fuel i : Nat} {nodes : List NodeRec} {t : HuffTree}
    (h : Forest n nodes) (ht : readTree nodes fuel i = some t) : t.size ≤ nodes.length := by
  obtain ⟨V, hcard, hV⟩ := h.readTree_records ht
  have hsub : V ⊆ Finset.range nodes.length := fun j hj => Finset.mem_range.2 (hV j hj).1
  calc t.size = V.card := hcard.symm
    _ ≤ (Finset.range nodes.length).card := Finset.card_le_card hsub
    _ = nodes.length := Finset.card_range _

/-- The bound on `KINDS` bounds the tree: `2n - 1` nodes in 511 entries (spec/10_state.md R24). -/
theorem deserializePair_leafCount_le {ks : List NodeKind} {vs : List Byte} {t : HuffTree}
    (hks : ks.length ≤ kindsCap) (h : deserializePair ks vs = .ok t) : t.leafCount ≤ 256 := by
  obtain ⟨b, hb, ht⟩ := deserializePair_ok h
  have hsize : t.size ≤ 511 := calc
    t.size ≤ b.nodes.length := hb.forest.size_le_of_readTree ht
    _ = ks.length := hb.length
    _ ≤ 511 := hks
  rw [t.size_eq] at hsize
  omega

end Sys2Proof.Machine
end

section
/-! PROOFS. The invariant: it holds at reset, every command, every host write and the reset input keep it,
and so does every step. -/

namespace Sys2Proof.Machine

/-! ## Reset -/

theorem sound_resetWith {c : Config} (hc : c.wf = true) : Sound (State.resetWith c) where
  cfg := hc
  tree := nofun
  freq := rfl
  code := nofun
  kinds := rfl
  values := rfl
  inp := rfl
  pk := rfl
  out := rfl
  outLen := Nat.zero_le _
  outWritten := rfl
  rootWeight _ := rfl

/-- Settles O56: the empty stores meet every bound, and the default parameters are within theirs. -/
theorem invariantHoldsAtReset : Obligations.InvariantHoldsAtReset :=
  ⟨sound_resetWith (by decide), fun _ hc => sound_resetWith hc, rfl⟩

/-! ## The named updates

`{ h with … }` takes over every bound on a store that the update leaves alone. -/

section
variable {s : State} (h : Sound s)
include h

theorem Sound.report (k : ErrKind) (info : Word) (p : Bool) : Sound (report k info p s) := { h with }

theorem Sound.respond (r : Response) : Sound (respond r s) := { h with }

theorem Sound.setPending (rest : List Transaction) : Sound { s with pending := rest } := { h with }

theorem Sound.resetInput : Sound (resetInput s) := { sound_resetWith h.cfg with }

/-- Emptying the outputs of a command keeps every bound on them. -/
theorem Sound.invalidate (i : Instr) : Sound (invalidate i s) := by
  cases i with
  | freq => exact { h with freq := rfl }
  | build => exact { h with tree := nofun, rootWeight := fun _ => rfl }
  | gencode => exact { h with code := nofun }
  | serialize => exact { h with kinds := rfl, values := rfl }
  | deserialize => exact { h with tree := nofun, rootWeight := fun _ => rfl }
  | encode => exact { h with pk := rfl }
  | decode => exact { h with out := rfl, outLen := Nat.zero_le _, outWritten := rfl }

theorem Sound.aborted (i : Instr) (k : ErrKind) (info : Word) : Sound (aborted i k info s) :=
  (h.invalidate i).report k info false

theorem Sound.writeFreq {m : Memory Word} (hm : freqWf m = true) : Sound (writeFreq m s) :=
  { h with freq := hm }

theorem Sound.writeTree {t : HuffTree} (ht : t.leafCount ≤ 256) (w : Weight) :
    Sound (writeTree t w s) :=
  { h with
    tree := fun _ hu => Option.some.inj hu ▸ ht
    rootWeight := nofun }

theorem Sound.writeCode {m : Memory Code} (hm : codeOk (some m)) : Sound (writeCode m s) :=
  { h with code := hm }

theorem Sound.writePair {ks : List NodeKind} {vs : List Byte} (hks : ks.length ≤ kindsCap)
    (hvs : vs.length ≤ valuesCap) : Sound (writePair ks vs s) :=
  { h with
    kinds := Memory.wf_fill hks h.kinds
    values := Memory.wf_fill hvs h.values }

/-- The bits, padded to whole bytes, fit `PK` when they do unpadded. -/
theorem Sound.writePacked {bits : List Bool} (hbits : bits.length ≤ 8 * s.cfg.pkCap.toNat) :
    Sound (writePacked bits s) := by
  have hbytes : (packBytes (padBits bits)).length ≤ s.cfg.pkCap.toNat := by
    rw [packBytes_length, padBits_length]
    omega
  exact { h with pk := Memory.wf_fill hbytes h.pk }

/-- The new live cells of `OUT` are the ones just written. -/
theorem Sound.writeOut {syms : List Sym8} (hsyms : syms.length ≤ s.cfg.outCap.toNat) :
    Sound (writeOut syms s) := by
  have hlen : (Machine.writeOut syms s).outLen.toNat = syms.length :=
    Nat.mod_eq_of_lt (hsyms.trans_lt s.cfg.outCap.isLt)
  refine { h with
    out := Memory.wf_fill hsyms h.out
    outLen := hlen.trans_le hsyms
    outWritten := ?_ }
  rw [hlen, Memory.writtenBelow_iff]
  intro j hj
  exact ⟨syms[j], by rw [writeOut_out, Memory.read_fill, if_pos hj, List.getElem?_eq_getElem hj]⟩

/-! ## Commands -/

/-- Every command keeps the invariant, however it ends. -/
theorem Sound.exec {i : Instr} {t : State} (hexec : exec i s = .next t) : Sound t := by
  cases ends_of_exec hexec with
  | abort _ => exact h.aborted i _ _
  | freq => exact (h.writeFreq (freqWf_countBytes _)).report ..
  | build hroot => exact (h.writeTree (buildRoot_leafCount_le hroot) _).report ..
  | gencode hu => exact (h.writeCode (codeOk_codeTable (h.tree _ hu))).report ..
  | serialize hu =>
    have hleaves := h.tree _ hu
    exact (h.writePair (serializeTree_kinds_length_le hleaves)
      (serializeTree_values_length_le hleaves)).report ..
  | deserialize hlen hu =>
    have hks : s.kindsIn.length ≤ kindsCap := (liveKinds_length ..).trans_le hlen
    exact (h.writeTree (deserializePair_leafCount_le hks hu) 0).report ..
  | encode _ hbits =>
    have hfit := encodeBytes_length_le (Nat.zero_le _) hbits
    exact (h.writePacked (by omega)).report ..
  | decodeLeaf _ hle => exact (h.writeOut (List.length_replicate.trans_le hle)).report ..
  | decodeWalk _ ho =>
    have hfit := decodeWalk_length_le (Nat.zero_le _) ho
    exact (h.writeOut (by omega)).report ..

theorem Sound.runCommand {w : Word} {t : State} (hrun : runCommand w s = .next t) : Sound t := by
  rcases runCommand_cases w s with ⟨_, -, heq⟩ | ⟨i, -, hi⟩
  · obtain rfl := Host.Outcome.next.inj (heq.symm.trans hrun)
    exact (h.report .illegalCommand 0 false).respond .ok
  · obtain ⟨u, hu, -⟩ := exec_ends i s
    obtain rfl := Host.Outcome.next.inj ((hi u hu).symm.trans hrun)
    exact (h.exec hu).respond .ok

end

/-! ## Host writes -/

section
variable (i v : Word) (s : State)

/-! A write looks up its register, or checks its data and then its index (spec/20_memory.md R63, R64). -/

theorem writeSpace_inp : writeSpace .inp i v s = (byteOfData v).bind fun b =>
    if i.toNat < s.cfg.inCap.toNat then some { s with inp := s.inp.write i.toNat b } else none := by
  rw [writeSpace]
  cases byteOfData v <;> rfl

theorem writeSpace_kinds : writeSpace .kinds i v s = (kindOfData v).bind fun k =>
    if i.toNat < kindsCap then some { s with kinds := s.kinds.write i.toNat k } else none := by
  rw [writeSpace]
  cases kindOfData v <;> rfl

theorem writeSpace_values : writeSpace .values i v s = (byteOfData v).bind fun b =>
    if i.toNat < valuesCap then some { s with values := s.values.write i.toNat b } else none := by
  rw [writeSpace]
  cases byteOfData v <;> rfl

theorem writeSpace_pk : writeSpace .pk i v s = (byteOfData v).bind fun b =>
    if i.toNat < s.cfg.pkCap.toNat then some { s with pk := s.pk.write i.toNat b } else none := by
  rw [writeSpace]
  cases byteOfData v <;> rfl

theorem writeSpace_reg :
    writeSpace .reg i v s = (registerAt i).bind fun r => writeRegister r v s := by
  rw [writeSpace]
  cases registerAt i <;> rfl

end

section
variable {s : State} (h : Sound s)
include h

/-- A register write stores a length of an input, on which no bound is set. -/
theorem Sound.writeRegister {r : Register} {v : Word} {t : State}
    (hw : writeRegister r v s = some t) : Sound t := by
  cases r with
  | inLen | pkLen | bitCount | symCount | kindsLen | valuesLen =>
    obtain rfl := Option.some.inj hw
    exact { h with }
  | _ => cases hw

theorem Sound.writeSpace {sp : Space} {i v : Word} {t : State}
    (hw : writeSpace sp i v s = some t) : Sound t := by
  cases sp with
  | reg =>
    obtain ⟨r, -, hr⟩ := Option.bind_eq_some_iff.1 (writeSpace_reg .. ▸ hw)
    exact h.writeRegister hr
  | inp =>
    obtain ⟨b, -, hb⟩ := Option.bind_eq_some_iff.1 (writeSpace_inp .. ▸ hw)
    obtain ⟨hi, ⟨⟩⟩ := Option.ite_none_right_eq_some.1 hb
    exact { h with inp := Memory.wf_write b hi h.inp }
  | freq =>
    obtain ⟨-, ⟨⟩⟩ := Option.ite_none_right_eq_some.1 hw
    exact { h with freq := freqWf_setCount _ _ h.freq }
  | kinds =>
    obtain ⟨k, -, hk⟩ := Option.bind_eq_some_iff.1 (writeSpace_kinds .. ▸ hw)
    obtain ⟨hi, ⟨⟩⟩ := Option.ite_none_right_eq_some.1 hk
    exact { h with kinds := Memory.wf_write k hi h.kinds }
  | values =>
    obtain ⟨b, -, hb⟩ := Option.bind_eq_some_iff.1 (writeSpace_values .. ▸ hw)
    obtain ⟨hi, ⟨⟩⟩ := Option.ite_none_right_eq_some.1 hb
    exact { h with values := Memory.wf_write b hi h.values }
  | pk =>
    obtain ⟨b, -, hb⟩ := Option.bind_eq_some_iff.1 (writeSpace_pk .. ▸ hw)
    obtain ⟨hi, ⟨⟩⟩ := Option.ite_none_right_eq_some.1 hb
    exact { h with pk := Memory.wf_write b hi h.pk }
  | out | codeInfo | codeWord => cases hw

theorem Sound.hostWrite (space : BitVec 4) (i v : Word) : Sound (hostWrite space i v s).1 := by
  rcases hostWrite_cases space i v s with heq | ⟨sp, t, -, ht, heq⟩
  · rwa [heq]
  · rw [heq]
    exact h.writeSpace ht

/-! ## Steps -/

/-- Every transaction keeps the invariant. -/
theorem Sound.serve {x : Transaction} {t : State} (hserve : serve x s = .next t) : Sound t := by
  cases x with
  | read space i =>
    obtain rfl := Host.Outcome.next.inj hserve
    exact h.respond _
  | write space i v =>
    rw [Machine.serve] at hserve
    split at hserve
    · exact h.runCommand hserve
    · obtain rfl := Host.Outcome.next.inj hserve
      exact (h.hostWrite space i v).respond _
  | reset =>
    obtain rfl := Host.Outcome.next.inj hserve
    exact h.resetInput

end

/-- Settles O57: an idle step keeps all state, any other serves the first pending transaction. -/
theorem everyStepKeepsTheInvariant : Obligations.EveryStepKeepsTheInvariant := by
  intro s t h hstep
  cases hp : s.pending with
  | nil =>
    obtain rfl := Host.Outcome.next.inj ((step_idle s hp).symm.trans hstep)
    exact h
  | cons x rest =>
    rw [step_pending hp] at hstep
    exact (h.setPending rest).serve hstep

end Sys2Proof.Machine
end

section
/-! PROOFS. The fields of `STATUS`, and what reset leaves. -/

namespace Sys2Proof.Machine

/-! ## The status register -/

/-- The bits of `STATUS` above the error kind: four flags, then zeros (spec/10_state.md R43). -/
theorem status_flags (s : State) (j : Nat) :
    s.status.getLsbD (4 + j) = [s.tv, s.cv, s.single, s.partialFlag].getD j false := by
  have happend : s.status.getLsbD (4 + j) = BitVec.getLsbD (w := 24 + 1 + 1 + 1 + 1 + 4)
    (0#24 ++ BitVec.ofBool s.partialFlag ++ BitVec.ofBool s.single ++ BitVec.ofBool s.cv
      ++ BitVec.ofBool s.tv ++ s.err.toCode) (4 + j) := rfl
  rw [happend]
  simp only [BitVec.getLsbD_append]
  match j with
  | 0 | 1 | 2 | 3 => simp
  | j + 4 => simp

theorem status_zeros (s : State) : s.status.extractLsb' 8 24 = 0 := by
  refine BitVec.eq_of_getLsbD_eq fun j hj => ?_
  rw [BitVec.getLsbD_extractLsb', show 8 + j = 4 + (j + 4) by omega, status_flags]
  simp

/-- `STATUS` is 0 without an error, a tree, a table and `PARTIAL`. -/
theorem status_eq_zero {s : State} (herr : s.err = .noError) (htree : s.tree = none)
    (hcode : s.code = none) (hpartial : s.partialFlag = false) : s.status = 0 := by
  simp only [State.status, State.tv, State.cv, State.single, herr, htree, hcode, hpartial]
  rfl

theorem tv_iff (s : State) : s.tv = true ↔ ∃ t, s.tree = some t := Option.isSome_iff_exists

theorem cv_iff (s : State) : s.cv = true ↔ ∃ m, s.code = some m := Option.isSome_iff_exists

theorem single_iff (s : State) : s.single = true ↔ ∃ b, s.tree = some (.leaf b) := by
  unfold State.single
  rcases s.tree with _ | ⟨b⟩ | ⟨l, r⟩ <;> simp [HuffTree.isLeaf]

/-- Settles O48: each flag is read off the layout of `STATUS` and says what its store holds. -/
theorem statusReportsTheStores : Obligations.StatusReportsTheStores := by
  intro s
  have htv : s.status.getLsbD 4 = s.tv := status_flags s 0
  have hcv : s.status.getLsbD 5 = s.cv := status_flags s 1
  have hsingle : s.status.getLsbD 6 = s.single := status_flags s 2
  refine ⟨?_, htv ▸ tv_iff s, hcv ▸ cv_iff s, hsingle ▸ single_iff s, status_flags s 3,
    status_zeros s⟩
  rw [status_err]
  cases s.err <;> rfl

/-! ## Reset -/

/-- Both resets leave the reset state of some parameters, up to the model's own counter and the host's
pending transactions; the reset input keeps the parameters. -/
theorem reset_cases {s t : State} (h : t = State.reset ∨ serve .reset s = .next t) :
    ∃ c n p, t = { State.resetWith c with tick := n, pending := p } := by
  rcases h with rfl | h
  · exact ⟨Config.default, 0, [], rfl⟩
  · exact ⟨s.cfg, s.tick + 1, s.pending, (Host.Outcome.next.inj h).symm⟩

theorem serve_reset_cfg {s t : State} (h : serve .reset s = .next t) : t.cfg = s.cfg := by
  obtain rfl := Host.Outcome.next.inj h
  rfl

/-- Settles O54: every register and store of `State.resetWith` is literally empty. -/
theorem resetClearsEverything : Obligations.ResetClearsEverything := by
  intro s t h
  obtain ⟨c, n, p, rfl⟩ := reset_cases h
  exact ⟨status_eq_zero rfl rfl rfl rfl, rfl, rfl, rfl, rfl, rfl, rfl, rfl, rfl, rfl,
    fun _ => rfl, rfl, rfl, fun _ => ⟨rfl, rfl, rfl, rfl, rfl⟩, rfl, rfl, rfl, serve_reset_cfg⟩

end Sys2Proof.Machine
end

section
/-! PROOFS. The host port: each space and register by its number, which accesses fault, and what a
transaction answers and changes. -/

namespace Sys2Proof.Machine

/-! ## Spaces and registers by number -/

theorem spaceAt_number (sp : Space) : spaceAt sp.number = some sp := by cases sp <;> rfl

theorem eq_number_of_spaceAt {n : BitVec 4} {sp : Space} (h : spaceAt n = some sp) :
    n = sp.number := by
  unfold spaceAt at h
  split at h <;> cases h
  all_goals exact BitVec.eq_of_toNat_eq ‹_›

theorem lt_of_spaceAt_eq_none {n : BitVec 4} (h : spaceAt n = none) : 8 < n.toNat := by
  unfold spaceAt at h
  split at h <;> cases h
  simp only [imp_false] at *
  omega

/-- A space number is that of a space or above 8 (spec/20_memory.md R61). -/
theorem space_cases (n : BitVec 4) :
    (∃ sp : Space, n = sp.number) ∨ (8 < n.toNat ∧ spaceAt n = none) := by
  cases h : spaceAt n with
  | none => exact .inr ⟨lt_of_spaceAt_eq_none h, rfl⟩
  | some sp => exact .inl ⟨sp, eq_number_of_spaceAt h⟩

theorem registerAt_number (r : Register) : registerAt r.number = some r := by cases r <;> rfl

theorem eq_number_of_registerAt {n : Word} {r : Register} (h : registerAt n = some r) :
    n = r.number := by
  unfold registerAt at h
  split at h <;> cases h
  all_goals exact BitVec.eq_of_toNat_eq ‹_›

theorem lt_of_registerAt_eq_none {n : Word} (h : registerAt n = none) : 14 < n.toNat := by
  unfold registerAt at h
  split at h <;> cases h
  simp only [imp_false] at *
  omega

/-- An index of the register space is the number of a register or above 14 (spec/10_state.md R46). -/
theorem register_cases (n : Word) :
    (∃ r : Register, n = r.number) ∨ (14 < n.toNat ∧ registerAt n = none) := by
  cases h : registerAt n with
  | none => exact .inr ⟨lt_of_registerAt_eq_none h, rfl⟩
  | some r => exact .inl ⟨r, eq_number_of_registerAt h⟩

/-! ## Data and cells -/

theorem byteOfData_of_le {v : Word} (hv : v.toNat ≤ 255) : byteOfData v = some (v.setWidth 8) :=
  if_pos hv

theorem byteOfData_eq_none_iff {v : Word} : byteOfData v = none ↔ 255 < v.toNat := by
  simp [byteOfData]

theorem kindOfData_of_le {v : Word} (h : v.toNat ≤ 1) :
    kindOfData v = some (if v = 1 then .internal else .leaf) := by
  have hv : v = 0 ∨ v = 1 := by bv_omega
  rcases hv with rfl | rfl <;> rfl

theorem kindOfData_eq_none_iff {v : Word} : kindOfData v = none ↔ 1 < v.toNat := by
  refine ⟨fun h => ?_, fun h => ?_⟩
  · by_contra hle
    rw [kindOfData_of_le (by omega)] at h
    cases h
  · unfold kindOfData
    split
    · omega
    · omega
    · rfl

theorem countAt_setCount (m : Memory Word) (b c : Sym8) (v : Word) :
    countAt (setCount m b v) c = if c = b then v else countAt m c := by
  split
  · subst c
    exact countAt_setCount_same m b v
  · exact countAt_setCount_ne m v ‹_›

theorem cellWord_of_read {m : Memory Byte} {j : Nat} {b : Byte} (h : m.read j = some b)
    (tick : Nat) : cellWord m tick j = b.setWidth 32 := by
  rw [cellWord, h]

theorem kindWord_of_read {m : Memory NodeKind} {j : Nat} {k : NodeKind} (h : m.read j = some k)
    (tick : Nat) : kindWord m tick j = if k = .internal then 1 else 0 := by
  rw [kindWord, h]
  cases k <;> rfl

/-- The upper 8 bits of a weight, the register `ROOT_WEIGHT_HI`. -/
theorem setWidth_shiftRight_eq_extract (w : Weight) :
    (w >>> 32).setWidth 32 = (w.extractLsb' 32 8).setWidth 32 := by
  refine BitVec.eq_of_toNat_eq ?_
  have := w.isLt
  simp only [BitVec.toNat_setWidth, BitVec.toNat_ushiftRight, BitVec.extractLsb'_toNat,
    Nat.shiftRight_eq_div_pow]
  omega

/-! ## What a transaction of a space answers -/

/-- Data within its range, then an index within the space. -/
theorem guarded_eq_none_iff {α β : Type} {o : Option α} {p : Prop} [Decidable p] {f : α → β} :
    (o.bind fun a => if p then some (f a) else none) = none ↔ ¬ p ∨ o = none := by
  cases o <;> simp

theorem guarded_eq_some {α β : Type} {o : Option α} {a : α} {p : Prop} [Decidable p] {f : α → β}
    (ho : o = some a) (hp : p) :
    (o.bind fun a => if p then some (f a) else none) = some (f a) := by
  rw [ho, Option.bind_some, if_pos hp]

section
variable (sp : Space) (i v : Word) (s : State)

theorem hostRead_number :
    hostRead sp.number i s = (readSpace sp i s).elim .fault .value := by
  rw [hostRead, spaceAt_number]
  dsimp only
  cases readSpace sp i s <;> rfl

theorem hostWrite_number :
    hostWrite sp.number i v s = (writeSpace sp i v s).elim (s, .fault) (·, .ok) := by
  rw [hostWrite, spaceAt_number]
  dsimp only
  cases writeSpace sp i v s <;> rfl

theorem readSpace_reg : readSpace .reg i s = (registerAt i).bind fun r => readRegister r s := by
  rw [readSpace]
  cases registerAt i <;> rfl

theorem hostRead_register (r : Register) :
    hostRead 0 r.number s = (readRegister r s).elim .fault .value := by
  refine (hostRead_number .reg r.number s).trans ?_
  rw [readSpace_reg, registerAt_number, Option.bind_some]

theorem hostWrite_register (r : Register) :
    hostWrite 0 r.number v s = (writeRegister r v s).elim (s, .fault) (·, .ok) := by
  refine (hostWrite_number .reg r.number v s).trans ?_
  rw [writeSpace_reg, registerAt_number, Option.bind_some]

theorem readSpace_codeInfo : readSpace .codeInfo i s = s.code.bind fun m =>
    if i.toNat < alphabetSize then some (codeInfo (codeOf m (i.setWidth 8))) else none := by
  rw [readSpace]
  cases s.code <;> rfl

theorem readSpace_codeWord : readSpace .codeWord i s = s.code.bind fun m =>
    if i.toNat < 8 * alphabetSize then
      some (codeWord (codeOf m (BitVec.ofNat 8 (i.toNat / 8))) (i.toNat % 8))
    else none := by
  rw [readSpace]
  cases s.code <;> rfl

end

theorem hostRead_of_readSpace {sp : Space} {i w : Word} {s : State}
    (h : readSpace sp i s = some w) : hostRead sp.number i s = .value w := by
  rw [hostRead_number, h]
  rfl

/-- A written byte is read zero-extended. -/
theorem hostRead_byteCell {sp : Space} {m : Memory Byte} {i : Word} {b : Byte} {s : State}
    (h : readSpace sp i s = some (cellWord m s.tick i.toNat)) (hb : m.read i.toNat = some b) :
    hostRead sp.number i s = .value (b.setWidth 32) :=
  cellWord_of_read hb s.tick ▸ hostRead_of_readSpace h

theorem hostRead_fault_or_value (space : BitVec 4) (i : Word) (s : State) :
    hostRead space i s = .fault ∨ ∃ w, hostRead space i s = .value w := by
  rcases space_cases space with ⟨sp, rfl⟩ | ⟨-, hnone⟩
  · rw [hostRead_number]
    cases readSpace sp i s with
    | none => exact .inl rfl
    | some w => exact .inr ⟨w, rfl⟩
  · rw [hostRead, hnone]
    exact .inl rfl

theorem isCommand_iff {space : BitVec 4} {i : Word} :
    isCommand space i = true ↔ space = 0 ∧ i = 0 := by
  simp [isCommand]

theorem isCommand_eq_false_iff {space : BitVec 4} {i : Word} :
    isCommand space i = false ↔ space ≠ 0 ∨ i ≠ 0 := by
  rw [← Bool.not_eq_true, isCommand_iff, not_and_or]

/-- A command is answered `Ok`, whether its word is legal or not and its operation succeeds or aborts. -/
theorem runCommand_ok (w : Word) (s : State) :
    ∃ t, runCommand w s = .next t ∧ t.response = some .ok := by
  rcases runCommand_cases w s with ⟨_, -, heq⟩ | ⟨i, -, hi⟩
  · exact ⟨_, heq, rfl⟩
  · obtain ⟨u, hu, -⟩ := exec_ends i s
    exact ⟨_, hi u hu, rfl⟩

/-! ## The faults -/

theorem readRegister_eq_none_iff {r : Register} {s : State} :
    readRegister r s = none ↔ r = .cmd := by
  cases r <;> simp [readRegister]

theorem readSpace_eq_none_iff (sp : Space) (i : Word) (s : State) :
    readSpace sp i s = none ↔ readFaults sp.number i s := by
  cases sp with
  | reg =>
    show _ ↔ i.toNat = 0 ∨ 14 < i.toNat
    rw [readSpace_reg]
    rcases register_cases i with ⟨r, rfl⟩ | ⟨hi, hnone⟩
    · rw [registerAt_number, Option.bind_some, readRegister_eq_none_iff]
      cases r <;> decide
    · simp [hnone, hi]
  | codeInfo =>
    rw [readSpace_codeInfo, guarded_eq_none_iff]
    simp [readFaults, Space.number, State.cv, or_comm]
  | codeWord =>
    rw [readSpace_codeWord, guarded_eq_none_iff]
    simp [readFaults, Space.number, State.cv, alphabetSize, or_comm]
  | inp | freq | kinds | values | pk | out => simp [readSpace, readFaults, Space.number]

theorem readFaults_of_lt {space : BitVec 4} (h : 8 < space.toNat) (i : Word) (s : State) :
    readFaults space i s := by
  obtain ⟨k, hk⟩ : ∃ k, space.toNat = k + 9 := Nat.exists_eq_add_of_le' h
  rw [readFaults, hk]
  trivial

/-- A read faults in the cases of spec/20_memory.md R68 and in no other. -/
theorem hostRead_eq_fault_iff (space : BitVec 4) (i : Word) (s : State) :
    hostRead space i s = .fault ↔ readFaults space i s := by
  rcases space_cases space with ⟨sp, rfl⟩ | ⟨hspace, hnone⟩
  · rw [hostRead_number, ← readSpace_eq_none_iff]
    cases readSpace sp i s <;> simp
  · rw [hostRead, hnone]
    exact iff_of_true rfl (readFaults_of_lt hspace i s)

theorem writeRegister_eq_none_iff {r : Register} (v : Word) (s : State) (hr : r ≠ .cmd) :
    writeRegister r v s = none ↔ r.number.toNat ∉ [0x00, 0x03, 0x04, 0x05, 0x06, 0x08, 0x09] := by
  cases r with
  | cmd => exact absurd rfl hr
  | _ => simp [writeRegister, Register.number]

theorem writeFaults_reg_of_lt {i : Word} (hi : 14 < i.toNat) (v : Word) (s : State) :
    writeFaults 0 i v s := by
  intro hmem
  have hle : ∀ k ∈ [0x00, 0x03, 0x04, 0x05, 0x06, 0x08, 0x09], k ≤ 14 := by decide
  exact absurd (hle _ hmem) (by omega)

/-- A write to `CMD` is a command, which `writeSpace` does not see. -/
theorem writeSpace_eq_none_iff {sp : Space} {i : Word} (v : Word) (s : State)
    (h : isCommand sp.number i = false) :
    writeSpace sp i v s = none ↔ writeFaults sp.number i v s := by
  cases sp with
  | reg =>
    show _ ↔ i.toNat ∉ [0x00, 0x03, 0x04, 0x05, 0x06, 0x08, 0x09]
    rw [writeSpace_reg]
    rcases register_cases i with ⟨r, rfl⟩ | ⟨hi, hnone⟩
    · rw [registerAt_number, Option.bind_some, writeRegister_eq_none_iff]
      rintro rfl
      cases h
    · exact iff_of_true (by rw [hnone]; rfl) (writeFaults_reg_of_lt hi v s)
  | inp | kinds | values | pk =>
    simp only [writeSpace_inp, writeSpace_kinds, writeSpace_values, writeSpace_pk,
      guarded_eq_none_iff, byteOfData_eq_none_iff, kindOfData_eq_none_iff, not_lt]
    rfl
  | freq => simp [writeSpace, writeFaults, Space.number]
  | out | codeInfo | codeWord => exact iff_of_true rfl trivial

theorem writeFaults_of_lt {space : BitVec 4} (h : 8 < space.toNat) (i v : Word) (s : State) :
    writeFaults space i v s := by
  obtain ⟨k, hk⟩ : ∃ k, space.toNat = k + 9 := Nat.exists_eq_add_of_le' h
  rw [writeFaults, hk]
  trivial

/-- A write that is no command faults in the cases of spec/20_memory.md R68 and in no other. -/
theorem hostWrite_eq_fault_iff {space : BitVec 4} {i : Word} (v : Word) (s : State)
    (h : isCommand space i = false) :
    (hostWrite space i v s).2 = .fault ↔ writeFaults space i v s := by
  rcases space_cases space with ⟨sp, rfl⟩ | ⟨hspace, hnone⟩
  · rw [hostWrite_number, ← writeSpace_eq_none_iff v s h]
    cases writeSpace sp i v s <;> simp
  · rw [hostWrite, hnone]
    exact iff_of_true rfl (writeFaults_of_lt hspace i v s)

theorem hostWrite_of_fault {space : BitVec 4} {i v : Word} {s : State}
    (h : (hostWrite space i v s).2 = .fault) : hostWrite space i v s = (s, .fault) := by
  rcases hostWrite_cases space i v s with heq | ⟨_, t, -, -, heq⟩
  · exact heq
  · rw [heq] at h
    cases h

/-! ## The writes -/

/-- A write that its space takes is served and answered `Ok`. -/
theorem serve_write_of_writeSpace {sp : Space} {i v : Word} {s t : State}
    (h : writeSpace sp i v s = some t) (hc : isCommand sp.number i = false) :
    serve (.write sp.number i v) s = .next (respond .ok t) := by
  rw [serve_write hc, hostWrite_number, h]
  rfl

theorem serve_write_of_fault {space : BitVec 4} {i v : Word} {s : State}
    (hc : isCommand space i = false) (h : writeFaults space i v s) :
    serve (.write space i v) s = .next (respond .fault s) := by
  rw [serve_write hc, hostWrite_of_fault ((hostWrite_eq_fault_iff v s hc).2 h)]

/-- A command is never answered `Fault`. -/
theorem runCommand_ne_fault {w : Word} {s t : State} (h : runCommand w s = .next t) :
    t.response ≠ some .fault := by
  obtain ⟨u, hu, hok⟩ := runCommand_ok w s
  obtain rfl := Host.Outcome.next.inj (hu.symm.trans h)
  simp [hok]

section
variable {i v : Word} {s : State}

theorem writeSpace_inp_of_lt (hi : i.toNat < s.cfg.inCap.toNat) (hv : v.toNat ≤ 255) :
    writeSpace .inp i v s = some { s with inp := s.inp.write i.toNat (v.setWidth 8) } :=
  (writeSpace_inp ..).trans (guarded_eq_some (byteOfData_of_le hv) hi)

theorem writeSpace_kinds_of_lt (hi : i.toNat < 511) (hv : v.toNat ≤ 1) :
    writeSpace .kinds i v s = some { s with
      kinds := s.kinds.write i.toNat (if v = 1 then .internal else .leaf) } :=
  (writeSpace_kinds ..).trans (guarded_eq_some (kindOfData_of_le hv) hi)

theorem writeSpace_values_of_lt (hi : i.toNat < 256) (hv : v.toNat ≤ 255) :
    writeSpace .values i v s
      = some { s with values := s.values.write i.toNat (v.setWidth 8) } :=
  (writeSpace_values ..).trans (guarded_eq_some (byteOfData_of_le hv) hi)

theorem writeSpace_pk_of_lt (hi : i.toNat < s.cfg.pkCap.toNat) (hv : v.toNat ≤ 255) :
    writeSpace .pk i v s = some { s with pk := s.pk.write i.toNat (v.setWidth 8) } :=
  (writeSpace_pk ..).trans (guarded_eq_some (byteOfData_of_le hv) hi)

theorem writeSpace_freq_of_lt (hi : i.toNat < 256) :
    writeSpace .freq i v s = some { s with freq := setCount s.freq (i.setWidth 8) v } :=
  if_pos hi

end

/-! ## Faults, registers, buffers and `OUT` -/

/-- Settles O53: a fault is decided by the access alone, and a command is never one. -/
theorem accessFaultsExactlyAndChangeNothing : Obligations.AccessFaultsExactlyAndChangeNothing := by
  refine ⟨fun s space i t h => ?_, fun s space i v t h => ?_, fun s x t h hfault => ?_⟩
  · obtain rfl := Host.Outcome.next.inj h
    rw [respond_response, Option.some_inj, hostRead_eq_fault_iff]
  · cases hc : isCommand space i with
    | true =>
      obtain ⟨rfl, rfl⟩ := isCommand_iff.1 hc
      exact iff_of_false (runCommand_ne_fault h) (by simp [writeFaults])
    | false =>
      obtain rfl := Host.Outcome.next.inj ((serve_write hc s).symm.trans h)
      rw [respond_response, Option.some_inj, hostWrite_eq_fault_iff v s hc]
  · cases x with
    | read space i =>
      obtain rfl := Host.Outcome.next.inj h
      exact ⟨s.tick + 1, by rw [Option.some.inj hfault]; rfl⟩
    | write space i v =>
      cases hc : isCommand space i with
      | true =>
        obtain ⟨rfl, rfl⟩ := isCommand_iff.1 hc
        exact absurd hfault (runCommand_ne_fault h)
      | false =>
        obtain rfl := Host.Outcome.next.inj ((serve_write hc s).symm.trans h)
        rw [hostWrite_of_fault (Option.some.inj hfault)]
        exact ⟨s.tick + 1, rfl⟩
    | reset =>
      obtain rfl := Host.Outcome.next.inj h
      cases hfault

/-- Settles O47: register by register; the numbers above 14 and the read-only registers are the faults. -/
theorem registerAccess : Obligations.RegisterAccess := by
  refine ⟨fun s n => ?_, fun s n v hn => ⟨s.tick + 1, ?_⟩, fun s w =>
    ⟨serve_command w s, runCommand_ok w s⟩⟩
  · rcases register_cases n with ⟨r, rfl⟩ | ⟨hn, -⟩
    · rw [hostRead_register]
      cases r with
      | rootWeightHi => exact congrArg Response.value (setWidth_shiftRight_eq_extract s.rootWeight)
      | _ => rfl
    · rw [(hostRead_eq_fault_iff 0 n s).2 (.inr hn)]
      obtain ⟨k, hk⟩ : ∃ k, n.toNat = k + 15 := Nat.exists_eq_add_of_le' hn
      rw [hk]
      rfl
  · have hc : isCommand 0 n = false := isCommand_eq_false_iff.2 (.inr hn)
    rcases register_cases n with ⟨r, rfl⟩ | ⟨hlt, -⟩
    · rw [serve_write hc, hostWrite_register]
      cases r with
      | cmd => exact absurd rfl hn
      | _ => rfl
    · rw [serve_write_of_fault hc (writeFaults_reg_of_lt hlt v s)]
      obtain ⟨k, hk⟩ : ∃ k, n.toNat = k + 15 := Nat.exists_eq_add_of_le' hlt
      rw [hk]
      rfl

/-- Settles O49: a write within its bounds goes through `Memory.write` or `setCount`, any other write
outside the register space faults. -/
theorem bufferWritesStoreOneCell : Obligations.BufferWritesStoreOneCell := by
  intro s i v
  refine ⟨fun hi hv => ?_, fun hi => ?_, fun hi hv => ?_, fun hi hv => ?_, fun hi hv => ?_,
    fun space hspace hfault => ?_⟩
  · exact ⟨_, _, (serve_write_of_writeSpace (writeSpace_inp_of_lt hi hv) rfl :),
      fun j => Memory.read_write ..⟩
  · refine ⟨_, _, (serve_write_of_writeSpace (writeSpace_freq_of_lt hi) rfl :),
      fun b => ?_⟩
    have heq : b = i.setWidth 8 ↔ b.toNat = i.toNat := by bv_omega
    rw [countAt_setCount]
    simp only [heq]
  · exact ⟨_, _, (serve_write_of_writeSpace (writeSpace_kinds_of_lt hi hv) rfl :),
      fun j => Memory.read_write ..⟩
  · exact ⟨_, _, (serve_write_of_writeSpace (writeSpace_values_of_lt hi hv) rfl :),
      fun j => Memory.read_write ..⟩
  · exact ⟨_, _, (serve_write_of_writeSpace (writeSpace_pk_of_lt hi hv) rfl :),
      fun j => Memory.read_write ..⟩
  · exact ⟨_, serve_write_of_fault (isCommand_eq_false_iff.2 (.inl hspace)) hfault⟩

/-- Settles O50: a read below the capacity returns what `cellWord`, `countAt` or `kindWord` gives. -/
theorem bufferReadsReturnTheCell : Obligations.BufferReadsReturnTheCell := by
  refine ⟨fun s i b hi hb => ?_, fun s i hi => ?_, fun s i k hi hk => ?_, fun s i b hi hb => ?_,
    fun s i b hi hb => ?_, fun s space i _ _ => ⟨(hostRead_eq_fault_iff space i s).2, fun h => ?_⟩,
    fun s space i => ⟨s.tick + 1, rfl⟩⟩
  · exact hostRead_byteCell (sp := .inp) (if_pos hi) hb
  · exact hostRead_of_readSpace (sp := .freq) (if_pos hi)
  · rw [← kindWord_of_read hk s.tick]
    exact hostRead_of_readSpace (sp := .kinds) (if_pos hi)
  · exact hostRead_byteCell (sp := .values) (if_pos hi) hb
  · exact hostRead_byteCell (sp := .pk) (if_pos hi) hb
  · exact (hostRead_fault_or_value space i s).resolve_left fun hf =>
      h ((hostRead_eq_fault_iff space i s).1 hf)

/-- Settles O52: the invariant says that the live cells of `OUT` are written. -/
theorem outReadsLiveCellsOnly : Obligations.OutReadsLiveCellsOnly := by
  intro s i h
  refine ⟨fun hi => ?_, (hostRead_eq_fault_iff 6 i s).2⟩
  obtain ⟨b, hb⟩ := Memory.writtenBelow_iff.1 h.outWritten _ hi
  exact ⟨b, hb, hostRead_byteCell (sp := .out) (if_pos hi) hb⟩

end Sys2Proof.Machine
end

section
/-! PROOFS. The host's view of the code table: the fields of `CODE_INFO` and the bits of `CODE_WORD`. -/

namespace Sys2Proof.Machine

theorem length_le_of_codeOf {m : Memory Code} {b : Sym8} {c : Code} (hm : codeOk (some m))
    (hc : codeOf m b = some c) : c.length ≤ 255 := by
  obtain ⟨hwf, hlen⟩ := hm m rfl
  exact hlen _ ((Memory.mem_iff_read (Memory.wf_iff.1 hwf).1 _ _).2 hc)

/-- The first of the packed bits is the most significant. -/
theorem testBit_packMsb (n : Nat) (f : Nat → Bool) (j : Nat) :
    (packMsb n f).testBit j = (decide (j < n) && f (n - 1 - j)) := by
  induction n generalizing j with
  | zero => simp [packMsb]
  | succ n ih =>
    have hsucc : packMsb (n + 1) f = Nat.bit (f n) (packMsb n f) := by
      simp [packMsb, List.range_succ, Nat.bit_val]
    rw [hsucc]
    cases j with
    | zero => simp
    | succ j =>
      rw [Nat.testBit_bit_succ, ih]
      simp [Nat.sub_sub, Nat.add_comm]

theorem getLsbD_codeInfo_some (bits : Code) (j : Nat) (hj : j < 32) :
    (codeInfo (some bits)).getLsbD j
      = (decide (j = 8) || (BitVec.ofNat 8 bits.length).getLsbD j) := by
  have htwoPow : codeInfo (some bits)
      = BitVec.twoPow 32 8 ||| (BitVec.ofNat 8 bits.length).setWidth 32 := rfl
  rw [htwoPow, BitVec.getLsbD_or, BitVec.getLsbD_twoPow, BitVec.getLsbD_setWidth]
  simp [hj, eq_comm]

/-- Bit 8 of `CODE_INFO` is `PRESENT`. -/
theorem codeInfo_present (c : Option Code) : (codeInfo c).getLsbD 8 = c.isSome := by
  cases c with
  | none => rfl
  | some bits => exact getLsbD_codeInfo_some bits 8 (by decide)

/-- Bits 7:0 of `CODE_INFO` are `LEN`. -/
theorem codeInfo_length {c : Option Code} (hc : ∀ bits, c = some bits → bits.length ≤ 255) :
    ((codeInfo c).extractLsb' 0 8).toNat = (c.getD []).length := by
  cases c with
  | none => rfl
  | some bits =>
    have hbyte : (codeInfo (some bits)).extractLsb' 0 8 = BitVec.ofNat 8 bits.length := by
      refine BitVec.eq_of_getLsbD_eq fun j hj => ?_
      rw [BitVec.getLsbD_extractLsb', Nat.zero_add, getLsbD_codeInfo_some _ _ (by omega)]
      simp [hj, hj.ne]
    rw [hbyte, BitVec.toNat_ofNat]
    exact Nat.mod_eq_of_lt (Nat.lt_succ_of_le (hc bits rfl))

theorem codeInfo_zeros (c : Option Code) : (codeInfo c).extractLsb' 9 23 = 0 := by
  cases c with
  | none => rfl
  | some bits =>
    refine BitVec.eq_of_getLsbD_eq fun j hj => ?_
    rw [BitVec.getLsbD_extractLsb', getLsbD_codeInfo_some _ _ (by omega)]
    rw [BitVec.getLsbD_of_ge (BitVec.ofNat 8 bits.length) (9 + j) (by omega)]
    simp [show 9 + j ≠ 8 by omega]

/-- The words of a code hold its bits, the first the most significant, and zeros beyond them. -/
theorem getLsbD_codeWord (c : Option Code) (j : Nat) {i : Nat} (hi : i < 32) :
    (codeWord c j).getLsbD (31 - i) = (c.getD []).getD (32 * j + i) false := by
  cases c with
  | none => simp [codeWord]
  | some bits =>
    rw [codeWord, BitVec.getLsbD_ofNat, testBit_packMsb, show 32 - 1 - (31 - i) = i by omega]
    simp [show 31 - i < 32 by omega]

theorem hostRead_codeInfo {s : State} {m : Memory Code} {i : Word} (hs : s.code = some m)
    (hi : i.toNat < 256) : hostRead 7 i s = .value (codeInfo (codeOf m (i.setWidth 8))) := by
  refine hostRead_of_readSpace (sp := .codeInfo) ?_
  rw [readSpace_codeInfo, hs]
  exact if_pos hi

theorem hostRead_codeWord {s : State} {m : Memory Code} {j : Nat} (hs : s.code = some m)
    (b : Sym8) (hj : j < 8) :
    hostRead 8 (BitVec.ofNat 32 (8 * b.toNat + j)) s = .value (codeWord (codeOf m b) j) := by
  have hb := b.isLt
  have hindex : (BitVec.ofNat 32 (8 * b.toNat + j)).toNat = 8 * b.toNat + j :=
    Nat.mod_eq_of_lt (by omega)
  refine hostRead_of_readSpace (sp := .codeWord) ?_
  rw [readSpace_codeWord, hs, Option.bind_some, hindex, if_pos (show _ < 8 * 256 by omega),
    show (8 * b.toNat + j) / 8 = b.toNat by omega, show (8 * b.toNat + j) % 8 = j by omega,
    BitVec.ofNat_toNat, BitVec.setWidth_eq]

/-- Settles O51: the fields of `codeInfo` and the bits of `codeWord`, read at the table's entries. -/
theorem codeTableView : Obligations.CodeTableView := by
  refine ⟨fun s m i hok hs hi => ⟨_, hostRead_codeInfo hs hi, codeInfo_present _,
      codeInfo_length fun bits hbits => length_le_of_codeOf (hs ▸ hok) hbits, codeInfo_zeros _⟩,
    fun s m b j hs hj => ⟨_, hostRead_codeWord hs b hj, fun i hi => getLsbD_codeWord _ j hi⟩,
    fun s i hcv => ⟨(hostRead_eq_fault_iff 7 i s).2 (.inl hcv),
      (hostRead_eq_fault_iff 8 i s).2 (.inl hcv)⟩⟩

end Sys2Proof.Machine
end

section
/-! PROOFS. A completion leaves the cells of its output buffers alone at and beyond the new length. -/

namespace Sys2Proof.Machine

theorem Raises.ne_noError {s : State} {i : Instr} {k : ErrKind} {info : Word}
    (h : Raises s i k info) : k ≠ .noError := by
  cases h <;> nofun

/-- A length below `2^32` is its register's value. -/
theorem read_fill_of_length_le {α : Type} (m : Memory α) {vs : List α} {j : Nat}
    (hvs : vs.length < 2 ^ 32) (hj : (BitVec.ofNat 32 vs.length).toNat ≤ j) :
    (m.fill vs).read j = m.read j := by
  rw [BitVec.toNat_ofNat, Nat.mod_eq_of_lt hvs] at hj
  rw [Memory.read_fill, if_neg (by omega)]

theorem packBytes_padBits_length_le {bits : List Bool} {n : Nat} (h : bits.length ≤ 8 * n) :
    (packBytes (padBits bits)).length ≤ n := by
  rw [packBytes_length, padBits_length]
  omega

/-- Settles O8: an output is a fill with a list whose length fits its register, by the invariant's bound
on the tree or by the capacity of the buffer. -/
theorem cellsBeyondTheLengthAreKept : Obligations.CellsBeyondTheLengthAreKept := by
  intro i s t h hexec herr
  cases ends_of_exec hexec with
  | abort hraise => exact absurd herr hraise.ne_noError
  | serialize hu =>
    have hleaves := h.tree _ hu
    have hks := serializeTree_kinds_length_le hleaves
    have hvs := serializeTree_values_length_le hleaves
    refine ⟨fun _ => ⟨fun j hj => ?_, fun j hj => ?_⟩, nofun, nofun⟩
    · exact read_fill_of_length_le _ (hks.trans_lt (by decide)) hj
    · exact read_fill_of_length_le _ (hvs.trans_lt (by decide)) hj
  | @encode m bits hcode hbits =>
    refine ⟨nofun, fun _ j hj => ?_, nofun⟩
    have hfit := encodeBytes_length_le (Nat.zero_le _) hbits
    have hbytes : (packBytes (padBits bits)).length ≤ s.cfg.pkCap.toNat :=
      packBytes_padBits_length_le (by omega)
    refine read_fill_of_length_le _ (hbytes.trans_lt s.cfg.pkCap.isLt) ?_
    rwa [packBytes_length]
  | decodeLeaf hu hle =>
    refine ⟨nofun, nofun, fun _ j hj => read_fill_of_length_le _ ?_ hj⟩
    exact (List.length_replicate.trans_le hle).trans_lt s.cfg.outCap.isLt
  | decodeWalk hu ho =>
    refine ⟨nofun, nofun, fun _ j hj => read_fill_of_length_le _ ?_ hj⟩
    have hfit := decodeWalk_length_le (Nat.zero_le _) ho
    exact (Nat.zero_add _ ▸ hfit).trans_lt s.cfg.outCap.isLt
  | _ => exact ⟨nofun, nofun, nofun⟩

end Sys2Proof.Machine
end

section
/-! PROOFS. The command decoder inverts the encoder and refuses every other word, and a step serves
the first pending transaction. -/

namespace Sys2Proof.Machine

/-! ## The fields of a command word -/

theorem encode_fields (i : Instr) :
    rsvField (encode i) = 0 ∧ opField (encode i) = opcodeOf i := by
  obtain ⟨-, hrsv, hop, -⟩ : Laws.EncodingFits.Statement i := by
    cases i with
    | freq => exact Laws.EncodingFits.freq
    | build => exact Laws.EncodingFits.build
    | gencode => exact Laws.EncodingFits.gencode
    | serialize => exact Laws.EncodingFits.serialize
    | deserialize => exact Laws.EncodingFits.deserialize
    | encode => exact Laws.EncodingFits.encode
    | decode => exact Laws.EncodingFits.decode
  exact ⟨hrsv, hop⟩

/-- A word is its two fields (spec/30_encoding.md R91). -/
theorem toNat_eq_fields (w : Word) : w.toNat = 16 * (rsvField w).toNat + (opField w).toNat := by
  simp only [rsvField, opField, BitVec.extractLsb'_toNat, Nat.shiftRight_eq_div_pow]
  omega

theorem eq_of_fields_eq {w v : Word} (hrsv : rsvField w = rsvField v)
    (hop : opField w = opField v) : w = v :=
  BitVec.eq_of_toNat_eq (by rw [toNat_eq_fields w, toNat_eq_fields v, hrsv, hop])

/-! ## The opcode map -/

theorem decodeOpcode_opcodeOf (i : Instr) : decodeOpcode (opcodeOf i) = some i := by
  cases i <;> rfl

theorem decodeOpcode_eq_some_iff {op : BitVec 4} {i : Instr} :
    decodeOpcode op = some i ↔ op = opcodeOf i := by
  refine ⟨fun h => ?_, fun h => h ▸ decodeOpcode_opcodeOf i⟩
  unfold decodeOpcode at h
  split at h <;> cases h
  all_goals exact BitVec.eq_of_toNat_eq ‹_›

theorem decodeOpcode_eq_none_iff {op : BitVec 4} :
    decodeOpcode op = none ↔ op.toNat = 0 ∨ 8 ≤ op.toNat := by
  unfold decodeOpcode
  split
  all_goals simp only [reduceCtorEq, false_iff, true_iff, imp_false] at *
  all_goals omega

/-! ## The decoder -/

theorem decode_eq_ok_iff {w : Word} {i : Instr} : decode w = .ok i ↔ w = encode i := by
  obtain ⟨hrsv, hop⟩ := encode_fields i
  constructor
  · intro h
    unfold decode at h
    split at h
    · split at h
      · obtain rfl := Decoded.ok.inj h
        exact eq_of_fields_eq (by rw [hrsv]; assumption)
          (by rw [hop]; exact decodeOpcode_eq_some_iff.1 ‹_›)
      · cases h
    · cases h
  · rintro rfl
    rw [decode, if_pos hrsv, hop, decodeOpcode_opcodeOf]

theorem decode_encode (i : Instr) : decode (encode i) = .ok i := decode_eq_ok_iff.2 rfl

/-- The decoder refuses exactly the words of spec/30_encoding.md R94. -/
theorem decode_rejected_iff (w : Word) : (∃ why, decode w = .rejected why) ↔ illegalWord w := by
  show _ ↔ rsvField w ≠ 0 ∨ (opField w).toNat = 0 ∨ 8 ≤ (opField w).toNat
  rw [← decodeOpcode_eq_none_iff, decode]
  by_cases hrsv : rsvField w = 0
  · rw [if_pos hrsv]
    cases decodeOpcode (opField w) <;> simp [hrsv]
  · rw [if_neg hrsv]
    exact iff_of_true ⟨_, rfl⟩ (.inl hrsv)

theorem illegalWord_iff_not_encoding (w : Word) : illegalWord w ↔ ¬ ∃ i, w = encode i := by
  simp only [← decode_rejected_iff, ← decode_eq_ok_iff]
  cases decode w <;> simp

/-- Settles O2: both directions from the fields of the word, the rest from the decoder being
total. -/
theorem everyWordIsOneCommandOrIllegal : Obligations.EveryWordIsOneCommandOrIllegal :=
  ⟨fun _ _ => decode_eq_ok_iff, decode_rejected_iff,
    fun w => or_iff_not_imp_left.2 fun h => not_not.1 (mt (illegalWord_iff_not_encoding w).2 h),
    fun i h => (illegalWord_iff_not_encoding _).1 h ⟨i, rfl⟩⟩

/-- Settles O1: the seven words are the encodings; the other five are decoded. -/
theorem opcodeTableWordsDecode : Obligations.OpcodeTableWordsDecode :=
  ⟨decode_encode .freq, decode_encode .build, decode_encode .gencode, decode_encode .serialize,
    decode_encode .deserialize, decode_encode .encode, decode_encode .decode,
    by decide, by decide, by decide, by decide, by decide⟩

/-! ## Steps -/

theorem runCommand_of_decode {w : Word} {i : Instr} {s t : State} (hw : decode w = .ok i)
    (h : exec i s = .next t) : runCommand w s = .next (respond .ok t) := by
  simp only [runCommand, hw, h]

theorem runCommand_of_illegalWord {w : Word} (h : illegalWord w) (s : State) :
    runCommand w s = .next (respond .ok (illegal s)) := by
  obtain ⟨why, hwhy⟩ := (decode_rejected_iff w).2 h
  simp only [runCommand, hwhy]

theorem runCommand_pending {w : Word} {s t : State} (h : runCommand w s = .next t) :
    t.pending = s.pending := by
  rcases runCommand_cases w s with ⟨_, -, heq⟩ | ⟨i, -, hi⟩
  · obtain rfl := Host.Outcome.next.inj (heq.symm.trans h)
    rfl
  · obtain ⟨u, hu, -⟩ := exec_ends i s
    obtain rfl := Host.Outcome.next.inj ((hi u hu).symm.trans h)
    obtain ⟨-, -, -, -, -, -, -, -, -, hpending, -⟩ := onlyTheOwnerChangesAStore i s u hu
    exact hpending

theorem writeSpace_pending {sp : Space} {i v : Word} {s t : State}
    (h : writeSpace sp i v s = some t) : t.pending = s.pending := by
  cases sp with
  | reg =>
    obtain ⟨r, -, hr⟩ := Option.bind_eq_some_iff.1 (writeSpace_reg .. ▸ h)
    cases r <;> cases hr <;> rfl
  | freq =>
    obtain ⟨-, ⟨⟩⟩ := Option.ite_none_right_eq_some.1 h
    rfl
  | inp | kinds | values | pk =>
    simp only [writeSpace_inp, writeSpace_kinds, writeSpace_values, writeSpace_pk] at h
    obtain ⟨_, -, hwrite⟩ := Option.bind_eq_some_iff.1 h
    obtain ⟨-, ⟨⟩⟩ := Option.ite_none_right_eq_some.1 hwrite
    rfl
  | out | codeInfo | codeWord => cases h

theorem hostWrite_pending (space : BitVec 4) (i v : Word) (s : State) :
    (hostWrite space i v s).1.pending = s.pending := by
  rcases hostWrite_cases space i v s with heq | ⟨_, t, -, ht, heq⟩
  · rw [heq]
  · rw [heq]
    exact writeSpace_pending ht

/-- Serving a transaction leaves the ones after it pending. -/
theorem serve_pending {x : Transaction} {s t : State} (h : serve x s = .next t) :
    t.pending = s.pending := by
  cases x with
  | read space i =>
    obtain rfl := Host.Outcome.next.inj h
    rfl
  | write space i v =>
    cases hc : isCommand space i with
    | true =>
      obtain ⟨rfl, rfl⟩ := isCommand_iff.1 hc
      exact runCommand_pending h
    | false =>
      obtain rfl := Host.Outcome.next.inj ((serve_write hc s).symm.trans h)
      exact hostWrite_pending space i v s
  | reset =>
    obtain rfl := Host.Outcome.next.inj h
    rfl

theorem step_command {s : State} {w : Word} {rest : List Transaction}
    (h : s.pending = .write 0 0 w :: rest) : step s = runCommand w { s with pending := rest } :=
  step_pending h

theorem withFetchWord_pending (s : State) (w : Word) :
    (s.withFetchWord 32 w.toNat).pending = .write 0 0 w :: s.pending := by
  show Transaction.write 0 0 (BitVec.ofNat 32 (w.toNat % 2 ^ 32)) :: s.pending = _
  rw [Nat.mod_eq_of_lt w.isLt, BitVec.ofNat_toNat, BitVec.setWidth_eq]

/-- Settles O3: a step serves the first pending transaction, and a command write runs its decoded
word. -/
theorem stepRunsTheDecodedCommand : Obligations.StepRunsTheDecodedCommand := by
  refine ⟨fun s w rest i t hp hw h => ?_, fun s i t h => ?_, fun s x rest hp => ⟨step_pending hp,
    fun t ht => ?_⟩, step_idle⟩
  · exact (step_command hp).trans (runCommand_of_decode hw h)
  · exact (step_command (withFetchWord_pending s _)).trans
      (runCommand_of_decode (decode_encode i) h)
  · exact serve_pending ((step_pending hp).symm.trans ht)

/-- Settles O4: the word is refused, and `illegal` is a report alone. -/
theorem illegalWordOnlyReports : Obligations.IllegalWordOnlyReports :=
  ⟨fun s _ _ hp hw => ⟨s.tick + 1, (step_command hp).trans (runCommand_of_illegalWord hw _)⟩,
    illegalWord_iff_not_encoding⟩

end Sys2Proof.Machine
end

section
/-! PROOFS. A successful command writes its outputs and the report alone, and what it writes depends
on its operands alone. -/

namespace Sys2Proof.Machine

/-- Settles O7: each completion is a report on the write of the command's outputs. -/
theorem successWritesTheOutputsAlone : Obligations.SuccessWritesTheOutputsAlone := by
  intro i s t h herr
  cases ends_of_exec h with
  | abort hraise => exact absurd herr hraise.ne_noError
  | decodeLeaf _ _ | decodeWalk _ _ => exact ⟨rfl, fun hi => absurd rfl hi, rfl⟩
  | _ => exact ⟨rfl, fun _ => rfl, rfl⟩

/-! ## The live cells of two states that agree on them -/

theorem read_getD_congr {α : Type} {m m' : Memory α} {n j : Nat} (hw : m.writtenBelow n = true)
    (h : ∀ j, j < n → m.read j = m'.read j) (hj : j < n) (d d' : α) :
    (m.read j).getD d = (m'.read j).getD d' := by
  obtain ⟨v, hv⟩ := Memory.writtenBelow_iff.1 hw j hj
  rw [← h j hj, hv, Option.getD_some, Option.getD_some]

theorem liveBytes_congr {m m' : Memory Byte} {n : Nat} (hw : m.writtenBelow n = true)
    (h : ∀ j, j < n → m.read j = m'.read j) (tick tick' : Nat) :
    liveBytes m tick n = liveBytes m' tick' n :=
  List.map_congr_left fun _ hj => read_getD_congr hw h (List.mem_range.1 hj) _ _

theorem liveKinds_congr {m m' : Memory NodeKind} {n : Nat} (hw : m.writtenBelow n = true)
    (h : ∀ j, j < n → m.read j = m'.read j) (tick tick' : Nat) :
    liveKinds m tick n = liveKinds m' tick' n :=
  List.map_congr_left fun _ hj => read_getD_congr hw h (List.mem_range.1 hj) _ _

/-- The first `n` bits lie in the first `n / 8` bytes, rounded up. -/
theorem liveBits_congr {m m' : Memory Byte} {n : Nat} (hw : m.writtenBelow ((n + 7) / 8) = true)
    (h : ∀ j, j < (n + 7) / 8 → m.read j = m'.read j) (tick tick' : Nat) :
    liveBits m tick n = liveBits m' tick' n := by
  refine List.map_congr_left fun p hp => ?_
  have hlt : p / 8 < (n + 7) / 8 := by
    have := List.mem_range.1 hp
    omega
  rw [read_getD_congr hw h hlt _ (Config.freeByte tick' p)]

theorem input_congr {s s' : State} (hlen : s.inLen = s'.inLen)
    (hw : s.inp.writtenBelow s.inLen.toNat = true)
    (h : ∀ j, j < s.inLen.toNat → s.inp.read j = s'.inp.read j) : s.input = s'.input := by
  rw [State.input, State.input, ← hlen]
  exact liveBytes_congr hw h ..

/-! ## Outcomes that agree -/

/-- Two answers of a command leave results that agree. -/
def outcomesAgree (i : Instr) (r r' : Result) : Prop :=
  ∀ t t', r = .next t → r' = .next t' → resultsAgree i t t'

theorem outcomesAgree_raise {i : Instr} {k : ErrKind} {info : Word} {s s' : State} :
    outcomesAgree i (raise i k info s) (raise i k info s') := by
  rintro t t' ⟨⟩ ⟨⟩
  refine ⟨rfl, rfl, rfl, ?_⟩
  cases i with
  | freq | gencode => rfl
  | build | deserialize => exact ⟨rfl, rfl⟩
  | serialize => exact ⟨rfl, rfl, nofun, nofun⟩
  | encode => exact ⟨rfl, rfl, rfl, nofun⟩
  | decode => exact ⟨rfl, nofun⟩

/-- The live cells of two buffers filled with the same values. -/
theorem read_fill_congr {α : Type} (m m' : Memory α) (vs : List α) {j : Nat}
    (h : j < (BitVec.ofNat 32 vs.length).toNat) : (m.fill vs).read j = (m'.fill vs).read j := by
  have hlt : j < vs.length := h.trans_le (Nat.mod_le _ _)
  rw [Memory.read_fill, Memory.read_fill, if_pos hlt, if_pos hlt]

section
variable {p : Bool} {s s' : State}

theorem outcomesAgree_writeFreq {m : Memory Word} :
    outcomesAgree .freq (complete p (writeFreq m s)) (complete p (writeFreq m s')) := by
  rintro t t' ⟨⟩ ⟨⟩
  exact ⟨rfl, rfl, rfl, rfl⟩

theorem outcomesAgree_writeTree {u : HuffTree} {w : Weight} {i : Instr}
    (hi : i = .build ∨ i = .deserialize) :
    outcomesAgree i (complete p (writeTree u w s)) (complete p (writeTree u w s')) := by
  rintro t t' ⟨⟩ ⟨⟩
  rcases hi with rfl | rfl <;> exact ⟨rfl, rfl, rfl, rfl, rfl⟩

theorem outcomesAgree_writeCode {m : Memory Code} :
    outcomesAgree .gencode (complete p (writeCode m s)) (complete p (writeCode m s')) := by
  rintro t t' ⟨⟩ ⟨⟩
  exact ⟨rfl, rfl, rfl, rfl⟩

theorem outcomesAgree_writePair {ks : List NodeKind} {vs : List Byte} :
    outcomesAgree .serialize (complete p (writePair ks vs s))
      (complete p (writePair ks vs s')) := by
  rintro t t' ⟨⟩ ⟨⟩
  exact ⟨rfl, rfl, rfl, rfl, rfl, fun _ => read_fill_congr _ _ ks, fun _ => read_fill_congr _ _ vs⟩

theorem outcomesAgree_writePacked {bits : List Bool} (hlen : s.inLen = s'.inLen) :
    outcomesAgree .encode (complete p (writePacked bits s)) (complete p (writePacked bits s')) := by
  rintro t t' ⟨⟩ ⟨⟩
  refine ⟨rfl, rfl, rfl, rfl, rfl, hlen, fun j hj => read_fill_congr _ _ _ ?_⟩
  rwa [packBytes_length]

theorem outcomesAgree_writeOut {syms : List Sym8} :
    outcomesAgree .decode (complete p (writeOut syms s)) (complete p (writeOut syms s')) := by
  rintro t t' ⟨⟩ ⟨⟩
  exact ⟨rfl, rfl, rfl, rfl, fun _ => read_fill_congr _ _ syms⟩

end

/-! ## The seven commands -/

section
variable {s s' : State}

theorem execFreq_agree (hw : inputsWritten .freq s = true) (h : readsAgree .freq s s') :
    outcomesAgree .freq (execFreq s) (execFreq s') := by
  obtain ⟨hcap, hlen, hcells⟩ := h
  have hin : s.input = s'.input := input_congr hlen hw hcells
  rw [execFreq, execFreq, ← hcap, ← hlen, ← hin]
  split
  · exact outcomesAgree_raise
  · exact outcomesAgree_writeFreq

theorem execBuild_agree (h : readsAgree .build s s') :
    outcomesAgree .build (execBuild s) (execBuild s') := by
  obtain ⟨htie, hfreq⟩ := h
  rw [execBuild, execBuild, ← htie, ← hfreq]
  cases buildRoot s.cfg.tiebreak s.freq with
  | none => exact outcomesAgree_raise
  | some r => exact outcomesAgree_writeTree (.inl rfl)

theorem execGencode_agree (h : readsAgree .gencode s s') :
    outcomesAgree .gencode (execGencode s) (execGencode s') := by
  have htree : s.tree = s'.tree := h
  rw [execGencode, execGencode, ← htree]
  cases s.tree with
  | none => exact outcomesAgree_raise
  | some u => exact outcomesAgree_writeCode

theorem execSerialize_agree (h : readsAgree .serialize s s') :
    outcomesAgree .serialize (execSerialize s) (execSerialize s') := by
  have htree : s.tree = s'.tree := h
  rw [execSerialize, execSerialize, ← htree]
  cases s.tree with
  | none => exact outcomesAgree_raise
  | some u => exact outcomesAgree_writePair

theorem execDeserialize_agree (hw : inputsWritten .deserialize s = true)
    (h : readsAgree .deserialize s s') :
    outcomesAgree .deserialize (execDeserialize s) (execDeserialize s') := by
  obtain ⟨hkindsLen, hvaluesLen, hkinds, hvalues⟩ := h
  obtain ⟨hwkinds, hwvalues⟩ := Bool.and_eq_true_iff.1 hw
  have hk : s.kindsIn = s'.kindsIn := by
    rw [State.kindsIn, State.kindsIn, ← hkindsLen]
    exact liveKinds_congr hwkinds hkinds ..
  have hv : s.valuesIn = s'.valuesIn := by
    rw [State.valuesIn, State.valuesIn, ← hvaluesLen]
    exact liveBytes_congr hwvalues hvalues ..
  rw [execDeserialize, execDeserialize, ← hkindsLen, ← hvaluesLen, ← hk, ← hv]
  split
  · exact outcomesAgree_raise
  · cases deserializePair s.kindsIn s.valuesIn with
    | error c => exact outcomesAgree_raise
    | ok u => exact outcomesAgree_writeTree (.inr rfl)

theorem execEncode_agree (hw : inputsWritten .encode s = true) (h : readsAgree .encode s s') :
    outcomesAgree .encode (execEncode s) (execEncode s') := by
  obtain ⟨hcode, hinCap, hpkCap, hlen, hcells⟩ := h
  have hin : s.input = s'.input := input_congr hlen hw hcells
  rw [execEncode, execEncode, ← hcode, ← hinCap, ← hpkCap, ← hlen, ← hin]
  cases s.code with
  | none => exact outcomesAgree_raise
  | some table =>
    dsimp only
    split
    · exact outcomesAgree_raise
    · cases encodeBytes table (8 * s.cfg.pkCap.toNat) 0 0 s.input with
      | error e => exact outcomesAgree_raise
      | ok bits => exact outcomesAgree_writePacked hlen

theorem execDecode_agree (hw : inputsWritten .decode s = true) (h : readsAgree .decode s s') :
    outcomesAgree .decode (execDecode s) (execDecode s') := by
  obtain ⟨htree, hpkCap, houtCap, hpkLen, hbitCount, hsym, hcells⟩ := h
  have hbits : s.bitsIn = s'.bitsIn := by
    rw [State.bitsIn, State.bitsIn, ← hbitCount]
    exact liveBits_congr hw hcells ..
  rw [single_iff] at hsym
  rw [execDecode, execDecode, ← htree, ← hpkCap, ← houtCap, ← hpkLen, ← hbitCount, ← hbits]
  rcases hs : s.tree with _ | u
  · exact outcomesAgree_raise
  dsimp only
  split
  · exact outcomesAgree_raise
  split
  · exact outcomesAgree_raise
  cases u with
  | leaf b =>
    rw [← hsym ⟨b, hs⟩]
    dsimp only
    split
    · exact outcomesAgree_raise
    · exact outcomesAgree_writeOut
  | node l r =>
    dsimp only
    cases decodeWalk (.node l r) s.cfg.outCap.toNat (.node l r) false 0 s.bitsIn with
    | none => exact outcomesAgree_raise
    | some o => exact outcomesAgree_writeOut

end

/-- Settles O10: command by command, each branch being chosen by operands that agree. -/
theorem resultsDependOnTheOperandsAlone : Obligations.ResultsDependOnTheOperandsAlone := by
  intro i s s' t t' hw h
  suffices hagree : outcomesAgree i (exec i s) (exec i s') from hagree t t'
  cases i with
  | freq => exact execFreq_agree hw h
  | build => exact execBuild_agree h
  | gencode => exact execGencode_agree h
  | serialize => exact execSerialize_agree h
  | deserialize => exact execDeserialize_agree hw h
  | encode => exact execEncode_agree hw h
  | decode => exact execDecode_agree hw h

end Sys2Proof.Machine
end

section
/-! PROOFS. BUILD gives an allowed tree, and an allowed tree has the present symbols on its
leaves. -/

namespace Sys2Proof.Machine

/-! ## The present symbols -/

theorem mem_allSymbols (b : Sym8) : b ∈ allSymbols :=
  List.mem_map.2 ⟨b.toNat, List.mem_range.2 b.isLt, BitVec.ofNat_toNat ..⟩

theorem nodup_allSymbols : allSymbols.Nodup := by
  refine List.Nodup.map_on (fun x hx y hy h => ?_) List.nodup_range
  have hmod := congrArg BitVec.toNat h
  rwa [BitVec.toNat_ofNat, BitVec.toNat_ofNat, Nat.mod_eq_of_lt (List.mem_range.1 hx),
    Nat.mod_eq_of_lt (List.mem_range.1 hy)] at hmod

theorem presentSymbols_eq_filter (m : Memory Word) :
    presentSymbols m = allSymbols.filter fun b => countAt m b ≠ 0 := by
  rw [presentSymbols, allSymbols, List.filter_map]
  refine congrArg _ (List.filter_congr fun i hi => ?_)
  have hlt : i < 2 ^ 8 := List.mem_range.1 hi
  rw [Function.comp_apply, countAt, BitVec.toNat_ofNat, Nat.mod_eq_of_lt hlt]

theorem mem_presentSymbols {m : Memory Word} {b : Sym8} :
    b ∈ presentSymbols m ↔ countAt m b ≠ 0 := by
  simp [presentSymbols_eq_filter, mem_allSymbols]

theorem nodup_presentSymbols (m : Memory Word) : (presentSymbols m).Nodup :=
  presentSymbols_eq_filter m ▸ nodup_allSymbols.filter _

/-! ## The merge is allowed -/

theorem mergeStep_canMerge (choice : Nat → Nat) (seq : Nat) {pq : List PqEntry}
    (h : 2 ≤ pq.length) : canMerge pq (mergeStep choice seq pq) := by
  unfold mergeStep
  split
  · rename_i hnone
    rw [removeMin_eq_none.1 hnone] at h
    cases h
  · rename_i a pq₁ ha
    obtain ⟨haleast, rfl⟩ := removeMin_some ha
    split
    · rename_i hnone
      have hlen := List.length_erase_of_mem haleast.1
      rw [removeMin_eq_none.1 hnone, List.length_nil] at hlen
      omega
    · rename_i b pq₂ hb
      obtain ⟨hbleast, rfl⟩ := removeMin_some hb
      exact ⟨a, b, seq, haleast, hbleast, List.perm_append_singleton ..⟩

theorem canMerge_length {pq pq' : List PqEntry} (h : canMerge pq pq') :
    pq'.length + 1 = pq.length := by
  obtain ⟨a, b, seq, ⟨ha, -⟩, ⟨hb, -⟩, hperm⟩ := h
  rw [hperm.length_eq, List.length_cons, List.length_erase_add_one hb,
    List.length_erase_add_one ha]

/-- Merges that leave an entry are allowed steps, and each takes one entry off. -/
theorem mergeSteps_allowed (choice : Nat → Nat) (n : Nat) {fuel : Nat} (k : Nat)
    {pq : List PqEntry} (h : fuel < pq.length) :
    Relation.ReflTransGen canMerge pq (mergeSteps choice n fuel k pq) ∧
      (mergeSteps choice n fuel k pq).length + fuel = pq.length := by
  induction fuel generalizing k pq with
  | zero => exact ⟨.refl, rfl⟩
  | succ fuel ih =>
    have hstep := mergeStep_canMerge (fun j => choice (2 * k + j)) (n + k) (pq := pq) (by omega)
    have hlen := canMerge_length hstep
    obtain ⟨hsteps, hlen'⟩ := ih (k + 1) (lt_of_add_lt_add_right (hlen.symm ▸ h))
    refine ⟨.head hstep hsteps, ?_⟩
    rw [mergeSteps]
    omega

/-- Merging all leaves leaves one entry (spec/41_tree_builder.md R125). -/
theorem mergeLeaves_allowed {choice : Nat → Nat} {leaves : List PqEntry} {r : PqEntry}
    (h : mergeLeaves choice leaves = some r) : Relation.ReflTransGen canMerge leaves [r] := by
  cases leaves with
  | nil => cases h
  | cons e es =>
    obtain ⟨hsteps, hlen⟩ := mergeSteps_allowed choice (es.length + 1) 0 (pq := e :: es)
      (Nat.lt_succ_self es.length)
    rw [List.length_cons, Nat.add_comm] at hlen
    obtain ⟨x, hx⟩ := List.length_eq_one_iff.1 (Nat.add_left_cancel hlen)
    rw [mergeLeaves, hx] at h
    obtain rfl := Option.some.inj h
    exact hx ▸ hsteps

theorem buildRoot_allowed {tb : TieBreak} {m : Memory Word} {r : PqEntry}
    (h : buildRoot tb m = some r) : allowed m r.tree r.weight :=
  ⟨r.seq, mergeLeaves_allowed h⟩

/-! ## The leaves of an allowed tree -/

/-- The leaf symbols of all trees in a priority structure. -/
def entryLeaves (pq : List PqEntry) : List Sym8 := pq.flatMap fun e => e.tree.leaves

theorem entryLeaves_leafEntries (m : Memory Word) (seq : Nat) (bs : List Sym8) :
    entryLeaves (leafEntries m seq bs) = bs := by
  induction bs generalizing seq with
  | nil => rfl
  | cons b bs ih => exact congrArg (b :: ·) (ih (seq + 1))

theorem canMerge_entryLeaves {pq pq' : List PqEntry} (h : canMerge pq pq') :
    (entryLeaves pq').Perm (entryLeaves pq) := by
  obtain ⟨a, b, seq, ⟨ha, -⟩, ⟨hb, -⟩, hperm⟩ := h
  have hsplit : pq.Perm (a :: b :: (pq.erase a).erase b) :=
    (List.perm_cons_erase ha).trans ((List.perm_cons_erase hb).cons a)
  refine (hperm.flatMap_right _).trans (.trans (.of_eq ?_) (hsplit.flatMap_right _).symm)
  simp [HuffTree.leaves]

theorem entryLeaves_of_merges {pq pq' : List PqEntry} (h : Relation.ReflTransGen canMerge pq pq') :
    (entryLeaves pq').Perm (entryLeaves pq) := by
  induction h with
  | refl => rfl
  | tail _ hstep ih => exact (canMerge_entryLeaves hstep).trans ih

theorem allowed_leaves {m : Memory Word} {t : HuffTree} {w : Nat} (h : allowed m t w) :
    t.leaves.Perm (presentSymbols m) := by
  obtain ⟨seq, hsteps⟩ := h
  have hperm := entryLeaves_of_merges hsteps
  rwa [entryLeaves_leafEntries, entryLeaves, List.flatMap_singleton] at hperm

theorem allowed_distinct {m : Memory Word} {t : HuffTree} {w : Nat} (h : allowed m t w) :
    t.distinct :=
  (allowed_leaves h).nodup_iff.2 (nodup_presentSymbols m)

theorem mem_leaves_of_allowed {m : Memory Word} {t : HuffTree} {w : Nat} (h : allowed m t w)
    {b : Sym8} : b ∈ t.leaves ↔ countAt m b ≠ 0 :=
  (allowed_leaves h).mem_iff.trans mem_presentSymbols

end Sys2Proof.Machine
end

section
/-! PROOFS. DESERIALIZE inverts SERIALIZE: while the entries of a level order are parsed, the trees
that the awaiting parents wait for are the queue of the traversal. -/

namespace Sys2Proof.Machine

/-! ## The traversal, one node at a time -/

/-- The children a visit puts into the queue of the traversal. -/
def HuffTree.children : HuffTree → List HuffTree
  | .leaf _ => []
  | .node l r => [l, r]

theorem serializeQueue_cons (fuel : Nat) (u : HuffTree) (q : List HuffTree) :
    serializeQueue (fuel + 1) (u :: q)
      = (u.kind :: (serializeQueue fuel (q ++ u.children)).1,
        u.symbol?.toList ++ (serializeQueue fuel (q ++ u.children)).2) := by
  cases u with
  | leaf b => simp [serializeQueue, HuffTree.kind, HuffTree.symbol?, HuffTree.children]
  | node l r => simp [serializeQueue, HuffTree.kind, HuffTree.symbol?, HuffTree.children]

/-- The number of nodes of a queue of trees. -/
def queueSize (q : List HuffTree) : Nat := (q.map HuffTree.size).sum

theorem queueSize_visit (u : HuffTree) (q : List HuffTree) :
    queueSize (u :: q) = queueSize (q ++ u.children) + 1 := by
  cases u <;> simp [queueSize, HuffTree.children, HuffTree.size] <;> omega

theorem serializeQueue_kinds_length (q : List HuffTree) :
    (serializeQueue (queueSize q) q).1.length = queueSize q := by
  generalize hn : queueSize q = n
  induction n generalizing q with
  | zero => rfl
  | succ n ih =>
    cases q with
    | nil => cases hn
    | cons u q =>
      rw [queueSize_visit] at hn
      rw [serializeQueue_cons, List.length_cons, ih _ (Nat.succ.inj hn)]

theorem serializeTree_kinds_length (t : HuffTree) : (serializeTree t).1.length = t.size :=
  serializeQueue_kinds_length [t]

/-! ## Parsing, one entry at a time -/

/-- The record made for a node, its children not yet attached. -/
def HuffTree.freshRec : HuffTree → NodeRec
  | .leaf b => .leaf b
  | .node _ _ => .internal none none

/-- A parent awaiting its children: its record and the two trees it waits for. -/
abbrev Parent := Nat × HuffTree × HuffTree

/-- The parent that record `n`, made for a node, may become. -/
def HuffTree.awaiting (n : Nat) : HuffTree → List Parent
  | .leaf _ => []
  | .node l r => [(n, l, r)]

/-- The trees that the parents wait for, in the order in which they arrive. -/
def awaited (ps : List Parent) : List HuffTree := ps.flatMap fun p => [p.2.1, p.2.2]

theorem awaited_awaiting (ps : List Parent) (n : Nat) (u : HuffTree) :
    awaited (ps ++ u.awaiting n) = awaited ps ++ u.children := by
  cases u <;> simp [awaited, HuffTree.awaiting, HuffTree.children]

/-- The state after `make` for a node (spec/44_tree_deserializer.md R161). -/
def Building.add (b : Building) (u : HuffTree) : Building :=
  ⟨b.nodes ++ [u.freshRec], b.queue ++ (u.awaiting b.nodes.length).map Prod.fst,
    b.cur + u.symbol?.toList.length⟩

theorem makeNode_add {pre rest : List Byte} {b : Building} {u : HuffTree}
    (hcur : b.cur = pre.length) :
    makeNode (pre ++ (u.symbol?.toList ++ rest)) u.kind b = .ok (b.add u) := by
  cases u with
  | leaf s => simp [makeNode, HuffTree.kind, HuffTree.symbol?, hcur, Building.add,
      HuffTree.freshRec, HuffTree.awaiting]
  | node l r => rfl

theorem parseEntry_of_makeNode {values : List Byte} {k : NodeKind} {b b' : Building} {p : Nat}
    {q : List Nat} (hq : b.queue = p :: q) (h : makeNode values k b = .ok b') :
    parseEntry values k b = .ok (attach b.nodes.length b') := by
  rw [parseEntry, hq]
  simp only [h]

/-- The left child joins the parent at the front of the queue, which keeps its place (R165). -/
theorem parseEntry_left {pre rest : List Byte} {b : Building} {p : Nat} {q : List Nat}
    {u : HuffTree} (hcur : b.cur = pre.length) (hq : b.queue = p :: q)
    (hp : b.nodes[p]? = some (.internal none none)) :
    parseEntry (pre ++ (u.symbol?.toList ++ rest)) u.kind b
      = .ok (Building.add ⟨b.nodes.set p (.internal (some b.nodes.length) none), p :: q, b.cur⟩
          u) := by
  have hlt : p < b.nodes.length := (List.getElem?_eq_some_iff.1 hp).1
  rw [parseEntry_of_makeNode hq (makeNode_add hcur)]
  simp [attach, Building.add, hq, List.getElem?_append_left hlt, hp, List.set_append_left _ _ hlt]

/-- The right child takes its parent off the queue. -/
theorem parseEntry_right {pre rest : List Byte} {b : Building} {p n : Nat} {q : List Nat}
    {u : HuffTree} (hcur : b.cur = pre.length) (hq : b.queue = p :: q)
    (hp : b.nodes[p]? = some (.internal (some n) none)) :
    parseEntry (pre ++ (u.symbol?.toList ++ rest)) u.kind b
      = .ok (Building.add ⟨b.nodes.set p (.internal (some n) (some b.nodes.length)), q, b.cur⟩
          u) := by
  have hlt : p < b.nodes.length := (List.getElem?_eq_some_iff.1 hp).1
  rw [parseEntry_of_makeNode hq (makeNode_add hcur)]
  simp [attach, Building.add, hq, List.getElem?_append_left hlt, hp, List.set_append_left _ _ hlt]

/-- The parent `p` off the queue, its children being the next two records. -/
def Building.close (b : Building) (p : Nat) (q : List Nat) : Building :=
  ⟨b.nodes.set p (.internal (some b.nodes.length) (some (b.nodes.length + 1))), q, b.cur⟩

/-- The state after the two entries of the parent `p` at the front of the queue `p :: q`. -/
def Building.addPair (b : Building) (p : Nat) (q : List Nat) (l r : HuffTree) : Building :=
  ((b.close p q).add l).add r

theorem addPair_nodes (b : Building) (p : Nat) (q : List Nat) (l r : HuffTree) :
    (b.addPair p q l r).nodes = b.nodes.set p (.internal (some b.nodes.length)
      (some (b.nodes.length + 1))) ++ [l.freshRec, r.freshRec] := by
  simp [Building.addPair, Building.add, Building.close]

theorem parseEntries_addPair {pre rest : List Byte} {ks : List NodeKind} {b : Building} {p : Nat}
    {q : List Nat} {l r : HuffTree} (hcur : b.cur = pre.length) (hq : b.queue = p :: q)
    (hp : b.nodes[p]? = some (.internal none none)) :
    parseEntries (pre ++ (l.symbol?.toList ++ (r.symbol?.toList ++ rest)))
        (l.kind :: r.kind :: ks) b
      = parseEntries (pre ++ (l.symbol?.toList ++ (r.symbol?.toList ++ rest))) ks
          (b.addPair p q l r) := by
  have hlt : p < b.nodes.length := (List.getElem?_eq_some_iff.1 hp).1
  have hleft := parseEntry_left (rest := r.symbol?.toList ++ rest) (u := l) hcur hq hp
  generalize hb₁ : Building.add _ l = b₁ at hleft
  have hright : parseEntry (pre ++ (l.symbol?.toList ++ (r.symbol?.toList ++ rest))) r.kind b₁
      = .ok (b.addPair p q l r) := by
    rw [← List.append_assoc, parseEntry_right (p := p) (n := b.nodes.length)
      (q := q ++ (l.awaiting b.nodes.length).map Prod.fst)]
    · simp [← hb₁, Building.addPair, Building.add, Building.close, hlt]
    · simp [← hb₁, Building.add, hcur]
    · simp [← hb₁, Building.add]
    · simp [← hb₁, Building.add, List.getElem?_append, hlt]
  rw [parseEntries, hleft]
  simp only [parseEntries, hright]

/-! ## Records that hold a tree -/

/-- Record `i` and the records below it are the tree (R164). -/
def holdsTree (nodes : List NodeRec) : HuffTree → Nat → Prop
  | .leaf b, i => nodes[i]? = some (.leaf b)
  | .node l r, i => ∃ j k, nodes[i]? = some (.internal (some j) (some k)) ∧
      holdsTree nodes l j ∧ holdsTree nodes r k

theorem readTree_of_holdsTree {nodes : List NodeRec} {t : HuffTree} {fuel i : Nat}
    (h : holdsTree nodes t i) (hfuel : t.size ≤ fuel) : readTree nodes fuel i = some t := by
  induction t generalizing fuel i with
  | leaf b =>
    obtain ⟨fuel, rfl⟩ := Nat.exists_eq_add_of_le' hfuel
    simp only [holdsTree] at h
    simp [HuffTree.size, readTree, h]
  | node l r ihl ihr =>
    rw [HuffTree.size, Nat.add_assoc] at hfuel
    obtain ⟨j, k, hi, hl, hr⟩ := h
    obtain ⟨fuel, rfl⟩ := Nat.exists_eq_add_of_le hfuel
    rw [show 1 + (l.size + r.size) + fuel = l.size + r.size + fuel + 1 by omega, readTree, hi]
    simp only [ihl hl (show l.size ≤ l.size + r.size + fuel by omega),
      ihr hr (show r.size ≤ l.size + r.size + fuel by omega)]

/-! ## The simulation -/

/-- The queue holds the records of the parents, whose children are still to come. -/
structure Awaits (b : Building) (ps : List Parent) : Prop where
  queue : b.queue = ps.map Prod.fst
  nodup : b.queue.Nodup
  childless : ∀ p ∈ b.queue, b.nodes[p]? = some (.internal none none)

theorem Awaits.add {b : Building} {ps : List Parent} (h : Awaits b ps) (u : HuffTree) :
    Awaits (b.add u) (ps ++ u.awaiting b.nodes.length) := by
  have hlt : ∀ p ∈ b.queue, p < b.nodes.length := fun p hp =>
    (List.getElem?_eq_some_iff.1 (h.childless p hp)).1
  refine ⟨by simp [Building.add, h.queue], ?_, fun p hp => ?_⟩
  · cases u with
    | leaf _ => simpa [Building.add, HuffTree.awaiting] using h.nodup
    | node l r =>
      exact List.nodup_append.2 ⟨h.nodup, List.nodup_singleton _, fun p hp n hn =>
        List.mem_singleton.1 hn ▸ (hlt p hp).ne⟩
  · rcases List.mem_append.1 hp with hp | hp
    · exact (List.getElem?_append_left (hlt p hp)).trans (h.childless p hp)
    · cases u with
      | leaf _ => cases hp
      | node l r =>
        obtain rfl := List.mem_singleton.1 hp
        exact List.getElem?_concat_length

theorem Awaits.close {b : Building} {p : Nat} {l r : HuffTree} {ps : List Parent}
    (h : Awaits b ((p, l, r) :: ps)) : Awaits (b.close p (ps.map Prod.fst)) ps := by
  have hnodup := h.nodup
  rw [h.queue, List.map_cons, List.nodup_cons] at hnodup
  refine ⟨rfl, hnodup.2, fun j hj => ?_⟩
  have hne : p ≠ j := fun heq => hnodup.1 (heq ▸ hj)
  rw [Building.close, List.getElem?_set_ne hne]
  exact h.childless j (h.queue ▸ List.mem_cons_of_mem p hj)

/-- From `b` to `b'` the parents have received their trees, and a record that was no childless
parent is as it was. -/
structure Completes (b b' : Building) (ps : List Parent) : Prop where
  queue : b'.queue = []
  trees : ∀ p ∈ ps, holdsTree b'.nodes (.node p.2.1 p.2.2) p.1
  kept : ∀ (i : Nat) (x : NodeRec), b.nodes[i]? = some x → x ≠ .internal none none →
    b'.nodes[i]? = some x

/-- A record made for a node holds the node's tree in the end: a leaf from the start, a parent once
it has received its children. -/
theorem Completes.holdsTree {b b' : Building} {ps : List Parent} {u : HuffTree} {i : Nat}
    (h : Completes b b' ps) (hi : b.nodes[i]? = some u.freshRec) (hsub : u.awaiting i ⊆ ps) :
    holdsTree b'.nodes u i := by
  cases u with
  | leaf s => exact h.kept i _ hi nofun
  | node l r => exact h.trees (i, l, r) (hsub List.mem_cons_self)

/-- The parents among the next two records, made for `l` and `r`. -/
def newParents (n : Nat) (l r : HuffTree) : List Parent := l.awaiting n ++ r.awaiting (n + 1)

theorem Awaits.addPair {b : Building} {p : Nat} {l r : HuffTree} {ps : List Parent}
    (h : Awaits b ((p, l, r) :: ps)) :
    Awaits (b.addPair p (ps.map Prod.fst) l r) (ps ++ newParents b.nodes.length l r) := by
  simpa [Building.addPair, Building.add, Building.close, newParents] using (h.close.add l).add r

/-- Completing the children of the front parent completes it. -/
theorem Completes.cons {b b' : Building} {p : Nat} {l r : HuffTree} {ps : List Parent}
    (hb : Awaits b ((p, l, r) :: ps))
    (h : Completes (b.addPair p (ps.map Prod.fst) l r) b' (ps ++ newParents b.nodes.length l r)) :
    Completes b b' ((p, l, r) :: ps) := by
  have hp := hb.childless p (hb.queue ▸ List.mem_cons_self)
  have hlt : p < b.nodes.length := (List.getElem?_eq_some_iff.1 hp).1
  have hl : Machine.holdsTree b'.nodes l b.nodes.length :=
    h.holdsTree (by simp [addPair_nodes]) (by simp [newParents])
  have hr : Machine.holdsTree b'.nodes r (b.nodes.length + 1) :=
    h.holdsTree (by simp [addPair_nodes]) (by simp [newParents])
  refine ⟨h.queue, fun x hx => ?_, fun i x hi hx => h.kept i x ?_ hx⟩
  · rcases List.mem_cons.1 hx with rfl | hx
    · refine ⟨_, _, h.kept p _ ?_ nofun, hl, hr⟩
      simp [addPair_nodes, List.getElem?_append, hlt]
    · exact h.trees x (List.mem_append_left _ hx)
  · have hilt : i < b.nodes.length := (List.getElem?_eq_some_iff.1 hi).1
    have hne : p ≠ i := by
      rintro rfl
      exact hx (Option.some.inj (hi.symm.trans hp))
    rw [addPair_nodes, List.getElem?_append_left (by simpa using hilt),
      List.getElem?_set_ne hne, hi]

theorem awaited_cons (p : Nat) (l r : HuffTree) (ps : List Parent) :
    awaited ((p, l, r) :: ps) = l :: r :: awaited ps := rfl

theorem awaited_newParents (ps : List Parent) (n : Nat) (l r : HuffTree) :
    awaited (ps ++ newParents n l r) = awaited ps ++ l.children ++ r.children := by
  rw [newParents, ← List.append_assoc, awaited_awaiting, awaited_awaiting]

/-- Parsing the level order of the awaited trees completes the parents and uses up the values. -/
theorem parseEntries_awaited {fuel : Nat} {pre vs : List Byte} {ks : List NodeKind} {b : Building}
    {ps : List Parent} (hb : Awaits b ps) (hcur : b.cur = pre.length)
    (hfuel : queueSize (awaited ps) = fuel) (hpair : serializeQueue fuel (awaited ps) = (ks, vs)) :
    ∃ b', parseEntries (pre ++ vs) ks b = .ok b' ∧ b'.cur = (pre ++ vs).length ∧
      Completes b b' ps := by
  induction fuel using Nat.strong_induction_on generalizing pre vs ks b ps with
  | _ fuel ih =>
    rcases ps with _ | ⟨⟨p, l, r⟩, ps⟩
    · obtain rfl := hfuel
      obtain ⟨rfl, rfl⟩ := Prod.mk.inj hpair
      exact ⟨b, rfl, by simp [hcur], hb.queue, nofun, fun _ _ hi _ => hi⟩
    · rw [awaited_cons, queueSize_visit, List.cons_append, queueSize_visit,
        ← awaited_newParents ps b.nodes.length] at hfuel
      obtain rfl := hfuel
      rw [awaited_cons, serializeQueue_cons, List.cons_append, serializeQueue_cons,
        ← awaited_newParents ps b.nodes.length] at hpair
      obtain ⟨rfl, rfl⟩ := Prod.mk.inj hpair
      have hcur₂ : (b.addPair p (ps.map Prod.fst) l r).cur
          = (pre ++ (l.symbol?.toList ++ r.symbol?.toList)).length := by
        simp [Building.addPair, Building.add, Building.close, hcur, Nat.add_assoc]
      obtain ⟨b', hparse, hend, hdone⟩ := ih _ (by omega) hb.addPair hcur₂ rfl rfl
      rw [List.append_assoc, List.append_assoc] at hparse hend
      refine ⟨b', ?_, hend, hdone.cons hb⟩
      rwa [parseEntries_addPair hcur hb.queue (hb.childless p (hb.queue ▸ List.mem_cons_self))]

theorem awaits_empty : Awaits ⟨[], [], 0⟩ [] := ⟨rfl, List.nodup_nil, nofun⟩

theorem finishTree_of_holdsTree {values : List Byte} {b : Building} {t : HuffTree}
    (hq : b.queue = []) (hcur : b.cur = values.length) (ht : holdsTree b.nodes t 0)
    (hlen : t.size ≤ b.nodes.length) : finishTree values b = .ok t := by
  simp [finishTree, hq, hcur, readTree_of_holdsTree ht hlen]

/-- SERIALIZE's pair is accepted and gives its tree back (spec/44_tree_deserializer.md R169). -/
theorem deserializePair_serializeTree (t : HuffTree) :
    deserializePair (serializeTree t).1 (serializeTree t).2 = .ok t := by
  have hsize : t.size = queueSize t.children + 1 := by simpa [queueSize] using queueSize_visit t []
  have hchildren : awaited (t.awaiting 0) = t.children := awaited_awaiting [] 0 t
  obtain ⟨ks, vs, hrest⟩ : ∃ ks vs, serializeQueue (queueSize t.children) t.children = (ks, vs) :=
    ⟨_, _, rfl⟩
  have hpair : serializeTree t = (t.kind :: ks, t.symbol?.toList ++ vs) := by
    rw [serializeTree, hsize, serializeQueue_cons, List.nil_append, hrest]
  have hmake : makeNode (t.symbol?.toList ++ vs) t.kind ⟨[], [], 0⟩
      = .ok (Building.add ⟨[], [], 0⟩ t) := makeNode_add (pre := []) rfl
  obtain ⟨b, hparse, hend, hdone⟩ := parseEntries_awaited (awaits_empty.add t)
    (pre := t.symbol?.toList) (Nat.zero_add _) rfl (hchildren ▸ hrest)
  have hlen : b.nodes.length = t.size := by
    rw [((built_root hmake).parseEntries hparse).length, ← serializeTree_kinds_length, hpair,
      List.length_cons, Nat.add_comm]
  rw [hpair, deserializePair]
  simp only [hmake, hparse]
  exact finishTree_of_holdsTree hdone.queue hend (hdone.holdsTree rfl (List.Subset.refl _)) hlen.ge

end Sys2Proof.Machine
end

section
/-! PROOFS. The codes of a tree: what the table holds, what ENCODE makes of the input, and that the
walk of DECODE gives the input back. -/

namespace Sys2Proof.Machine

/-! ## The table of a tree -/

/-- A code in the table is the path of a leaf of its symbol. -/
theorem mem_walk_of_codeOf {t : HuffTree} {b : Sym8} {c : Code}
    (h : codeOf (codeTable t) b = some c) : (b, c) ∈ t.walk [] := by
  rw [codeTable, codeOf_tableOf] at h
  obtain ⟨e, hfind, rfl⟩ := Option.map_eq_some_iff.1 h
  have hb : e.1 = b := by simpa using List.find?_some hfind
  exact hb ▸ List.mem_reverse.1 (List.mem_of_find?_eq_some hfind)

theorem follow_of_codeOf {t : HuffTree} {b : Sym8} {c : Code}
    (h : codeOf (codeTable t) b = some c) : t.follow c = some (.leaf b) :=
  HuffTree.follow_of_mem_walk (mem_walk_of_codeOf h)

/-- With distinct symbols every path of the walk is in the table. -/
theorem codeOf_of_mem_walk {t : HuffTree} (ht : t.distinct) {e : Sym8 × Code}
    (he : e ∈ t.walk []) : codeOf (codeTable t) e.1 = some e.2 := by
  cases hfind : codeOf (codeTable t) e.1 with
  | none =>
    rw [codeTable, codeOf_tableOf, Option.map_eq_none_iff, List.find?_eq_none] at hfind
    exact absurd (decide_eq_true rfl) (hfind e (List.mem_reverse.2 he))
  | some c =>
    have hnodup : ((t.walk []).map Prod.fst).Nodup := (t.walk_symbols []).symm ▸ ht
    rw [← List.inj_on_of_nodup_map hnodup (mem_walk_of_codeOf hfind) he rfl]

/-! ## The length of the encoded input -/

theorem HuffTree.depths_eq_walk (t : HuffTree) (p : Code) :
    t.depths p.length = (t.walk p).map fun e => (e.1, e.2.length) := by
  induction t generalizing p with
  | leaf b => rfl
  | node l r ihl ihr =>
    rw [HuffTree.depths, HuffTree.walk, List.map_append, ← ihl, ← ihr, List.length_append,
      List.length_append, List.length_singleton, List.length_singleton]

/-- The length of a symbol's code, 0 without one. -/
def codeLength (table : Memory Code) (b : Sym8) : Nat := ((codeOf table b).getD []).length

theorem weightedDepth_eq_sum_codeLength {t : HuffTree} (ht : t.distinct) (m : Memory Word) :
    weightedDepth m t
      = (t.leaves.map fun b => (countAt m b).toNat * codeLength (codeTable t) b).sum := by
  rw [weightedDepth, show 0 = ([] : Code).length from rfl, t.depths_eq_walk, ← t.walk_symbols [],
    List.map_map, List.map_map]
  refine congrArg List.sum (List.map_congr_left fun e he => ?_)
  simp [codeLength, codeOf_of_mem_walk ht he]

/-- A sum over a list is a sum over its distinct elements, each taken as often as it occurs. -/
theorem sum_map_eq_sum_count {α : Type} [DecidableEq α] {xs ys : List α} (f : α → Nat)
    (hys : ys.Nodup) (h : ∀ x, x ∈ ys ↔ x ∈ xs) :
    (xs.map f).sum = (ys.map fun y => xs.count y * f y).sum := by
  have hset : xs.toFinset = ys.toFinset := by
    ext x
    simp [h]
  rw [Finset.sum_list_map_count, hset, List.sum_toFinset _ hys]
  rfl

theorem concatCodes_length (table : Memory Code) (bs : List Byte) :
    (concatCodes table bs).length = (bs.map (codeLength table)).sum := by
  rw [concatCodes, List.length_flatMap]
  rfl

/-! ## ENCODE -/

theorem encodeBytes_ok {table : Memory Code} {maxBits i n : Nat} {bs : List Byte}
    {bits : List Bool} (h : encodeBytes table maxBits i n bs = .ok bits) :
    covers table bs ∧ bits = concatCodes table bs := by
  induction bs generalizing i n bits with
  | nil =>
    obtain rfl := Except.ok.inj h
    exact ⟨nofun, rfl⟩
  | cons b bs ih =>
    rw [encodeBytes] at h
    split at h
    · cases h
    · rename_i c hc
      split at h
      · cases h
      · split at h
        · cases h
        · rename_i hrec
          obtain ⟨hcovers, rfl⟩ := ih hrec
          obtain rfl := Except.ok.inj h
          exact ⟨List.forall_mem_cons.2 ⟨by rw [hc]; rfl, hcovers⟩, by simp [concatCodes, hc]⟩

/-- A byte of a payload holds its eight bits, the first the most significant. -/
theorem getLsbD_byteOf (bits : List Bool) (j : Nat) {k : Nat} (hk : k < 8) :
    (byteOf bits j).getLsbD (7 - k) = bits.getD (8 * j + k) false := by
  rw [byteOf, BitVec.getLsbD_ofNat, testBit_packMsb, show 8 - 1 - (7 - k) = k by omega]
  simp [show 7 - k < 8 by omega]

/-- The payload read back is the bits that were packed. -/
theorem liveBits_fill (m : Memory Byte) (bits : List Bool) (tick : Nat) :
    liveBits (m.fill (packBytes (padBits bits))) tick bits.length = bits := by
  refine List.ext_getElem (liveBits_length ..) fun p hp hp' => ?_
  have hbyte : p / 8 < (padBits bits).length / 8 := by
    rw [padBits_length]
    omega
  have hread : (m.fill (packBytes (padBits bits))).read (p / 8)
      = some (byteOf (padBits bits) (p / 8)) := by
    rw [Memory.read_fill, if_pos (by rwa [packBytes_length])]
    simp [packBytes, hbyte]
  simp only [liveBits, List.getElem_map, List.getElem_range, hread, Option.getD_some]
  rw [getLsbD_byteOf _ _ (Nat.mod_lt _ (by decide)), Nat.div_add_mod, padBits,
    List.getD_append _ _ _ _ hp', List.getD_eq_getElem _ _ hp']

/-! ## DECODE -/

/-- A path to a leaf, walked from the root or from inside, emits the leaf's symbol and returns to
the root. -/
theorem decodeWalk_path {root cur : HuffTree} {outCap m : Nat} {inside : Bool} {c : Code}
    {b : Sym8} (hc : c ≠ []) (hfollow : cur.follow c = some (.leaf b)) (hm : m < outCap)
    (rest : List Bool) :
    decodeWalk root outCap cur inside m (c ++ rest)
      = (decodeWalk root outCap root false (m + 1) rest).map fun o => (b :: o.1, o.2) := by
  induction c generalizing cur inside with
  | nil => exact absurd rfl hc
  | cons bit c ih =>
    cases cur with
    | leaf s => cases hfollow
    | node l r =>
      rw [HuffTree.follow_node] at hfollow
      rw [List.cons_append, decodeWalk, HuffTree.child]
      cases hnext : (if bit then r else l) with
      | leaf s =>
        rw [hnext] at hfollow
        cases c with
        | nil =>
          obtain rfl := HuffTree.leaf.inj (Option.some.inj hfollow)
          simp only [if_neg hm.ne, List.nil_append]
          cases decodeWalk root outCap root false (m + 1) rest <;> rfl
        | cons _ _ => cases hfollow
      | node l' r' =>
        rw [hnext] at hfollow
        refine ih ?_ hfollow
        rintro rfl
        cases hfollow

/-- The walk of DECODE over the codes of covered input that fits gives the input back. -/
theorem decodeWalk_concatCodes {l r : HuffTree} {bs : List Byte} {outCap m : Nat}
    (hcovers : covers (codeTable (.node l r)) bs) (hfit : m + bs.length ≤ outCap) :
    decodeWalk (.node l r) outCap (.node l r) false m (concatCodes (codeTable (.node l r)) bs)
      = some (bs, false) := by
  induction bs generalizing m with
  | nil => rfl
  | cons b bs ih =>
    obtain ⟨hb, hbs⟩ := List.forall_mem_cons.1 hcovers
    obtain ⟨c, hc⟩ := Option.isSome_iff_exists.1 hb
    have hfollow := follow_of_codeOf hc
    have hne : c ≠ [] := by
      rintro rfl
      cases hfollow
    rw [List.length_cons] at hfit
    rw [concatCodes, List.flatMap_cons, hc, Option.getD_some,
      decodeWalk_path hne hfollow (by omega), ← concatCodes, ih hbs (by omega)]
    rfl

/-- The table of a single leaf covers copies of its symbol alone. -/
theorem eq_replicate_of_covers_leaf {b : Sym8} {bs : List Byte}
    (h : covers (codeTable (.leaf b)) bs) : bs = List.replicate bs.length b := by
  refine List.eq_replicate_iff.2 ⟨rfl, fun x hx => ?_⟩
  obtain ⟨c, hc⟩ := Option.isSome_iff_exists.1 (h x hx)
  exact congrArg Prod.fst (List.mem_singleton.1 (mem_walk_of_codeOf hc))

end Sys2Proof.Machine
end

section
/-! PROOFS. COMPRESS and then EXPAND: the state between them, and the input that comes back. -/

namespace Sys2Proof.Machine

/-! ## Pseudo-instructions -/

theorem runPseudo_cons {i : Instr} {is : List Instr} {s t : State} (h : exec i s = .next t) :
    runPseudo (i :: is) s
      = if t.err = .noError then runPseudo is (respond .ok t) else .next (respond .ok t) := by
  rw [runPseudo, runCommand_of_decode (decode_encode i) h]
  rfl

/-- A pseudo-instruction goes on after a command that succeeds. -/
theorem runPseudo_cons_of_noError {i : Instr} {is : List Instr} {s t : State}
    (h : exec i s = .next t) (herr : t.err = .noError) :
    runPseudo (i :: is) s = runPseudo is (respond .ok t) := by
  rw [runPseudo_cons h, if_pos herr]

/-- A pseudo-instruction that ends without error went on after its first command. -/
theorem runPseudo_noError {i : Instr} {is : List Instr} {s u : State}
    (h : runPseudo (i :: is) s = .next u) (herr : u.err = .noError) :
    ∃ t, exec i s = .next t ∧ t.err = .noError ∧ runPseudo is (respond .ok t) = .next u := by
  obtain ⟨t, ht, -⟩ := exec_ends i s
  rw [runPseudo_cons ht] at h
  split at h
  · exact ⟨t, ht, ‹_›, h⟩
  · obtain rfl := Host.Outcome.next.inj h
    exact absurd herr ‹_›

/-! ## The commands on success -/

section
variable {s t : State}

theorem freq_of_noError (h : exec .freq s = .next t) (herr : t.err = .noError) :
    t = report .noError 0 false (writeFreq (countBytes s.input) s) := by
  cases ends_of_exec h with
  | abort hraise => exact absurd herr hraise.ne_noError
  | freq => rfl

theorem build_of_noError (h : exec .build s = .next t) (herr : t.err = .noError) :
    ∃ u w, allowed s.freq u w ∧
      t = report .noError 0 false (writeTree u (BitVec.ofNat 40 w) s) ∧ u.leafCount ≤ 256 := by
  cases ends_of_exec h with
  | abort hraise => exact absurd herr hraise.ne_noError
  | build hroot => exact ⟨_, _, buildRoot_allowed hroot, rfl, buildRoot_leafCount_le hroot⟩

theorem gencode_of_noError {u : HuffTree} (h : exec .gencode s = .next t) (herr : t.err = .noError)
    (hu : s.tree = some u) : t = report .noError 0 false (writeCode (codeTable u) s) := by
  cases ends_of_exec h with
  | abort hraise => exact absurd herr hraise.ne_noError
  | gencode hu' => rw [Option.some.inj (hu.symm.trans hu')]

theorem serialize_of_noError {u : HuffTree} (h : exec .serialize s = .next t)
    (herr : t.err = .noError) (hu : s.tree = some u) :
    t = report .noError 0 false (writePair (serializeTree u).1 (serializeTree u).2 s) := by
  cases ends_of_exec h with
  | abort hraise => exact absurd herr hraise.ne_noError
  | serialize hu' => rw [Option.some.inj (hu.symm.trans hu')]

theorem encode_of_noError {m : Memory Code} {bs : List Byte} (h : exec .encode s = .next t)
    (herr : t.err = .noError) (hm : s.code = some m) (hin : s.input = bs) :
    covers m bs ∧ (concatCodes m bs).length ≤ 8 * s.cfg.pkCap.toNat ∧
      t = report .noError 0 false (writePacked (concatCodes m bs) s) := by
  subst hin
  cases ends_of_exec h with
  | abort hraise => exact absurd herr hraise.ne_noError
  | encode hm' hbits =>
    obtain rfl := Option.some.inj (hm'.symm.trans hm)
    have hfit := encodeBytes_length_le (Nat.zero_le _) hbits
    obtain ⟨hcovers, rfl⟩ := encodeBytes_ok hbits
    exact ⟨hcovers, (Nat.zero_add _).symm.trans_le hfit, rfl⟩

/-- DESERIALIZE of a serialized tree. -/
theorem exec_deserialize_serializeTree {u : HuffTree} (hu : u.leafCount ≤ 256)
    (hkinds : s.kindsIn = (serializeTree u).1) (hvalues : s.valuesIn = (serializeTree u).2) :
    exec .deserialize s = .next (report .noError 0 false (writeTree u 0 s)) := by
  have hk : s.kindsLen.toNat ≤ kindsCap := by
    rw [← liveKinds_length s.kinds s.tick s.kindsLen.toNat, ← State.kindsIn, hkinds]
    exact serializeTree_kinds_length_le hu
  have hv : s.valuesLen.toNat ≤ valuesCap := by
    rw [← liveBytes_length s.values s.tick s.valuesLen.toNat, ← State.valuesIn, hvalues]
    exact serializeTree_values_length_le hu
  rw [exec, execDeserialize, if_neg (by omega), hkinds, hvalues, deserializePair_serializeTree]
  rfl

/-- DECODE of the codes of `bs`, the number of which is in `SYMCOUNT`. -/
theorem exec_decode_concatCodes {u : HuffTree} {bs : List Byte} (hu : s.tree = some u)
    (hbits : s.bitsIn = concatCodes (codeTable u) bs) (hcovers : covers (codeTable u) bs)
    (hsym : s.symCount.toNat = bs.length) (hout : bs.length ≤ s.cfg.outCap.toNat)
    (hpk : s.pkLen.toNat ≤ s.cfg.pkCap.toNat) (hcount : s.bitCount.toNat ≤ 8 * s.pkLen.toNat) :
    exec .decode s = .next (report .noError 0 false (writeOut bs s)) := by
  rw [exec, execDecode, hu]
  dsimp only
  rw [if_neg hpk.not_gt, if_neg hcount.not_gt]
  cases u with
  | leaf b =>
    dsimp only
    rw [hsym, if_neg hout.not_gt, ← eq_replicate_of_covers_leaf hcovers]
    rfl
  | node l r =>
    dsimp only
    rw [hbits, decodeWalk_concatCodes hcovers (by omega)]
    rfl

end

/-! ## Operands read back -/

theorem toNat_ofNat_of_lt {n : Nat} (h : n < 2 ^ 32) : (BitVec.ofNat 32 n).toNat = n :=
  Nat.mod_eq_of_lt h

section
variable {s : State}

theorem kindsIn_fill {m : Memory NodeKind} {ks : List NodeKind} (hlt : ks.length < 2 ^ 32)
    (hcells : s.kinds = m.fill ks) (hlen : s.kindsLen = BitVec.ofNat 32 ks.length) :
    s.kindsIn = ks := by
  rw [State.kindsIn, hcells, hlen, toNat_ofNat_of_lt hlt, liveKinds_fill]

theorem valuesIn_fill {m : Memory Byte} {vs : List Byte} (hlt : vs.length < 2 ^ 32)
    (hcells : s.values = m.fill vs) (hlen : s.valuesLen = BitVec.ofNat 32 vs.length) :
    s.valuesIn = vs := by
  rw [State.valuesIn, hcells, hlen, toNat_ofNat_of_lt hlt, liveBytes_fill]

theorem bitsIn_fill {m : Memory Byte} {bits : List Bool} (hlt : bits.length < 2 ^ 32)
    (hcells : s.pk = m.fill (packBytes (padBits bits)))
    (hlen : s.bitCount = BitVec.ofNat 32 bits.length) : s.bitsIn = bits := by
  rw [State.bitsIn, hcells, hlen, toNat_ofNat_of_lt hlt, liveBits_fill]

theorem input_getElem? {j : Nat} (hw : s.inp.writtenBelow s.inLen.toNat = true)
    (hj : j < s.inLen.toNat) : s.input[j]? = s.inp.read j := by
  obtain ⟨v, hv⟩ := Memory.writtenBelow_iff.1 hw j hj
  rw [State.input, liveBytes_getElem?, if_pos hj, hv, Option.getD_some]

end

/-! ## COMPRESS -/

/-- What a COMPRESS without error leaves, `t` being the tree it built. -/
structure Compressed (s u : State) (t : HuffTree) : Prop where
  cfg : u.cfg = s.cfg
  freq : u.freq = countBytes s.input
  tree : u.tree = some t
  allowed : ∃ w, allowed u.freq t w
  leafCount : t.leafCount ≤ 256
  kinds : u.kinds = s.kinds.fill (serializeTree t).1
  kindsLen : u.kindsLen = BitVec.ofNat 32 (serializeTree t).1.length
  values : u.values = s.values.fill (serializeTree t).2
  valuesLen : u.valuesLen = BitVec.ofNat 32 (serializeTree t).2.length
  covers : covers (codeTable t) s.input
  fits : (concatCodes (codeTable t) s.input).length ≤ 8 * s.cfg.pkCap.toNat
  pk : u.pk = s.pk.fill (packBytes (padBits (concatCodes (codeTable t) s.input)))
  pkLen : u.pkLen = BitVec.ofNat 32 ((padBits (concatCodes (codeTable t) s.input)).length / 8)
  bitCount : u.bitCount = BitVec.ofNat 32 (concatCodes (codeTable t) s.input).length
  symCount : u.symCount = s.inLen

/-- The five commands, one after the other; ENCODE reads the same input as FREQ, four events
later. -/
theorem compressed_of_noError {s u : State} (hw : s.inp.writtenBelow s.inLen.toNat = true)
    (h : runPseudo compressCommands s = .next u) (herr : u.err = .noError) :
    ∃ t, Compressed s u t := by
  obtain ⟨s₁, h₁, herr₁, h⟩ := runPseudo_noError h herr
  obtain rfl := freq_of_noError h₁ herr₁
  obtain ⟨s₂, h₂, herr₂, h⟩ := runPseudo_noError h herr
  obtain ⟨t, w, hallowed, rfl, hleaves⟩ := build_of_noError h₂ herr₂
  obtain ⟨s₃, h₃, herr₃, h⟩ := runPseudo_noError h herr
  obtain rfl := gencode_of_noError h₃ herr₃ rfl
  obtain ⟨s₄, h₄, herr₄, h⟩ := runPseudo_noError h herr
  obtain rfl := serialize_of_noError h₄ herr₄ rfl
  obtain ⟨s₅, h₅, herr₅, h⟩ := runPseudo_noError h herr
  obtain ⟨hcovers, hfits, rfl⟩ := encode_of_noError h₅ herr₅ (m := codeTable t) (bs := s.input)
    (by simp) (by simpa [State.input] using liveBytes_written hw _ _)
  obtain rfl := Host.Outcome.next.inj h
  exact ⟨t, {
    cfg := by simp
    freq := by simp
    tree := by simp
    allowed := ⟨w, by simpa using hallowed⟩
    leafCount := hleaves
    kinds := by simp
    kindsLen := by simp
    values := by simp
    valuesLen := by simp
    covers := hcovers
    fits := by simpa using hfits
    pk := by simp
    pkLen := by simp
    bitCount := by simp
    symCount := by simp }⟩

theorem countAt_countBytes_toNat {bs : List Byte} (h : bs.length < 2 ^ 32) (b : Sym8) :
    (countAt (countBytes bs) b).toNat = bs.count b := by
  rw [countAt_countBytes, toNat_ofNat_of_lt (List.count_le_length.trans_lt h)]

/-- The length of the encoded input is the weighted depth of its tree. -/
theorem concatCodes_length_eq_weightedDepth {bs : List Byte} {t : HuffTree} {w : Nat}
    (hlen : bs.length < 2 ^ 32) (h : allowed (countBytes bs) t w) :
    (concatCodes (codeTable t) bs).length = weightedDepth (countBytes bs) t := by
  have hleaves : ∀ b, b ∈ t.leaves ↔ b ∈ bs := fun b => by
    rw [mem_leaves_of_allowed h, ← List.count_pos_iff, ← countAt_countBytes_toNat hlen,
      Nat.pos_iff_ne_zero, ne_eq, ne_eq, BitVec.toNat_eq]
    rfl
  rw [concatCodes_length, weightedDepth_eq_sum_codeLength (allowed_distinct h),
    sum_map_eq_sum_count _ (allowed_distinct h) hleaves]
  simp only [countAt_countBytes_toNat hlen]

/-! ## EXPAND -/

section
variable {s u : State} {t : HuffTree}

theorem Compressed.bits_lt (h : Compressed s u t) (hcfg : s.cfg.wf = true) :
    (concatCodes (codeTable t) s.input).length < 2 ^ 32 := by
  have hfits := h.fits
  simp only [Config.wf, Bool.and_eq_true, decide_eq_true_eq] at hcfg
  omega

theorem Compressed.deserialize (h : Compressed s u t) :
    exec .deserialize u = .next (report .noError 0 false (writeTree t 0 u)) := by
  have hks := serializeTree_kinds_length_le h.leafCount
  have hvs := serializeTree_values_length_le h.leafCount
  exact exec_deserialize_serializeTree h.leafCount
    (kindsIn_fill (hks.trans_lt (by decide)) h.kinds h.kindsLen)
    (valuesIn_fill (hvs.trans_lt (by decide)) h.values h.valuesLen)

/-- The payload fits `PK`, and `BITCOUNT` lies within it. -/
theorem Compressed.payload (h : Compressed s u t) (hcfg : s.cfg.wf = true) :
    u.pkLen.toNat ≤ u.cfg.pkCap.toNat ∧ u.bitCount.toNat ≤ 8 * u.pkLen.toNat := by
  have hlt := h.bits_lt hcfg
  have hfits := h.fits
  rw [h.cfg, h.bitCount, h.pkLen, padBits_length, toNat_ofNat_of_lt hlt,
    toNat_ofNat_of_lt (by omega)]
  omega

theorem Compressed.decode (h : Compressed s u t) (hcfg : s.cfg.wf = true)
    (hout : s.inLen.toNat ≤ s.cfg.outCap.toNat) :
    exec .decode (respond .ok (report .noError 0 false (writeTree t 0 u)))
      = .next (report .noError 0 false
          (writeOut s.input (respond .ok (report .noError 0 false (writeTree t 0 u))))) := by
  have hinput : s.input.length = s.inLen.toNat := liveBytes_length ..
  obtain ⟨hpk, hcount⟩ := h.payload hcfg
  exact exec_decode_concatCodes (by simp)
    (bitsIn_fill (h.bits_lt hcfg) (by simpa using h.pk) (by simpa using h.bitCount)) h.covers
    (by simp [h.symCount, hinput]) (by simpa [h.cfg, hinput] using hout) (by simpa using hpk)
    (by simpa using hcount)

theorem Compressed.expand (h : Compressed s u t) (hcfg : s.cfg.wf = true)
    (hout : s.inLen.toNat ≤ s.cfg.outCap.toNat) :
    ∃ v, runPseudo expandCommands u = .next v ∧ v.err = .noError ∧ v.partialFlag = false ∧
      v.outLen = s.inLen ∧ v.out = u.out.fill s.input := by
  have hlen : BitVec.ofNat 32 s.input.length = s.inLen := by simp [State.input]
  rw [expandCommands, runPseudo_cons_of_noError h.deserialize (report_err ..),
    runPseudo_cons_of_noError (h.decode hcfg hout) (report_err ..)]
  exact ⟨_, rfl, by simp [hlen]⟩

end

/-- Settles O46: COMPRESS leaves a tree, its pair and the codes of the input, from which EXPAND reads
the tree and then the input back. -/
theorem expandInvertsCompress : Obligations.ExpandInvertsCompress := by
  intro s u hcfg _ _ hout hw h herr
  obtain ⟨t, ht⟩ := compressed_of_noError hw h herr
  have hinput : s.input.length = s.inLen.toNat := liveBytes_length ..
  refine ⟨⟨t, ht.tree, ?_⟩, ?_⟩
  · obtain ⟨w, hallowed⟩ := ht.allowed
    rw [ht.freq] at hallowed ⊢
    rw [ht.bitCount, toNat_ofNat_of_lt (ht.bits_lt hcfg),
      concatCodes_length_eq_weightedDepth (hinput ▸ s.inLen.isLt) hallowed]
  · obtain ⟨v, hv, hverr, hpartial, hlen, hcells⟩ := ht.expand hcfg hout
    refine ⟨v, hv, hverr, hpartial, hlen, fun j hj => ?_⟩
    rw [hcells, Memory.read_fill, if_pos (hinput ▸ hj), input_getElem? hw hj]

end Sys2Proof.Machine
end

section
/-! PROOFS. FREQ (spec/40_frequency_analyzer.md): its two outcomes, and the mapping it counts. -/

namespace Sys2Proof.Machine

/-! ## A mapping is its counts -/

/-- In canonical form a cell is listed exactly when it is a symbol's and its count is not 0. -/
theorem read_eq_some_iff_countAt {m : Memory Word} (hm : freqWf m = true) {i : Nat} {v : Word} :
    m.read i = some v ↔ ∃ b : Sym8, b.toNat = i ∧ countAt m b = v ∧ v ≠ 0 := by
  obtain ⟨hwf, hne⟩ := freqWf_iff.1 hm
  obtain ⟨hrising, hlt⟩ := Memory.wf_iff.1 hwf
  constructor
  · intro h
    have hmem := (Memory.mem_iff_read hrising i v).2 h
    have hi : (BitVec.ofNat 8 i).toNat = i := Nat.mod_eq_of_lt (hlt _ hmem)
    exact ⟨BitVec.ofNat 8 i, hi, by rw [countAt, hi, h, Option.getD_some], hne _ hmem⟩
  · rintro ⟨b, rfl, rfl, hv⟩
    cases h : m.read b.toNat with
    | none => simp [countAt, h] at hv
    | some w => simp [countAt, h]

/-- Mappings in canonical form with equal counts are equal. -/
theorem eq_of_countAt_eq {m n : Memory Word} (hm : freqWf m = true) (hn : freqWf n = true)
    (h : ∀ b, countAt m b = countAt n b) : m = n := by
  have hread : ∀ i, m.read i = n.read i := fun i => Option.ext fun v => by
    simp only [read_eq_some_iff_countAt hm, read_eq_some_iff_countAt hn, h]
  exact Memory.ext_of_read (Memory.wf_iff.1 (freqWf_iff.1 hm).1).1
    (Memory.wf_iff.1 (freqWf_iff.1 hn).1).1 hread

/-! ## The counted bytes -/

theorem countBytes_perm {bs cs : List Byte} (h : bs.Perm cs) : countBytes bs = countBytes cs :=
  eq_of_countAt_eq (freqWf_countBytes bs) (freqWf_countBytes cs) fun b => by
    rw [countAt_countBytes, countAt_countBytes, h.count_eq]

theorem totalCount_countBytes {bs : List Byte} (h : bs.length < 2 ^ 32) :
    totalCount (countBytes bs) = bs.length := by
  have hmem : ∀ b ∈ (bs : Multiset Byte), b ∈ allSymbols.toFinset := fun b _ =>
    List.mem_toFinset.2 (mem_allSymbols b)
  calc totalCount (countBytes bs)
      = (allSymbols.map fun b => bs.count b).sum := by
        simp only [totalCount, countAt_countBytes_toNat h]
    _ = ∑ b ∈ allSymbols.toFinset, bs.count b := (List.sum_toFinset _ nodup_allSymbols).symm
    _ = bs.length := by
        simpa only [Multiset.coe_count, Multiset.coe_card] using Multiset.sum_count_eq_card hmem

theorem mem_presentSymbols_countBytes {bs : List Byte} (h : bs.length < 2 ^ 32) {b : Sym8} :
    b ∈ presentSymbols (countBytes bs) ↔ b ∈ bs := by
  rw [mem_presentSymbols, ← List.count_pos_iff, ← countAt_countBytes_toNat h, Nat.pos_iff_ne_zero,
    ne_eq, ne_eq, BitVec.toNat_eq]
  rfl

/-- The present symbols of the counted bytes are the distinct bytes. -/
theorem presentSymbols_countBytes_perm {bs : List Byte} (h : bs.length < 2 ^ 32) :
    (presentSymbols (countBytes bs)).Perm bs.dedup :=
  (List.perm_ext_iff_of_nodup (nodup_presentSymbols _) (List.nodup_dedup _)).2 fun b => by
    rw [mem_presentSymbols_countBytes h, List.mem_dedup]

/-! ## The live input -/

theorem input_length (s : State) : s.input.length = s.inLen.toNat := liveBytes_length ..

theorem input_length_lt (s : State) : s.input.length < 2 ^ 32 := input_length s ▸ s.inLen.isLt

section
variable {s : State}

theorem input_eq_nil (h : s.inLen = 0) : s.input = [] := by
  rw [← List.length_eq_zero_iff, input_length, h]
  rfl

theorem count_input (hw : inputsWritten .freq s = true) (b : Sym8) :
    s.input.count b = occurrences s b := by
  rw [List.count, State.input, liveBytes, List.countP_map, occurrences]
  refine List.countP_congr fun j hj => ?_
  obtain ⟨v, hv⟩ := Memory.writtenBelow_iff.1 hw j (List.mem_range.1 hj)
  simp [hv]

/-! ## The two outcomes of FREQ -/

theorem exec_freq_of_lt (h : s.cfg.inCap.toNat < s.inLen.toNat) :
    exec .freq s = .next (aborted .freq .capacityExceeded 0 s) := by
  obtain ⟨-, hexec⟩ | ⟨hle, -⟩ := execFreq_cases s
  · exact hexec
  · omega

theorem exec_freq_of_le (h : s.inLen.toNat ≤ s.cfg.inCap.toNat) :
    exec .freq s = .next (report .noError 0 false (writeFreq (countBytes s.input) s)) := by
  obtain ⟨hlt, -⟩ | ⟨-, hexec⟩ := execFreq_cases s
  · omega
  · exact hexec

end

/-! ## BUILD of a mapping without counts -/

theorem presentSymbols_eq_nil {m : Memory Word} (h : ∀ b, countAt m b = 0) :
    presentSymbols m = [] :=
  List.eq_nil_iff_forall_not_mem.2 fun b hb => mem_presentSymbols.1 hb (h b)

theorem exec_build_of_countAt_eq_zero {s : State} (h : ∀ b, countAt s.freq b = 0) :
    exec .build s = .next (aborted .build .emptyAlphabet 0 s) := by
  have hnone : buildRoot s.cfg.tiebreak s.freq = none := by
    rw [buildRoot, presentSymbols_eq_nil h, leafEntries, mergeLeaves]
  obtain ⟨-, hexec⟩ | ⟨r, hr, -⟩ := execBuild_cases s
  · exact hexec
  · cases hnone.symm.trans hr

/-! ## The statements -/

/-- Settles O11: each cell is the count of its symbol in the live input, and the counts of all symbols
add up to its length. -/
theorem freqCountsTheLiveInput : Obligations.FreqCountsTheLiveInput := by
  intro s hcap hw
  have hlt := input_length_lt s
  refine ⟨countBytes s.input, exec_freq_of_le hcap, fun b => ?_, ?_, fun b => ?_, ?_⟩
  · rw [countAt_countBytes_toNat hlt, count_input hw]
  · rw [totalCount_countBytes hlt, input_length]
  · rw [countAt_countBytes_toNat hlt, ← input_length s]
    exact List.count_le_length
  · rw [← presentSymbols_eq_filter]
    exact (presentSymbols_countBytes_perm hlt).length_eq

/-- Settles O14: FREQ writes the counts of its input, which a permutation does not change. -/
theorem freqIgnoresTheOrderOfTheInput : Obligations.FreqIgnoresTheOrderOfTheInput := by
  intro s s' t t' hperm hcap hcap' _ _ h h'
  obtain rfl := Host.Outcome.next.inj ((exec_freq_of_le hcap).symm.trans h)
  obtain rfl := Host.Outcome.next.inj ((exec_freq_of_le hcap').symm.trans h')
  simpa using countBytes_perm hperm

/-- Settles O12: the abort of FREQ empties its one output, `FREQ`. -/
theorem freqAbortsOverCapacity : Obligations.FreqAbortsOverCapacity :=
  fun _ h => exec_freq_of_lt h

/-- Settles O13: the counts of no bytes are the empty mapping, in which BUILD finds no symbol. -/
theorem freqOfEmptyInputIsTheEmptyMapping : Obligations.FreqOfEmptyInputIsTheEmptyMapping := by
  intro s hlen
  constructor
  · have hexec := exec_freq_of_le (s := s) (by simp [hlen])
    rw [input_eq_nil hlen] at hexec
    exact hexec
  · exact exec_build_of_countAt_eq_zero countAt_nil

end Sys2Proof.Machine
end

section
/-! PROOFS. What BUILD answers (spec/41_tree_builder.md): an allowed tree, the leaf of a single symbol,
the abort without a symbol, and the worked example. -/

namespace Sys2Proof.Machine

/-! ## The root entry -/

theorem mergeLeaves_exists (choice : Nat → Nat) {leaves : List PqEntry} (h : leaves ≠ []) :
    ∃ r, mergeLeaves choice leaves = some r := by
  obtain ⟨e, es, rfl⟩ := List.exists_cons_of_ne_nil h
  obtain ⟨-, hlen⟩ := mergeSteps_allowed choice (es.length + 1) 0 (pq := e :: es)
    (Nat.lt_succ_self es.length)
  rw [List.length_cons, Nat.add_comm] at hlen
  obtain ⟨r, hr⟩ := List.length_eq_one_iff.1 (Nat.add_left_cancel hlen)
  exact ⟨r, by rw [mergeLeaves, hr]; rfl⟩

theorem leafEntries_ne_nil (m : Memory Word) (seq : Nat) {bs : List Sym8} (h : bs ≠ []) :
    leafEntries m seq bs ≠ [] := by
  obtain ⟨b, bs, rfl⟩ := List.exists_cons_of_ne_nil h
  exact List.cons_ne_nil _ _

/-- BUILD of a mapping with a symbol has a root entry, whatever the tie-break. -/
theorem buildRoot_exists (tb : TieBreak) {m : Memory Word} {b : Sym8} (h : countAt m b ≠ 0) :
    ∃ r, buildRoot tb m = some r :=
  mergeLeaves_exists _
    (leafEntries_ne_nil m 0 (List.ne_nil_of_mem (mem_presentSymbols.2 h)))

theorem exec_build_of_buildRoot {s : State} {r : PqEntry}
    (h : buildRoot s.cfg.tiebreak s.freq = some r) :
    exec .build s
      = .next (report .noError 0 false (writeTree r.tree (BitVec.ofNat 40 r.weight) s)) := by
  obtain ⟨hnone, -⟩ | ⟨r', hr', hexec⟩ := execBuild_cases s
  · cases hnone.symm.trans h
  · obtain rfl := Option.some.inj (hr'.symm.trans h)
    exact hexec

/-- Settles O17: the root entry is what the merge rule reaches, and BUILD writes its tree and its
weight. -/
theorem buildGivesAnAllowedTree : Obligations.BuildGivesAnAllowedTree := by
  rintro s ⟨b, hb⟩
  obtain ⟨r, hr⟩ := buildRoot_exists s.cfg.tiebreak hb
  exact ⟨r.tree, r.weight, exec_build_of_buildRoot hr, buildRoot_allowed hr⟩

/-! ## One symbol -/

theorem presentSymbols_eq_singleton {m : Memory Word} {b : Sym8} (hb : countAt m b ≠ 0)
    (h : ∀ c, c ≠ b → countAt m c = 0) : presentSymbols m = [b] := by
  refine List.perm_singleton.1 <| (List.perm_ext_iff_of_nodup (nodup_presentSymbols m)
    (List.nodup_singleton b)).2 fun c => ?_
  rw [mem_presentSymbols, List.mem_singleton]
  exact ⟨fun hc => not_imp_comm.1 (h c) hc, fun hc => hc ▸ hb⟩

theorem buildRoot_of_presentSymbols_singleton (tb : TieBreak) {m : Memory Word} {b : Sym8}
    (h : presentSymbols m = [b]) : buildRoot tb m = some ⟨(countAt m b).toNat, 0, .leaf b⟩ := by
  rw [buildRoot, h]
  rfl

/-- Settles O16: the leaf of the one present symbol is the root without a merge. -/
theorem buildOfOneSymbolIsItsLeaf : Obligations.BuildOfOneSymbolIsItsLeaf := by
  intro s b hb hother
  have hroot := buildRoot_of_presentSymbols_singleton s.cfg.tiebreak
    (presentSymbols_eq_singleton hb hother)
  have hexec := exec_build_of_buildRoot hroot
  rw [BitVec.ofNat_toNat] at hexec
  exact ⟨_, hexec, rfl, rfl, rfl⟩

/-! ## No symbol -/

theorem countAt_freq_of_empty {s t : State} (h : exec .freq s = .next t)
    (hempty : s.inLen = 0 ∨ t.err ≠ .noError) : t.freq = [] := by
  cases ends_of_exec h with
  | abort _ => rfl
  | freq =>
    obtain hlen | herr := hempty
    · rw [report_freq, writeFreq_freq, input_eq_nil hlen]
      rfl
    · exact absurd rfl herr

/-- Settles O15: without a count there is no leaf to merge; reset, FREQ of no bytes and the abort of FREQ
leave the mapping without an entry. -/
theorem buildOfEmptyMappingAborts : Obligations.BuildOfEmptyMappingAborts :=
  ⟨fun _ h => exec_build_of_countAt_eq_zero h, countAt_nil,
    fun _ _ h hempty b => by rw [countAt_freq_of_empty h hempty, countAt_nil]⟩

/-! ## The worked example -/

/-- The four merges of the example (spec/41_tree_builder.md R132). -/
theorem buildRoot_example :
    buildRoot .reference [(0x61, 2), (0x62, 1), (0x63, 2), (0x65, 4), (0x66, 3)]
      = some ⟨12, 8, .node (.node (.leaf 0x63) (.leaf 0x66))
          (.node (.node (.leaf 0x62) (.leaf 0x61)) (.leaf 0x65))⟩ := by
  decide +kernel

/-- Settles O21: BUILD writes the root entry of the example; the report is as reset left it. -/
theorem buildReferenceExample : Obligations.BuildReferenceExample :=
  exec_build_of_buildRoot (s := { State.reset with
    freq := [(0x61, 2), (0x62, 1), (0x63, 2), (0x65, 4), (0x66, 3)] }) buildRoot_example

end Sys2Proof.Machine
end

section
/-! PROOFS. The reference tie-break (spec/41_tree_builder.md R126): `remove_min` takes the first of the
least entries, and the priority structure is kept in the order of the sequence numbers. -/

namespace Sys2Proof.Machine

/-! ## The least entries -/

theorem leastWeight_of_isLeast {e : PqEntry} {pq : List PqEntry} (h : isLeast e pq) :
    leastWeight pq = e.weight := by
  obtain ⟨hmem, hle⟩ := h
  have hmin : (pq.map PqEntry.weight).min? = some e.weight :=
    List.min?_eq_some_iff.2 ⟨List.mem_map_of_mem hmem, List.forall_mem_map.2 hle⟩
  rw [leastWeight, hmin, Option.getD_some]

theorem mem_leastEntries_of_isLeast {e : PqEntry} {pq : List PqEntry} (h : isLeast e pq) :
    e ∈ leastEntries pq :=
  List.mem_filter.2 ⟨h.1, decide_eq_true (leastWeight_of_isLeast h).symm⟩

theorem removeMin_zero {e : PqEntry} {es pq : List PqEntry} (h : leastEntries pq = e :: es) :
    removeMin 0 pq = some (e, pq.erase e) := by
  rw [removeMin, h]
  simp

/-- In ascending order of sequence numbers the first least entry is the earliest of them. -/
theorem seq_le_of_leastEntries {e x : PqEntry} {es pq : List PqEntry}
    (hseq : pq.Pairwise fun x y => x.seq < y.seq) (he : leastEntries pq = e :: es)
    (hx : x ∈ leastEntries pq) : e.seq ≤ x.seq := by
  have hleast : (leastEntries pq).Pairwise fun x y => x.seq < y.seq :=
    hseq.sublist List.filter_sublist
  have hfirst : ∀ y ∈ es, e.seq < y.seq := (List.pairwise_cons.1 (he ▸ hleast)).1
  obtain rfl | hx := List.mem_cons.1 (he ▸ hx)
  · exact le_rfl
  · exact (hfirst x hx).le

theorem removeMin_reference (m : Memory Word) (n : Nat) {pq : List PqEntry} (hne : pq ≠ [])
    (hseq : pq.Pairwise fun x y => x.seq < y.seq) :
    ∃ e, removeMin (tieIndex .reference m n) pq = some (e, pq.erase e) ∧ e ∈ pq ∧
      ∀ x ∈ pq, e.weight < x.weight ∨ (e.weight = x.weight ∧ e.seq ≤ x.seq) := by
  obtain ⟨e, es, he⟩ := List.exists_cons_of_ne_nil (leastEntries_ne_nil hne)
  have hremove : removeMin (tieIndex .reference m n) pq = some (e, pq.erase e) := removeMin_zero he
  obtain ⟨⟨hmem, hle⟩, -⟩ := removeMin_some hremove
  refine ⟨e, hremove, hmem, fun x hx => (hle x hx).lt_or_eq.imp_right fun heq => ⟨heq, ?_⟩⟩
  exact seq_le_of_leastEntries hseq he
    (mem_leastEntries_of_isLeast ⟨hx, fun y hy => heq ▸ hle y hy⟩)

/-! ## The order of insertion -/

/-- The sequence numbers ascend and are those of earlier insertions than `bound`. -/
def inOrder (bound : Nat) (pq : List PqEntry) : Prop :=
  (pq.Pairwise fun x y => x.seq < y.seq) ∧ ∀ e ∈ pq, e.seq < bound

theorem inOrder_append {seq : Nat} {pq rest : List PqEntry} {e : PqEntry} (h : inOrder seq pq)
    (hsub : rest.Sublist pq) (he : e.seq = seq) : inOrder (seq + 1) (rest ++ [e]) := by
  obtain ⟨hpair, hlt⟩ := h
  have hrest : ∀ x ∈ rest, x.seq < seq := fun x hx => hlt x (hsub.subset hx)
  refine ⟨List.pairwise_append.2 ⟨hpair.sublist hsub, List.pairwise_singleton _ _, ?_⟩, ?_⟩
  · simpa [he] using hrest
  · intro x hx
    obtain hx | hx := List.mem_append.1 hx
    · exact (hrest x hx).trans (Nat.lt_succ_self seq)
    · rw [List.mem_singleton.1 hx, he]
      exact Nat.lt_succ_self seq

theorem inOrder_mergeStep (choice : Nat → Nat) {seq : Nat} {pq : List PqEntry}
    (h : inOrder seq pq) : inOrder (seq + 1) (mergeStep choice seq pq) := by
  have hkeep : inOrder (seq + 1) pq := ⟨h.1, fun e he => (h.2 e he).trans (Nat.lt_succ_self seq)⟩
  unfold mergeStep
  split
  · exact hkeep
  · rename_i a pq₁ ha
    obtain ⟨-, rfl⟩ := removeMin_some ha
    split
    · exact hkeep
    · rename_i b pq₂ hb
      obtain ⟨-, rfl⟩ := removeMin_some hb
      exact inOrder_append h (List.erase_sublist.trans List.erase_sublist) rfl

theorem pairwise_mergeSteps (choice : Nat → Nat) (n fuel k : Nat) {pq : List PqEntry}
    (h : inOrder (n + k) pq) : (mergeSteps choice n fuel k pq).Pairwise fun x y => x.seq < y.seq := by
  induction fuel generalizing k pq with
  | zero => exact h.1
  | succ fuel ih => exact ih (k + 1) (inOrder_mergeStep _ h)

theorem seq_bounds_leafEntries {m : Memory Word} {seq : Nat} {bs : List Sym8} {e : PqEntry}
    (h : e ∈ leafEntries m seq bs) : seq ≤ e.seq ∧ e.seq < seq + bs.length := by
  induction bs generalizing seq with
  | nil => cases h
  | cons b bs ih =>
    rw [List.length_cons]
    obtain rfl | h := List.mem_cons.1 h
    · exact ⟨le_rfl, by simp⟩
    · obtain ⟨hlo, hhi⟩ := ih h
      exact ⟨by omega, by omega⟩

theorem leafEntries_length (m : Memory Word) (seq : Nat) (bs : List Sym8) :
    (leafEntries m seq bs).length = bs.length := by
  induction bs generalizing seq with
  | nil => rfl
  | cons b bs ih => exact congrArg (· + 1) (ih (seq + 1))

theorem pairwise_leafEntries (m : Memory Word) (seq : Nat) (bs : List Sym8) :
    (leafEntries m seq bs).Pairwise fun x y => x.seq < y.seq := by
  induction bs generalizing seq with
  | nil => exact .nil
  | cons b bs ih => exact .cons (fun _ hx => (seq_bounds_leafEntries hx).1) (ih (seq + 1))

theorem inOrder_leafEntries (m : Memory Word) (bs : List Sym8) :
    inOrder (leafEntries m 0 bs).length (leafEntries m 0 bs) := by
  refine ⟨pairwise_leafEntries m 0 bs, fun e he => ?_⟩
  rw [leafEntries_length, ← Nat.zero_add bs.length]
  exact (seq_bounds_leafEntries he).2

/-- Settles O20: the first of the least entries is the earliest in a structure kept in the order of
insertion, and every merge appends the highest sequence number. -/
theorem referencePolicyTakesTheEarliest : Obligations.ReferencePolicyTakesTheEarliest :=
  ⟨fun m n _ hne hseq => removeMin_reference m n hne hseq,
    fun choice m k => pairwise_mergeSteps choice _ k 0 (inOrder_leafEntries m _)⟩

end Sys2Proof.Machine
end

section
/-! PROOFS. The weights of an allowed tree (spec/41_tree_builder.md R130, R131): every entry weighs what
its leaves weigh, and the weighted depth of a tree is the weight of its internal nodes. -/

namespace Sys2Proof.Machine

/-! ## One merge -/

/-- What a merge step does: it joins two entries, the lighter one first, and no other entry is lighter
than these. -/
theorem canMerge_cases {pq pq' : List PqEntry} (h : canMerge pq pq') :
    ∃ a b seq rest, pq.Perm (a :: b :: rest) ∧ pq'.Perm (mergeEntry seq a b :: rest) ∧
      a.weight ≤ b.weight ∧ ∀ x ∈ rest, b.weight ≤ x.weight := by
  obtain ⟨a, b, seq, ⟨ha, hale⟩, ⟨hb, hble⟩, hperm⟩ := h
  exact ⟨a, b, seq, (pq.erase a).erase b,
    (List.perm_cons_erase ha).trans ((List.perm_cons_erase hb).cons a), hperm,
    hale b (List.mem_of_mem_erase hb), fun x hx => hble x (List.mem_of_mem_erase hx)⟩

/-! ## The weight of an entry -/

/-- Every entry has the weight of the leaves of its tree (spec/41_tree_builder.md R122). -/
def weighsItsLeaves (m : Memory Word) (pq : List PqEntry) : Prop :=
  ∀ e ∈ pq, e.weight = treeWeight m e.tree

theorem treeWeight_node (m : Memory Word) (l r : HuffTree) :
    treeWeight m (.node l r) = treeWeight m l + treeWeight m r := by
  simp [treeWeight, HuffTree.leaves]

theorem weighsItsLeaves_leafEntries (m : Memory Word) (seq : Nat) (bs : List Sym8) :
    weighsItsLeaves m (leafEntries m seq bs) := by
  induction bs generalizing seq with
  | nil => exact nofun
  | cons b bs ih => exact List.forall_mem_cons.2 ⟨rfl, ih (seq + 1)⟩

theorem weighsItsLeaves_of_canMerge {m : Memory Word} {pq pq' : List PqEntry}
    (h : weighsItsLeaves m pq) (hstep : canMerge pq pq') : weighsItsLeaves m pq' := by
  obtain ⟨a, b, seq, rest, hpq, hpq', -, -⟩ := canMerge_cases hstep
  obtain ⟨ha, hb, hrest⟩ : a.weight = treeWeight m a.tree ∧ b.weight = treeWeight m b.tree ∧
      weighsItsLeaves m rest := by
    simpa [weighsItsLeaves, hpq.mem_iff] using h
  have hmerged : (mergeEntry seq a b).weight = treeWeight m (mergeEntry seq a b).tree := by
    rw [mergeEntry, treeWeight_node, ha, hb]
  intro e he
  obtain rfl | he := List.mem_cons.1 (hpq'.mem_iff.1 he)
  · exact hmerged
  · exact hrest e he

theorem weighsItsLeaves_of_merges {m : Memory Word} {pq pq' : List PqEntry}
    (h : weighsItsLeaves m pq) (hsteps : Relation.ReflTransGen canMerge pq pq') :
    weighsItsLeaves m pq' := by
  induction hsteps with
  | refl => exact h
  | tail _ hstep ih => exact weighsItsLeaves_of_canMerge ih hstep

theorem allowed_weight {m : Memory Word} {t : HuffTree} {w : Nat} (h : allowed m t w) :
    w = treeWeight m t := by
  obtain ⟨seq, hsteps⟩ := h
  exact weighsItsLeaves_of_merges (weighsItsLeaves_leafEntries m 0 _) hsteps _
    (List.mem_singleton_self _)

/-! ## The sum of the counts -/

theorem sum_presentSymbols (m : Memory Word) :
    ((presentSymbols m).map fun b => (countAt m b).toNat).sum = totalCount m := by
  rw [presentSymbols_eq_filter, totalCount, ← List.sum_filter_bne_zero (allSymbols.map _),
    List.filter_map]
  refine congrArg List.sum (congrArg _ (List.filter_congr fun b _ => ?_))
  rw [Bool.eq_iff_iff]
  simp [BitVec.toNat_eq]

theorem treeWeight_of_allowed {m : Memory Word} {t : HuffTree} {w : Nat} (h : allowed m t w) :
    treeWeight m t = totalCount m :=
  ((allowed_leaves h).map _).sum_eq.trans (sum_presentSymbols m)

/-- At most 256 counts of 32 bits (spec/41_tree_builder.md R131). -/
theorem totalCount_lt (m : Memory Word) : totalCount m < 2 ^ 40 := by
  have hcount : ∀ x ∈ allSymbols.map fun b => (countAt m b).toNat, x ≤ 2 ^ 32 - 1 :=
    List.forall_mem_map.2 fun b _ => Nat.le_sub_one_of_lt (countAt m b).isLt
  calc totalCount m
      ≤ (allSymbols.map fun b => (countAt m b).toNat).length • (2 ^ 32 - 1) :=
        List.sum_le_card_nsmul _ _ hcount
    _ = 256 * (2 ^ 32 - 1) := by
      rw [List.length_map, allSymbols, List.length_map, List.length_range, smul_eq_mul]
    _ < 2 ^ 40 := by norm_num

/-! ## The weighted depth -/

/-- Each level above a leaf is an internal node that the leaf's weight counts in. -/
theorem sum_depths (m : Memory Word) (t : HuffTree) (d : Nat) :
    ((t.depths d).map fun e => (countAt m e.1).toNat * e.2).sum
      = treeWeight m t * d + internalWeights m t := by
  induction t generalizing d with
  | leaf b => simp [HuffTree.depths, treeWeight, HuffTree.leaves, internalWeights]
  | node l r ihl ihr =>
    rw [HuffTree.depths, List.map_append, List.sum_append, ihl, ihr, internalWeights,
      treeWeight_node]
    ring

theorem weightedDepth_eq_internalWeights (m : Memory Word) (t : HuffTree) :
    weightedDepth m t = internalWeights m t := by
  rw [weightedDepth, sum_depths, Nat.mul_zero, Nat.zero_add]

/-- Settles O18: merging keeps the leaves and their weight; the depths of a tree are counted by its
internal nodes. -/
theorem allowedTreesKeepLeavesAndWeight : Obligations.AllowedTreesKeepLeavesAndWeight := by
  intro m t w h
  have hw := allowed_weight h
  have htotal := treeWeight_of_allowed h
  exact ⟨presentSymbols_eq_filter m ▸ allowed_leaves h, hw.trans htotal, hw,
    hw.trans htotal ▸ totalCount_lt m, weightedDepth_eq_internalWeights m t⟩

end Sys2Proof.Machine
end

section
/-! PROOFS. An allowed tree is optimal (spec/41_tree_builder.md R130 (c)). A competing tree counts only
through the depths of its leaves and the weights placed at them. It has two deepest leaves that are
siblings; placing the two least weights there costs no more, and contracting them gives a competitor for
the structure after the merge. -/

namespace Sys2Proof.Machine

/-! ## Weights placed at depths -/

/-- The cost of weights placed at depths, given as pairs of a weight and a depth. -/
def placementCost (ps : Multiset (Nat × Nat)) : Nat := (ps.map fun p => p.1 * p.2).sum

theorem placementCost_cons (p : Nat × Nat) (ps : Multiset (Nat × Nat)) :
    placementCost (p ::ₘ ps) = p.1 * p.2 + placementCost ps := by
  rw [placementCost, Multiset.map_cons, Multiset.sum_cons, placementCost]

/-- Exchange: a least weight can be placed at a greatest depth for no more. -/
theorem exists_least_at_deepest {ps : Multiset (Nat × Nat)} {w d : Nat} {ws ds : Multiset Nat}
    (hws : ps.map Prod.fst = w ::ₘ ws) (hds : ps.map Prod.snd = d ::ₘ ds)
    (hw : ∀ x ∈ ws, w ≤ x) (hd : ∀ y ∈ ds, y ≤ d) :
    ∃ qs : Multiset (Nat × Nat), qs.map Prod.fst = ws ∧ qs.map Prod.snd = ds ∧
      w * d + placementCost qs ≤ placementCost ps := by
  obtain ⟨⟨w, y⟩, hwy, rfl, rfl⟩ := (Multiset.map_eq_cons ..).2 hws
  obtain ⟨qs, rfl⟩ := Multiset.exists_cons_of_mem hwy
  rw [Multiset.erase_cons_head] at hw ⊢
  rw [Multiset.map_cons, Multiset.cons_eq_cons] at hds
  obtain ⟨rfl, hqs⟩ | ⟨-, cs, hqs, rfl⟩ := hds
  · exact ⟨qs, rfl, hqs, (placementCost_cons ..).ge⟩
  · obtain ⟨⟨x, d⟩, hxd, rfl, rfl⟩ := (Multiset.map_eq_cons ..).2 hqs
    obtain ⟨rs, rfl⟩ := Multiset.exists_cons_of_mem hxd
    rw [Multiset.erase_cons_head] at hd ⊢
    refine ⟨(x, y) ::ₘ rs, by simp, by simp, ?_⟩
    have hexchange : w * d + x * y ≤ w * y + x * d :=
      mul_add_mul_le_mul_add_mul (hw x (by simp)) (hd y (by simp))
    simp only [placementCost_cons]
    omega

/-! ## The depths of a tree's leaves -/

/-- The depths of the leaves of a tree whose root is at depth `d`. -/
def HuffTree.leafDepths (t : HuffTree) (d : Nat) : Multiset Nat := ↑((t.depths d).map Prod.snd)

@[simp] theorem HuffTree.leafDepths_leaf (b : Sym8) (d : Nat) :
    (HuffTree.leaf b).leafDepths d = {d} := rfl

@[simp] theorem HuffTree.leafDepths_node (l r : HuffTree) (d : Nat) :
    (HuffTree.node l r).leafDepths d = l.leafDepths (d + 1) + r.leafDepths (d + 1) := by
  simp [HuffTree.leafDepths, HuffTree.depths]

/-- A tree with its root at depth `d` has two sibling leaves at depth `k + 1`, none is deeper, and the
depths of the others are `rest`: some tree has one leaf at depth `k` in place of the two. -/
structure DeepestPair (t : HuffTree) (d k : Nat) (rest : Multiset Nat) : Prop where
  depths : t.leafDepths d = (k + 1) ::ₘ (k + 1) ::ₘ rest
  contracted : ∃ s : HuffTree, s.leafDepths d = k ::ₘ rest
  le : ∀ x ∈ rest, x ≤ k + 1
  root_le : d ≤ k

theorem DeepestPair.depth_le {t : HuffTree} {d k : Nat} {rest : Multiset Nat}
    (h : DeepestPair t d k rest) : ∀ x ∈ t.leafDepths d, x ≤ k + 1 := by
  simpa [h.depths] using h.le

/-- The deepest pair of a subtree is one of the tree when the other subtree is no deeper. -/
theorem DeepestPair.node {l r : HuffTree} {d k : Nat} {rest : Multiset Nat}
    (h : DeepestPair l (d + 1) k rest) (hr : ∀ x ∈ r.leafDepths (d + 1), x ≤ k + 1) :
    DeepestPair (.node l r) d k (rest + r.leafDepths (d + 1)) where
  depths := by simp [h.depths]
  contracted := by
    obtain ⟨s, hs⟩ := h.contracted
    exact ⟨.node s r, by simp [hs]⟩
  le x hx := (Multiset.mem_add.1 hx).elim (h.le x) (hr x)
  root_le := Nat.le_of_succ_le h.root_le

theorem DeepestPair.swap {l r : HuffTree} {d k : Nat} {rest : Multiset Nat}
    (h : DeepestPair (.node l r) d k rest) : DeepestPair (.node r l) d k rest :=
  { h with depths := by rw [← h.depths, r.leafDepths_node, l.leafDepths_node, add_comm] }

/-- Unless a tree is a leaf it has a deepest pair, in the deeper of its two subtrees or, if both are
leaves, at its root. -/
theorem exists_deepestPair (t : HuffTree) (d : Nat) :
    t.leafDepths d = {d} ∨ ∃ k rest, DeepestPair t d k rest := by
  induction t generalizing d with
  | leaf b => exact .inl rfl
  | node l r ihl ihr =>
    refine .inr ?_
    obtain hl | ⟨k, rest, hl⟩ := ihl (d + 1) <;> obtain hr | ⟨k', rest', hr⟩ := ihr (d + 1)
    · exact ⟨d, 0, by simp [hl, hr], ⟨.leaf 0, rfl⟩, nofun, le_rfl⟩
    · exact ⟨_, _, (hr.node (by simpa [hl] using Nat.le_of_succ_le hr.root_le)).swap⟩
    · exact ⟨_, _, hl.node (by simpa [hr] using Nat.le_of_succ_le hl.root_le)⟩
    · obtain hle | hle := le_total k k'
      · exact ⟨_, _, (hr.node fun x hx => (hl.depth_le x hx).trans (by omega)).swap⟩
      · exact ⟨_, _, hl.node fun x hx => (hr.depth_le x hx).trans (by omega)⟩

/-! ## Competitors -/

/-- The weights `ws` are placed, by `ps`, at the leaves of some tree. -/
def isPlacement (ws : Multiset Nat) (ps : Multiset (Nat × Nat)) : Prop :=
  ps.map Prod.fst = ws ∧ ∃ t : HuffTree, ps.map Prod.snd = t.leafDepths 0

/-- The merge of the two least weights: a placement gives one with their sum in place of the two that
costs at least that sum less. -/
theorem exists_placement_of_merge {ps : Multiset (Nat × Nat)} {a b : Nat} {ws : Multiset Nat}
    (h : isPlacement (a ::ₘ b ::ₘ ws) ps) (hab : a ≤ b) (hb : ∀ x ∈ ws, b ≤ x) :
    ∃ qs, isPlacement ((a + b) ::ₘ ws) qs ∧ a + b + placementCost qs ≤ placementCost ps := by
  obtain ⟨hws, t, ht⟩ := h
  obtain hleaf | ⟨k, rest, hpair⟩ := exists_deepestPair t 0
  · have hcard := congrArg Multiset.card hws
    rw [Multiset.card_map, ← Multiset.card_map Prod.snd, ht, hleaf] at hcard
    simp at hcard
  · have ha : ∀ x ∈ b ::ₘ ws, a ≤ x := by
      simpa [hab] using fun x hx => hab.trans (hb x hx)
    have hdeep : ∀ y ∈ (k + 1) ::ₘ rest, y ≤ k + 1 := by simpa using hpair.le
    obtain ⟨ps₁, hws₁, hds₁, hcost₁⟩ :=
      exists_least_at_deepest hws (ht.trans hpair.depths) ha hdeep
    obtain ⟨ps₂, hws₂, hds₂, hcost₂⟩ := exists_least_at_deepest hws₁ hds₁ hb hpair.le
    obtain ⟨s, hs⟩ := hpair.contracted
    refine ⟨(a + b, k) ::ₘ ps₂, ⟨by simp [hws₂], s, by simp [hds₂, hs]⟩, ?_⟩
    calc a + b + placementCost ((a + b, k) ::ₘ ps₂)
        = a * (k + 1) + (b * (k + 1) + placementCost ps₂) := by rw [placementCost_cons]; ring
      _ ≤ a * (k + 1) + placementCost ps₁ := Nat.add_le_add_left hcost₂ _
      _ ≤ placementCost ps := hcost₁

/-! ## The merges against a competitor -/

/-- The weights present in a priority structure. -/
def entryWeights (pq : List PqEntry) : Multiset Nat := ↑(pq.map PqEntry.weight)

/-- The weight of the internal nodes of all trees in a priority structure. -/
def internalTotal (m : Memory Word) (pq : List PqEntry) : Nat :=
  (pq.map fun e => internalWeights m e.tree).sum

theorem entryWeights_cons (e : PqEntry) (pq : List PqEntry) :
    entryWeights (e :: pq) = e.weight ::ₘ entryWeights pq := rfl

theorem entryWeights_perm {pq pq' : List PqEntry} (h : pq.Perm pq') :
    entryWeights pq = entryWeights pq' :=
  Multiset.coe_eq_coe.2 (h.map _)

theorem internalTotal_cons (m : Memory Word) (e : PqEntry) (pq : List PqEntry) :
    internalTotal m (e :: pq) = internalWeights m e.tree + internalTotal m pq := List.sum_cons

theorem internalTotal_perm (m : Memory Word) {pq pq' : List PqEntry} (h : pq.Perm pq') :
    internalTotal m pq = internalTotal m pq' :=
  (h.map _).sum_eq

theorem internalWeights_mergeEntry {m : Memory Word} {a b : PqEntry}
    (ha : a.weight = treeWeight m a.tree) (hb : b.weight = treeWeight m b.tree) (seq : Nat) :
    internalWeights m (mergeEntry seq a b).tree
      = a.weight + b.weight + internalWeights m a.tree + internalWeights m b.tree := by
  rw [mergeEntry, internalWeights, treeWeight_node, ha, hb]

/-- A merge makes an internal node of the weight that it saves the competitor. -/
theorem exists_placement_of_canMerge {m : Memory Word} {pq pq' : List PqEntry}
    {ps : Multiset (Nat × Nat)} (hpq : weighsItsLeaves m pq) (hstep : canMerge pq pq')
    (hps : isPlacement (entryWeights pq) ps) :
    ∃ qs, isPlacement (entryWeights pq') qs ∧
      internalTotal m pq' + placementCost qs ≤ internalTotal m pq + placementCost ps := by
  obtain ⟨a, b, seq, rest, hperm, hperm', hab, hb⟩ := canMerge_cases hstep
  rw [entryWeights_perm hperm, entryWeights_cons, entryWeights_cons] at hps
  obtain ⟨qs, hqs, hcost⟩ := exists_placement_of_merge hps hab (by simpa [entryWeights] using hb)
  refine ⟨qs, entryWeights_perm hperm' ▸ hqs, ?_⟩
  have hnode := internalWeights_mergeEntry (hpq a (hperm.mem_iff.2 (by simp)))
    (hpq b (hperm.mem_iff.2 (by simp))) seq
  rw [internalTotal_perm m hperm, internalTotal_perm m hperm']
  simp only [internalTotal_cons]
  omega

theorem internalWeights_le_of_merges {m : Memory Word} {pq : List PqEntry} {r : PqEntry}
    (hsteps : Relation.ReflTransGen canMerge pq [r]) (hpq : weighsItsLeaves m pq)
    {ps : Multiset (Nat × Nat)} (hps : isPlacement (entryWeights pq) ps) :
    internalWeights m r.tree ≤ internalTotal m pq + placementCost ps := by
  induction hsteps using Relation.ReflTransGen.head_induction_on generalizing ps with
  | refl => exact Nat.le_add_right _ _
  | head hstep _ ih =>
    obtain ⟨qs, hqs, hle⟩ := exists_placement_of_canMerge hpq hstep hps
    exact (ih (weighsItsLeaves_of_canMerge hpq hstep) hqs).trans hle

/-! ## Optimality -/

theorem entryWeights_leafEntries (m : Memory Word) (seq : Nat) (bs : List Sym8) :
    entryWeights (leafEntries m seq bs) = ↑(bs.map fun b => (countAt m b).toNat) := by
  induction bs generalizing seq with
  | nil => rfl
  | cons b bs ih =>
    rw [leafEntries, entryWeights_cons, ih, Multiset.cons_coe, List.map_cons]

theorem internalTotal_leafEntries (m : Memory Word) (seq : Nat) (bs : List Sym8) :
    internalTotal m (leafEntries m seq bs) = 0 := by
  induction bs generalizing seq with
  | nil => rfl
  | cons b bs ih => rw [leafEntries, internalTotal_cons, ih, internalWeights]

@[simp] theorem HuffTree.depths_symbols (t : HuffTree) (d : Nat) :
    (t.depths d).map Prod.fst = t.leaves := by
  induction t generalizing d with
  | leaf b => rfl
  | node l r ihl ihr => rw [HuffTree.depths, List.map_append, ihl, ihr, HuffTree.leaves]

/-- The counts placed at the leaves of a tree. -/
def treePlacement (m : Memory Word) (t : HuffTree) : Multiset (Nat × Nat) :=
  ↑((t.depths 0).map fun e => ((countAt m e.1).toNat, e.2))

theorem placementCost_treePlacement (m : Memory Word) (t : HuffTree) :
    placementCost (treePlacement m t) = weightedDepth m t := by
  rw [placementCost, treePlacement, Multiset.map_coe, List.map_map, Multiset.sum_coe]
  rfl

theorem isPlacement_treePlacement (m : Memory Word) (t : HuffTree) :
    isPlacement ↑(t.leaves.map fun b => (countAt m b).toNat) (treePlacement m t) := by
  refine ⟨?_, t, ?_⟩
  · rw [← t.depths_symbols 0, List.map_map, treePlacement, Multiset.map_coe, List.map_map]
    rfl
  · rw [treePlacement, Multiset.map_coe, List.map_map]
    rfl

theorem weightedDepth_le_of_allowed {m : Memory Word} {t u : HuffTree} {w : Nat}
    (h : allowed m t w) (hu : u.leaves.Perm (presentSymbols m)) :
    weightedDepth m t ≤ weightedDepth m u := by
  obtain ⟨seq, hsteps⟩ := h
  have hplace : isPlacement (entryWeights (leafEntries m 0 (presentSymbols m)))
      (treePlacement m u) := by
    rw [entryWeights_leafEntries, ← Multiset.coe_eq_coe.2 (hu.map _)]
    exact isPlacement_treePlacement m u
  calc weightedDepth m t
      = internalWeights m t := weightedDepth_eq_internalWeights m t
    _ ≤ _ := internalWeights_le_of_merges hsteps (weighsItsLeaves_leafEntries m 0 _) hplace
    _ = weightedDepth m u := by
      rw [internalTotal_leafEntries, Nat.zero_add, placementCost_treePlacement]

/-- Settles O19: no tree with the present symbols on its leaves has less weighted depth than an allowed
one, and every allowed tree is such a tree. -/
theorem allowedTreesAreOptimal : Obligations.AllowedTreesAreOptimal :=
  ⟨fun _ _ _ _ h hu => weightedDepth_le_of_allowed h (hu.trans (allowed_leaves h)),
    fun _ _ _ _ _ h h' => (weightedDepth_le_of_allowed h (allowed_leaves h')).antisymm
      (weightedDepth_le_of_allowed h' (allowed_leaves h))⟩

end Sys2Proof.Machine
end

section
/-! PROOFS. GENCODE: the walk of a tree meets the leaf of every path, left to right, so the table keeps
the path of a symbol's last leaf; and a bit string runs into exactly one leaf. -/

namespace Sys2Proof.Machine

/-! ## The walk and the paths of a tree -/

theorem HuffTree.mem_walk_node {l r : HuffTree} {b : Sym8} {bit : Bool} {c : Code}
    (h : (b, c) ∈ (if bit then r else l).walk []) : (b, bit :: c) ∈ (node l r).walk [] := by
  rw [walk, l.walk_prefix, r.walk_prefix, List.mem_append]
  cases bit with
  | false => exact .inl (List.mem_map.2 ⟨(b, c), h, rfl⟩)
  | true => exact .inr (List.mem_map.2 ⟨(b, c), h, rfl⟩)

/-- The walk meets every leaf that a path leads to. -/
theorem HuffTree.mem_walk_of_follow {t : HuffTree} {b : Sym8} {c : Code}
    (h : t.follow c = some (.leaf b)) : (b, c) ∈ t.walk [] := by
  induction c generalizing t with
  | nil =>
    obtain rfl := Option.some.inj (t.follow_nil.symm.trans h)
    exact List.mem_singleton_self _
  | cons bit c ih =>
    cases t with
    | leaf s => cases h
    | node l r => exact mem_walk_node (ih h)

theorem HuffTree.mem_walk_iff_follow {t : HuffTree} {b : Sym8} {c : Code} :
    (b, c) ∈ t.walk [] ↔ t.follow c = some (.leaf b) :=
  ⟨follow_of_mem_walk, mem_walk_of_follow⟩

/-- Path `d` lies to the left of path `c`: they part at a node, `d` to the left. -/
def leftOf (d c : Code) : Prop := ∃ p x y, d = p ++ false :: x ∧ c = p ++ true :: y

theorem leftOf_append (p : Code) {d c : Code} (h : leftOf d c) : leftOf (p ++ d) (p ++ c) := by
  obtain ⟨q, x, y, rfl, rfl⟩ := h
  exact ⟨p ++ q, x, y, (List.append_assoc ..).symm, (List.append_assoc ..).symm⟩

/-- A walk goes from left to right (R141). -/
theorem HuffTree.walk_leftToRight (t : HuffTree) :
    (t.walk []).Pairwise fun e e' => leftOf e.2 e'.2 := by
  induction t with
  | leaf s => exact List.pairwise_singleton ..
  | node l r ihl ihr =>
    rw [walk, l.walk_prefix, r.walk_prefix, List.pairwise_append]
    refine ⟨ihl.map _ fun _ _ h => leftOf_append _ h, ihr.map _ fun _ _ h => leftOf_append _ h, ?_⟩
    intro e he e' he'
    obtain ⟨x, -, rfl⟩ := List.mem_map.1 he
    obtain ⟨y, -, rfl⟩ := List.mem_map.1 he'
    exact ⟨[], x.2, y.2, rfl, rfl⟩

/-! ## The table -/

theorem codeOf_codeTable_eq_none_iff {t : HuffTree} {b : Sym8} :
    codeOf (codeTable t) b = none ↔ ∀ c, t.follow c ≠ some (.leaf b) := by
  rw [codeTable, codeOf_tableOf, Option.map_eq_none_iff, List.find?_eq_none]
  refine ⟨fun h c hc => ?_, fun h e he heq => ?_⟩
  · exact h (b, c) (List.mem_reverse.2 (HuffTree.mem_walk_of_follow hc)) (decide_eq_true rfl)
  · obtain rfl : e.1 = b := of_decide_eq_true heq
    exact h e.2 (HuffTree.follow_of_mem_walk (List.mem_reverse.1 he))

theorem codeOf_codeTable_eq_some_iff {t : HuffTree} (ht : t.distinct) {b : Sym8} {c : Code} :
    codeOf (codeTable t) b = some c ↔ t.follow c = some (.leaf b) :=
  ⟨follow_of_codeOf, fun h => codeOf_of_mem_walk ht (HuffTree.mem_walk_of_follow h)⟩

/-- After the entry that gives a symbol its code the walk meets no leaf of the symbol (R145). -/
theorem walk_split_of_codeOf {t : HuffTree} {b : Sym8} {c : Code}
    (h : codeOf (codeTable t) b = some c) :
    ∃ before later, t.walk [] = before ++ (b, c) :: later ∧ ∀ e ∈ later, e.1 ≠ b := by
  rw [codeTable, codeOf_tableOf] at h
  obtain ⟨e, hfind, rfl⟩ := Option.map_eq_some_iff.1 h
  obtain ⟨hb, later, before, hsplit, hlater⟩ := List.find?_eq_some_iff_append.1 hfind
  obtain rfl : e.1 = b := of_decide_eq_true hb
  refine ⟨before.reverse, later.reverse, ?_, fun x hx => ?_⟩
  · rw [← List.reverse_reverse (t.walk []), hsplit]
    simp
  · simpa using hlater x (List.mem_reverse.1 hx)

theorem eq_or_leftOf_of_codeOf {t : HuffTree} {b : Sym8} {c d : Code}
    (hc : codeOf (codeTable t) b = some c) (hd : t.follow d = some (.leaf b)) :
    d = c ∨ leftOf d c := by
  obtain ⟨before, later, hsplit, hlater⟩ := walk_split_of_codeOf hc
  have hmem := HuffTree.mem_walk_of_follow hd
  have hpair := t.walk_leftToRight
  rw [hsplit] at hmem hpair
  rcases List.mem_append.1 hmem with hbefore | hmem
  · exact .inr ((List.pairwise_append.1 hpair).2.2 _ hbefore _ List.mem_cons_self)
  rcases List.mem_cons.1 hmem with heq | hmem
  · exact .inl (congrArg Prod.snd heq)
  · exact absurd rfl (hlater _ hmem)

/-! ## Prefixes -/

/-- A path to a leaf ends there: none goes on to another leaf. -/
theorem HuffTree.eq_of_follow_of_prefix {t : HuffTree} {b b' : Sym8} {c c' : Code}
    (hb : t.follow c = some (.leaf b)) (hb' : t.follow c' = some (.leaf b')) (h : c <+: c') :
    b = b' := by
  obtain ⟨q, rfl⟩ := h
  rw [follow_append, hb, Option.bind_some] at hb'
  cases q with
  | nil => exact leaf.inj (Option.some.inj hb')
  | cons _ _ => cases hb'

/-- An infinite bit string begins with the code. -/
def beginsWith (f : Nat → Bool) (code : Code) : Prop :=
  ∀ i (h : i < code.length), code[i] = f i

theorem prefix_of_beginsWith {f : Nat → Bool} {c c' : Code} (hc : beginsWith f c)
    (hc' : beginsWith f c') (hle : c.length ≤ c'.length) : c <+: c' :=
  List.prefix_iff_getElem.2 ⟨hle, fun i hi => (hc i hi).trans (hc' i (hi.trans_le hle)).symm⟩

/-- Every infinite bit string leads to a leaf. -/
theorem HuffTree.exists_follow_of_bits (t : HuffTree) (f : Nat → Bool) :
    ∃ b c, t.follow c = some (.leaf b) ∧ beginsWith f c := by
  induction t generalizing f with
  | leaf s => exact ⟨s, [], rfl, nofun⟩
  | node l r ihl ihr =>
    have ih : ∃ b c, (if f 0 then r else l).follow c = some (.leaf b) ∧
        beginsWith (fun i => f (i + 1)) c := by
      split
      · exact ihr _
      · exact ihl _
    obtain ⟨b, c, hfollow, hbegin⟩ := ih
    refine ⟨b, f 0 :: c, hfollow, fun i hi => ?_⟩
    cases i with
    | zero => rfl
    | succ i => exact hbegin i (Nat.lt_of_succ_lt_succ hi)

/-- An infinite bit string leads to one leaf only. -/
theorem HuffTree.eq_of_follow_of_beginsWith {t : HuffTree} {f : Nat → Bool} {b b' : Sym8}
    {c c' : Code} (hb : t.follow c = some (.leaf b)) (hc : beginsWith f c)
    (hb' : t.follow c' = some (.leaf b')) (hc' : beginsWith f c') : b = b' := by
  rcases Nat.le_total c.length c'.length with hle | hle
  · exact eq_of_follow_of_prefix hb hb' (prefix_of_beginsWith hc hc' hle)
  · exact (eq_of_follow_of_prefix hb' hb (prefix_of_beginsWith hc' hc hle)).symm

/-! ## GENCODE -/

theorem exec_gencode {s : State} {t : HuffTree} (ht : s.tree = some t) :
    exec .gencode s = .next (report .noError 0 false (writeCode (codeTable t) s)) := by
  rw [exec, execGencode, ht]
  rfl

/-- Settles O22: with distinct symbols every path to a leaf is in the table, and only such paths are. -/
theorem gencodeCodesAreLeafPaths : Obligations.GencodeCodesAreLeafPaths :=
  fun _ _ ht hdistinct => ⟨_, exec_gencode ht, fun _ _ => codeOf_codeTable_eq_some_iff hdistinct⟩

/-- Settles O23: the entry that stays is the last one of its symbol, and a walk goes from left to
right. -/
theorem gencodeKeepsTheLastLeafOfASymbol : Obligations.GencodeKeepsTheLastLeafOfASymbol :=
  fun _ _ ht => ⟨_, exec_gencode ht, fun _ => ⟨codeOf_codeTable_eq_none_iff,
    fun _ hc => ⟨follow_of_codeOf hc, fun _ => eq_or_leftOf_of_codeOf hc⟩⟩⟩

/-- Settles O24: codes are paths to leaves, where paths end, and every infinite bit string leads to one
leaf. -/
theorem codesArePrefixFreeAndComplete : Obligations.CodesArePrefixFreeAndComplete := by
  intro s t u m ht hexec hm
  obtain rfl := Host.Outcome.next.inj ((exec_gencode ht).symm.trans hexec)
  obtain rfl : codeTable t = m := Option.some.inj hm
  refine ⟨fun b b' c c' hne hc hc' hprefix => hne ?_, fun _ hdistinct f => ?_⟩
  · exact HuffTree.eq_of_follow_of_prefix (follow_of_codeOf hc) (follow_of_codeOf hc') hprefix
  · obtain ⟨b, c, hfollow, hbegin⟩ := t.exists_follow_of_bits f
    refine ⟨b, ⟨c, (codeOf_codeTable_eq_some_iff hdistinct).2 hfollow, hbegin⟩, ?_⟩
    rintro b' ⟨c', hc', hbegin'⟩
    exact HuffTree.eq_of_follow_of_beginsWith (follow_of_codeOf hc') hbegin' hfollow hbegin

theorem codeOf_codeTable_leaf (b : Sym8) : codeOf (codeTable (.leaf b)) b = some [] :=
  (codeOf_codeTable_eq_some_iff (t := .leaf b) (List.nodup_singleton b)).2 rfl

theorem codeOf_codeTable_leaf_ne {b c : Sym8} (h : c ≠ b) :
    codeOf (codeTable (.leaf b)) c = none := by
  refine codeOf_codeTable_eq_none_iff.2 fun d hd => ?_
  have hmem := HuffTree.mem_walk_of_follow hd
  exact h (congrArg Prod.fst (List.mem_singleton.1 hmem))

theorem codeWord_emptyCode (j : Nat) : codeWord (some []) j = 0 := by
  simp only [codeWord, List.getD_nil]
  decide

/-- Settles O25: the one path of a leaf is the empty one, present with no bits. -/
theorem gencodeOfALeafIsTheEmptyCode : Obligations.GencodeOfALeafIsTheEmptyCode := by
  intro s b ht
  refine ⟨codeTable (.leaf b), _, exec_gencode ht, rfl, codeOf_codeTable_leaf b,
    fun c hc => codeOf_codeTable_leaf_ne hc, ?_, fun j hj => ?_⟩
  · have hindex : (b.setWidth 32).toNat < 256 := by
      have := b.isLt
      bv_omega
    rw [hostRead_codeInfo (m := codeTable (.leaf b)) rfl hindex,
      BitVec.setWidth_setWidth_of_le _ (by decide), BitVec.setWidth_eq, codeOf_codeTable_leaf]
    rfl
  · rw [hostRead_codeWord (m := codeTable (.leaf b)) rfl b hj, codeOf_codeTable_leaf,
      codeWord_emptyCode]

end Sys2Proof.Machine
end

section
/-! PROOFS. SERIALIZE: the queue of the traversal holds what is left of one level and the children met
so far of the next, so the traversal meets the nodes level by level. -/

namespace Sys2Proof.Machine

/-! ## Levels -/

@[simp] theorem joinLevels_nil (xs : List (List HuffTree)) : joinLevels xs [] = xs := by
  cases xs <;> rfl

theorem joinLevels_assoc (xs ys zs : List (List HuffTree)) :
    joinLevels (joinLevels xs ys) zs = joinLevels xs (joinLevels ys zs) := by
  induction xs generalizing ys zs with
  | nil => rfl
  | cons x xs ih =>
    cases ys with
    | nil => rfl
    | cons y ys =>
      cases zs with
      | nil => rfl
      | cons z zs => simp only [joinLevels, List.append_assoc, ih]

theorem joinLevels_flatten_perm (xs ys : List (List HuffTree)) :
    (joinLevels xs ys).flatten.Perm (xs.flatten ++ ys.flatten) := by
  induction xs generalizing ys with
  | nil => exact .refl _
  | cons x xs ih =>
    cases ys with
    | nil => simp
    | cons y ys =>
      have htail : (y ++ (joinLevels xs ys).flatten).Perm (xs.flatten ++ (y ++ ys.flatten)) :=
        ((ih ys).append_left y).trans (List.perm_append_comm_assoc ..)
      simpa only [joinLevels, List.flatten_cons, List.append_assoc] using htail.append_left x

/-- The levels of a queue of trees, side by side. -/
def queueLevels (q : List HuffTree) : List (List HuffTree) :=
  (q.map HuffTree.levels).foldr joinLevels []

theorem queueLevels_cons (u : HuffTree) (q : List HuffTree) :
    queueLevels (u :: q) = joinLevels u.levels (queueLevels q) := rfl

@[simp] theorem queueLevels_singleton (u : HuffTree) : queueLevels [u] = u.levels :=
  joinLevels_nil _

theorem queueLevels_append (p q : List HuffTree) :
    queueLevels (p ++ q) = joinLevels (queueLevels p) (queueLevels q) := by
  induction p with
  | nil => rfl
  | cons u p ih => rw [List.cons_append, queueLevels_cons, ih, queueLevels_cons, joinLevels_assoc]

theorem HuffTree.levels_eq (u : HuffTree) : u.levels = [u] :: queueLevels u.children := by
  cases u with
  | leaf b => rfl
  | node l r => rw [HuffTree.levels, HuffTree.children, queueLevels_cons, queueLevels_singleton]

/-- Below the roots of a queue stand the levels of their children. -/
theorem queueLevels_eq_cons (u : HuffTree) (q : List HuffTree) :
    queueLevels (u :: q) = (u :: q) :: queueLevels ((u :: q).flatMap HuffTree.children) := by
  induction q generalizing u with
  | nil => rw [queueLevels_singleton, u.levels_eq, List.flatMap_singleton]
  | cons v q ih =>
    rw [queueLevels_cons, ih, u.levels_eq, List.flatMap_cons (x := u), queueLevels_append]
    rfl

/-! ## The traversal, one level at a time -/

/-- The traversal of a queue, with enough fuel to visit every node. -/
def traversal (q : List HuffTree) : List NodeKind × List Byte := serializeQueue (queueSize q) q

theorem serializeTree_eq_traversal (t : HuffTree) : serializeTree t = traversal [t] := rfl

theorem traversal_cons (u : HuffTree) (q : List HuffTree) :
    traversal (u :: q)
      = (u.kind :: (traversal (q ++ u.children)).1,
        u.symbol?.toList ++ (traversal (q ++ u.children)).2) := by
  rw [traversal, queueSize_visit, serializeQueue_cons]
  rfl

/-- What the traversal emits when it meets the given nodes in turn. -/
def pairOf (ns : List HuffTree) : List NodeKind × List Byte :=
  (ns.map HuffTree.kind, ns.filterMap HuffTree.symbol?)

theorem pairOf_cons (u : HuffTree) (ns : List HuffTree) :
    pairOf (u :: ns) = (u.kind :: (pairOf ns).1, u.symbol?.toList ++ (pairOf ns).2) := by
  cases u <;> rfl

/-- The rest `p` of a level is visited while `c`, the next level so far, gets the children of `p`. -/
theorem traversal_append {p c ns : List HuffTree}
    (h : traversal (c ++ p.flatMap HuffTree.children) = pairOf ns) :
    traversal (p ++ c) = pairOf (p ++ ns) := by
  induction p generalizing c with
  | nil => simpa using h
  | cons u p ih =>
    have hrest : traversal (p ++ (c ++ u.children)) = pairOf (p ++ ns) :=
      ih (by rwa [List.append_assoc, ← List.flatMap_cons])
    rw [List.cons_append, traversal_cons, List.append_assoc, hrest, List.cons_append, pairOf_cons]

theorem queueSize_flatMap_children (q : List HuffTree) :
    q.length + queueSize (q.flatMap HuffTree.children) = queueSize q := by
  induction q with
  | nil => rfl
  | cons u q ih =>
    have hvisit := queueSize_visit u q
    simp only [queueSize, List.flatMap_cons, List.map_append, List.sum_append,
      List.length_cons] at ih hvisit ⊢
    omega

theorem traversal_eq_pairOf : ∀ q : List HuffTree, traversal q = pairOf (queueLevels q).flatten
  | [] => rfl
  | u :: q => by
    have hnext := traversal_eq_pairOf ((u :: q).flatMap HuffTree.children)
    rw [queueLevels_eq_cons, List.flatten_cons]
    simpa only [List.append_nil] using traversal_append (p := u :: q) (c := []) hnext
termination_by q => queueSize q
decreasing_by
  have hsize := queueSize_flatMap_children (u :: q)
  rw [List.length_cons] at hsize
  omega

/-- SERIALIZE emits the kinds and the symbols of the nodes in level order
(spec/43_tree_serializer.md R152). -/
theorem serializeTree_eq (t : HuffTree) : serializeTree t = pairOf t.levels.flatten := by
  rw [serializeTree_eq_traversal, traversal_eq_pairOf, queueLevels_singleton]

/-! ## The numbers of nodes, leaves and internal nodes -/

theorem HuffTree.levels_symbols_perm (t : HuffTree) :
    (t.levels.flatten.filterMap HuffTree.symbol?).Perm t.leaves := by
  induction t with
  | leaf b => exact .refl _
  | node l r ihl ihr =>
    have hjoin := (joinLevels_flatten_perm l.levels r.levels).filterMap HuffTree.symbol?
    rw [List.filterMap_append] at hjoin
    exact hjoin.trans (ihl.append ihr)

theorem serializeTree_values_length (t : HuffTree) : (serializeTree t).2.length = t.leafCount := by
  rw [serializeTree_eq, ← t.leaves_length]
  exact t.levels_symbols_perm.length_eq

/-- A node is internal or has a symbol. -/
theorem count_internal_pairOf (ns : List HuffTree) :
    (pairOf ns).1.count .internal + (pairOf ns).2.length = ns.length := by
  induction ns with
  | nil => rfl
  | cons u ns ih =>
    rw [pairOf_cons]
    cases u <;> simp [HuffTree.kind, HuffTree.symbol?] <;> omega

theorem serializeTree_count_internal (t : HuffTree) :
    (serializeTree t).1.count .internal = t.leafCount - 1 := by
  have hcount := count_internal_pairOf t.levels.flatten
  have hsize : (pairOf t.levels.flatten).1.length = t.levels.flatten.length := List.length_map _
  rw [← serializeTree_eq, serializeTree_values_length] at hcount
  rw [← serializeTree_eq, serializeTree_kinds_length, t.size_eq] at hsize
  omega

/-! ## The buffers after a fill -/

theorem read_fill_of_getElem? {α : Type} (m : Memory α) {vs : List α} {j : Nat} {v : α}
    (h : vs[j]? = some v) : (m.fill vs).read j = some v := by
  rw [Memory.read_fill, if_pos (List.getElem?_eq_some_iff.1 h).1, h]

theorem countP_read_of_eq_fill {α : Type} [DecidableEq α] {m m' : Memory α} {vs : List α}
    (h : m' = m.fill vs) (v : α) :
    ((List.range vs.length).countP fun j => m'.read j = some v) = vs.count v := by
  have hcells : (List.range vs.length).map m'.read = vs.map some := by
    refine List.ext_getElem (by simp) fun j hj _ => ?_
    have hj' : j < vs.length := by simpa using hj
    simp [h, Memory.read_fill, hj']
  calc ((List.range vs.length).countP fun j => m'.read j = some v)
      = ((List.range vs.length).map m'.read).count (some v) := by
        rw [List.count, List.countP_map]
        exact List.countP_congr fun j _ => by simp
    _ = vs.count v := by
        rw [hcells, List.count_map_of_injective vs some (Option.some_injective α)]

/-! ## SERIALIZE -/

theorem exec_serialize {s : State} {t : HuffTree} (ht : s.tree = some t) :
    exec .serialize s
      = .next (report .noError 0 false (writePair (serializeTree t).1 (serializeTree t).2 s)) := by
  rw [exec, execSerialize, ht]
  rfl

/-- Settles O27: the traversal is the level order, and SERIALIZE fills the buffers with what it emits. -/
theorem serializeWritesLevelOrder : Obligations.SerializeWritesLevelOrder := by
  intro s t ht _
  refine ⟨_, exec_serialize ht, ?_, fun j n hn => ?_, fun j b hb => ?_⟩
  · rw [serializeTree_eq, ← List.length_map (f := HuffTree.kind)]
    rfl
  · rw [serializeTree_eq]
    exact read_fill_of_getElem? _ (by rw [pairOf, List.getElem?_map, hn, Option.map_some])
  · rw [serializeTree_eq]
    exact read_fill_of_getElem? _ hb

/-- Settles O28: the leaves in level order are the leaves of the tree, and every other node is
internal. -/
theorem serializedPairCountsTheTree : Obligations.SerializedPairCountsTheTree := by
  intro s t u ht hleaves hexec
  have hu := Host.Outcome.next.inj (hexec.symm.trans (exec_serialize ht))
  have hsize := t.size_eq
  have hcells : u.kinds = s.kinds.fill (serializeTree t).1 := by rw [hu]; rfl
  have hkinds : u.kindsLen.toNat = t.size := by
    rw [hu, report_kindsLen, writePair_kindsLen, serializeTree_kinds_length,
      toNat_ofNat_of_lt (by omega)]
  have hvalues : u.valuesLen.toNat = t.leafCount := by
    rw [hu, report_valuesLen, writePair_valuesLen, serializeTree_values_length,
      toNat_ofNat_of_lt (by omega)]
  refine ⟨hkinds, hvalues, by omega, ?_, ?_⟩
  · rw [hkinds, hvalues, ← serializeTree_kinds_length, countP_read_of_eq_fill hcells,
      serializeTree_count_internal]
  · rw [hcells, serializeTree_eq_traversal, traversal_cons]
    exact read_fill_of_getElem? _ rfl

/-- Settles O29: a leaf is the one node of its traversal. -/
theorem serializeOfALeaf : Obligations.SerializeOfALeaf :=
  fun _ _ ht => ⟨_, exec_serialize ht, rfl, rfl, read_fill_of_getElem? _ rfl, rfl,
    read_fill_of_getElem? _ rfl⟩

end Sys2Proof.Machine
end

section
/-! PROOFS. The counting test (spec/44_tree_deserializer.md R168): a pair that passes it is the
level order of a tree, and a pair that fails it meets a sub-cause. -/

namespace Sys2Proof.Machine

/-! ## Entries counted -/

theorem count_leaf_add_count_internal (ks : List NodeKind) :
    ks.count .leaf + ks.count .internal = ks.length := by
  induction ks with
  | nil => rfl
  | cons k ks ih => cases k <;> simp <;> omega

@[simp] theorem internalsBefore_length (ks : List NodeKind) :
    internalsBefore ks ks.length = ks.count .internal := by simp [internalsBefore]

@[simp] theorem leavesBefore_length (ks : List NodeKind) :
    leavesBefore ks ks.length = ks.count .leaf := by simp [leavesBefore]

theorem leavesBefore_succ {ks : List NodeKind} {i : Nat} {k : NodeKind} (h : ks[i]? = some k) :
    leavesBefore ks (i + 1) = leavesBefore ks i + [k].count .leaf := by
  rw [leavesBefore, List.take_add_one, h, Option.toList_some, List.count_append, leavesBefore]

theorem internalsBefore_cons_succ (k : NodeKind) (ks : List NodeKind) (i : Nat) :
    internalsBefore (k :: ks) (i + 1) = [k].count .internal + internalsBefore ks i := by
  rw [internalsBefore, List.take_succ_cons, ← List.singleton_append, List.count_append,
    internalsBefore]

theorem placeOpen_iff {ks : List NodeKind} {i : Nat} (hi : 1 ≤ i) :
    placeOpen ks i ↔ i ≤ 2 * internalsBefore ks i := by
  rw [placeOpen, Nat.sub_add_cancel hi]

theorem placeOpen_take {ks : List NodeKind} {i j : Nat} (hj : j < i) :
    placeOpen (ks.take i) j ↔ placeOpen ks j := by
  rw [placeOpen, placeOpen, internalsBefore, internalsBefore, List.take_take,
    Nat.min_eq_left hj.le]

/-! ## Places for a run of entries -/

/-- With `d` child places open before the entries, each of them finds a place open. -/
def hasPlaces (d : Nat) (ks : List NodeKind) : Prop :=
  ∀ i, i < ks.length → i < d + 2 * internalsBefore ks i

/-- An entry takes one of the open places, and an internal one opens two. -/
theorem hasPlaces_cons {d : Nat} {k : NodeKind} {ks : List NodeKind} (h : hasPlaces d (k :: ks)) :
    ∃ e, d = e + 1 ∧ hasPlaces (e + 2 * [k].count .internal) ks := by
  have hpos : 0 < d := h 0 (Nat.succ_pos _)
  refine ⟨d - 1, by omega, fun i hi => ?_⟩
  have hnext := h (i + 1) (Nat.succ_lt_succ hi)
  rw [internalsBefore_cons_succ] at hnext
  omega

/-- The first entry is the root, which takes no place. -/
theorem hasPlaces_of_placeOpen {k : NodeKind} {ks : List NodeKind}
    (h : ∀ j, 1 ≤ j → j < (k :: ks).length → placeOpen (k :: ks) j) :
    hasPlaces (2 * [k].count .internal) ks := by
  intro i hi
  have hopen := h (i + 1) (Nat.succ_pos i) (Nat.succ_lt_succ hi)
  rw [placeOpen_iff (Nat.succ_pos i), internalsBefore_cons_succ] at hopen
  omega

/-! ## A pair that passes the test -/

/-- Entries that fill `d` places, with a value for each leaf, are the level order of `d` trees. -/
theorem exists_traversal_eq {d : Nat} {ks : List NodeKind} {vs : List Byte} (h : hasPlaces d ks)
    (hfull : d + 2 * ks.count .internal = ks.length) (hvs : ks.count .leaf = vs.length) :
    ∃ q : List HuffTree, q.length = d ∧ traversal q = (ks, vs) := by
  induction ks generalizing d vs with
  | nil =>
    obtain rfl := List.length_eq_zero_iff.1 hvs.symm
    obtain rfl : d = 0 := hfull
    exact ⟨[], rfl, rfl⟩
  | cons k ks ih =>
    obtain ⟨e, rfl, hks⟩ := hasPlaces_cons h
    rw [← List.singleton_append, List.count_append] at hfull hvs
    rw [List.length_append, List.length_singleton] at hfull
    have hrest : e + 2 * [k].count .internal + 2 * ks.count .internal = ks.length := by omega
    cases k with
    | leaf =>
      cases vs with
      | nil => simp at hvs
      | cons v vs =>
        obtain ⟨q, hq, htraversal⟩ := ih (vs := vs) hks hrest
          (by simpa [Nat.add_comm 1] using hvs)
        refine ⟨.leaf v :: q, congrArg (· + 1) hq, ?_⟩
        rw [traversal_cons, HuffTree.children, List.append_nil, htraversal]
        rfl
    | internal =>
      obtain ⟨q, hq, htraversal⟩ := ih (vs := vs) hks hrest (by simpa using hvs)
      obtain ⟨q₀, l, r, hq₀, rfl⟩ : ∃ q₀ l r, q₀.length = e ∧ q = q₀ ++ [l, r] := by
        obtain ⟨l, r, hlast⟩ := List.length_eq_two.1 (show (q.drop e).length = 2 by simp [hq])
        exact ⟨q.take e, l, r, by simp [hq], by rw [← hlast, List.take_append_drop]⟩
      refine ⟨.node l r :: q₀, congrArg (· + 1) hq₀, ?_⟩
      rw [traversal_cons, HuffTree.children, htraversal]
      rfl

/-- An accepted pair is the level order of one tree. -/
theorem exists_serializeTree_eq {ks : List NodeKind} {vs : List Byte} (h : accepted ks vs) :
    ∃ t, serializeTree t = (ks, vs) := by
  obtain ⟨hne, hopen, hfull, hvs⟩ := h
  rw [internalsBefore_length] at hfull hvs
  have hcount := count_leaf_add_count_internal ks
  have hplaces : hasPlaces 1 ks := by
    intro i hi
    rcases Nat.eq_zero_or_pos i with rfl | hpos
    · omega
    · have := (placeOpen_iff hpos).1 (hopen i hpos (by omega))
      omega
  obtain ⟨q, hq, htraversal⟩ :=
    exists_traversal_eq hplaces (vs := vs) (by omega) (by omega)
  obtain ⟨t, rfl⟩ := List.length_eq_one_iff.1 hq
  exact ⟨t, htraversal⟩

/-! ## A pair that fails the test -/

/-- A pair that meets no sub-cause finds a place for every entry and a value for every leaf. -/
theorem placeOpen_of_not_malformed {ks : List NodeKind} {vs : List Byte}
    (h : ∀ c, ¬ malformed ks vs c) {i : Nat} (hi : i ≤ ks.length) :
    (∀ j, 1 ≤ j → j < i → placeOpen ks j) ∧ leavesBefore ks i ≤ vs.length := by
  induction i with
  | zero => exact ⟨fun j _ hj => absurd hj (Nat.not_lt_zero j), Nat.zero_le _⟩
  | succ i ih =>
    obtain ⟨hopen, hvs⟩ := ih (Nat.le_of_succ_le hi)
    have hopen' : ∀ j, 1 ≤ j → j < i + 1 → placeOpen ks j := by
      intro j hj hji
      rcases Nat.lt_succ_iff_lt_or_eq.1 hji with hlt | rfl
      · exact hopen j hj hlt
      · by_contra hclosed
        exact h .overConsumed ⟨j, hj, hi, hclosed, hopen, hvs⟩
    have hget : ks[i]? = some ks[i] := List.getElem?_eq_getElem hi
    refine ⟨hopen', ?_⟩
    rw [leavesBefore_succ hget]
    cases hk : ks[i] with
    | internal => exact hvs
    | leaf =>
      have hne : leavesBefore ks i ≠ vs.length := fun heq =>
        h .valuesUsedUp ⟨i, hk ▸ hget, fun j hj hji => hopen' j hj (Nat.lt_succ_of_le hji), heq⟩
      exact Nat.lt_of_le_of_ne hvs hne

theorem exists_malformed {ks : List NodeKind} {vs : List Byte} (h : ¬ accepted ks vs) :
    ∃ c, malformed ks vs c := by
  by_contra hnone
  have hnot : ∀ c, ¬ malformed ks vs c := not_exists.1 hnone
  obtain ⟨hopen, hvs⟩ := placeOpen_of_not_malformed hnot le_rfl
  have hcount := count_leaf_add_count_internal ks
  have hne : 1 ≤ ks.length := List.length_pos_iff.2 fun hnil => hnot .noRoot hnil
  have hplaces : ks.length - 1 ≤ 2 * internalsBefore ks ks.length := by
    rcases Nat.lt_or_ge 1 ks.length with hlt | hle
    · have hlast := hopen (ks.length - 1) (by omega) (by omega)
      rw [placeOpen_iff (by omega), internalsBefore] at hlast
      have hmono := (List.take_sublist (ks.length - 1) ks).count_le .internal
      rw [internalsBefore_length]
      omega
    · omega
  have hfull : 2 * internalsBefore ks ks.length = ks.length - 1 := by
    by_contra hmore
    exact hnot .truncated ⟨hne, hopen, hvs, by omega⟩
  have hused : ¬ leavesBefore ks ks.length < vs.length := fun hlt =>
    hnot .valuesLeft ⟨hne, hopen, hfull, hlt⟩
  rw [internalsBefore_length] at hfull
  rw [leavesBefore_length] at hvs hused
  exact h ⟨hne, fun i hi hlt => hopen i hi (by omega), by rwa [internalsBefore_length],
    by rw [internalsBefore_length]; omega⟩

end Sys2Proof.Machine
end

section
/-! PROOFS. The sub-causes of DESERIALIZE (spec/44_tree_deserializer.md R166, R167): the queue of
awaiting parents has as many open child places as the entries so far leave, so the parser stops
where the count of places or of values does. -/

namespace Sys2Proof.Machine

/-! ## The open places of a queue -/

/-- The awaiting parents lack `d` children: two each, but one for a front parent that has its left
child. -/
inductive OpenPlaces (b : Building) (d : Nat) : Prop
  | even {ps : List Parent} (hd : d = 2 * ps.length) (h : Awaits b ps)
  | odd {ps : List Parent} {p n : Nat} (hd : d = 2 * ps.length + 1)
      (hqueue : b.queue = p :: ps.map Prod.fst)
      (hp : b.nodes[p]? = some (.internal (some n) none))
      (h : Awaits ⟨b.nodes, ps.map Prod.fst, b.cur⟩ ps)

theorem OpenPlaces.queue_eq_nil {b : Building} (h : OpenPlaces b 0) : b.queue = [] := by
  cases h with
  | @even ps hd hawaits =>
    obtain rfl : ps = [] := List.length_eq_zero_iff.1 (by omega)
    exact hawaits.queue
  | odd hd => cases hd

theorem OpenPlaces.exists_queue {b : Building} {d : Nat} (h : OpenPlaces b d) (hpos : 0 < d) :
    ∃ p q, b.queue = p :: q := by
  cases h with
  | @even ps hd hawaits =>
    cases ps with
    | nil => exact absurd hd hpos.ne'
    | cons x ps => exact ⟨_, _, hawaits.queue⟩
  | odd _ hqueue => exact ⟨_, _, hqueue⟩

/-- Changing the record of no awaiting parent. -/
theorem Awaits.set {nodes : List NodeRec} {q : List Nat} {cur p : Nat} {ps : List Parent}
    (h : Awaits ⟨nodes, q, cur⟩ ps) (hp : p ∉ q) (x : NodeRec) :
    Awaits ⟨nodes.set p x, q, cur⟩ ps where
  queue := h.queue
  nodup := h.nodup
  childless j hj := by
    have hne : p ≠ j := fun heq => hp (heq ▸ hj)
    exact (List.getElem?_set_ne hne).trans (h.childless j hj)

/-- The parents behind the front one. -/
theorem Awaits.tail {b : Building} {p : Parent} {ps : List Parent} (h : Awaits b (p :: ps)) :
    Awaits ⟨b.nodes, ps.map Prod.fst, b.cur⟩ ps ∧ p.1 ∉ ps.map Prod.fst := by
  have hnodup := h.nodup
  rw [h.queue, List.map_cons, List.nodup_cons] at hnodup
  exact ⟨⟨rfl, hnodup.2, fun j hj => h.childless j (h.queue ▸ List.mem_cons_of_mem p.1 hj)⟩,
    hnodup.1⟩

/-! ## One entry -/

/-- An entry with a value for it is the entry of some node. -/
theorem exists_node {values : List Byte} {cur : Nat} {k : NodeKind}
    (h : cur + [k].count .leaf ≤ values.length) :
    ∃ (u : HuffTree) (pre rest : List Byte), u.kind = k ∧
      values = pre ++ (u.symbol?.toList ++ rest) ∧ cur = pre.length ∧
      u.symbol?.toList.length = [k].count .leaf ∧
      ∀ n, (u.awaiting n).length = [k].count .internal := by
  have hcur : cur = (values.take cur).length := by
    rw [List.length_take_of_le (Nat.le_of_add_right_le h)]
  cases k with
  | leaf =>
    have hlt : cur < values.length := h
    refine ⟨.leaf values[cur], values.take cur, values.drop (cur + 1), rfl, ?_, hcur, rfl,
      fun _ => rfl⟩
    simp [HuffTree.symbol?]
  | internal =>
    exact ⟨.node (.leaf 0) (.leaf 0), values.take cur, values.drop cur, rfl,
      (List.take_append_drop cur values).symm, hcur, rfl, fun _ => rfl⟩

/-- The root entry opens the places of its own children alone. -/
theorem makeNode_root {values : List Byte} {k : NodeKind} (h : [k].count .leaf ≤ values.length) :
    ∃ b, makeNode values k ⟨[], [], 0⟩ = .ok b ∧ OpenPlaces b (2 * [k].count .internal) ∧
      b.cur = [k].count .leaf := by
  obtain ⟨u, pre, rest, rfl, rfl, hcur, hsymbol, hawaiting⟩ :=
    exists_node (values := values) (k := k) (cur := 0) (by omega)
  exact ⟨_, makeNode_add hcur, .even (by simp [hawaiting]) (awaits_empty.add u),
    by rw [Building.add, hsymbol, Nat.zero_add]⟩

/-- An entry that finds a place and a value. -/
theorem OpenPlaces.parseEntry {values : List Byte} {k : NodeKind} {b : Building} {d : Nat}
    (h : OpenPlaces b (d + 1)) (hvalue : b.cur + [k].count .leaf ≤ values.length) :
    ∃ b', parseEntry values k b = .ok b' ∧ OpenPlaces b' (d + 2 * [k].count .internal) ∧
      b'.cur = b.cur + [k].count .leaf := by
  obtain ⟨u, pre, rest, rfl, rfl, hcur, hsymbol, hawaiting⟩ := exists_node hvalue
  cases h with
  | @even ps hd hawaits =>
    cases ps with
    | nil => cases hd
    | cons p ps =>
      obtain ⟨htail, hnotMem⟩ := hawaits.tail
      have hp := hawaits.childless p.1 (hawaits.queue ▸ List.mem_cons_self)
      have hlt : p.1 < b.nodes.length := (List.getElem?_eq_some_iff.1 hp).1
      have hrest := (htail.set hnotMem (.internal (some b.nodes.length) none)).add u
      refine ⟨_, parseEntry_left hcur hawaits.queue hp, ?_, congrArg (b.cur + ·) hsymbol⟩
      refine .odd (ps := ps ++ u.awaiting b.nodes.length) (p := p.1) (n := b.nodes.length)
        ?_ ?_ ?_ ?_
      · rw [List.length_cons] at hd
        rw [List.length_append, hawaiting]
        omega
      · simp [Building.add]
      · simp [Building.add, List.getElem?_append, hlt]
      · simpa [Building.add] using hrest
  | @odd ps p n hd hqueue hp hawaits =>
    have hnotMem : p ∉ ps.map Prod.fst := fun hmem => by
      cases (hawaits.childless p hmem).symm.trans hp
    have hrest := (hawaits.set hnotMem (.internal (some n) (some b.nodes.length))).add u
    refine ⟨_, parseEntry_right hcur hqueue hp, .even ?_ hrest, congrArg (b.cur + ·) hsymbol⟩
    rw [List.length_append, hawaiting]
    omega

/-! ## A run of entries -/

/-- The rest of DESERIALIZE from a state between two entries. -/
def resume (values : List Byte) (ks : List NodeKind) (b : Building) : Except SubCause HuffTree :=
  match parseEntries values ks b with
  | .error c => .error c
  | .ok b' => finishTree values b'

theorem resume_nil (values : List Byte) (b : Building) :
    resume values [] b = finishTree values b := rfl

theorem resume_of_parseEntry {values : List Byte} {k : NodeKind} {ks : List NodeKind}
    {b b' : Building} (h : parseEntry values k b = .ok b') :
    resume values (k :: ks) b = resume values ks b' := by
  simp only [resume, parseEntries, h]

theorem resume_of_parseEntry_error {values : List Byte} {k : NodeKind} {ks : List NodeKind}
    {b : Building} {c : SubCause} (h : parseEntry values k b = .error c) :
    resume values (k :: ks) b = .error c := by
  simp only [resume, parseEntries, h]

theorem deserializePair_cons {values : List Byte} {k : NodeKind} {ks : List NodeKind}
    {b : Building} (h : makeNode values k ⟨[], [], 0⟩ = .ok b) :
    deserializePair (k :: ks) values = resume values ks b := by
  simp only [deserializePair, h]
  rfl

/-- Entries that find their places and values pass, and the counts go on. -/
theorem OpenPlaces.resume_append {values : List Byte} {ks : List NodeKind} {b : Building} {d : Nat}
    (h : OpenPlaces b d) (hplaces : hasPlaces d ks)
    (hvalues : b.cur + ks.count .leaf ≤ values.length) :
    ∃ b' d', (∀ rest, resume values (ks ++ rest) b = resume values rest b') ∧ OpenPlaces b' d' ∧
      d' + ks.length = d + 2 * ks.count .internal ∧ b'.cur = b.cur + ks.count .leaf := by
  induction ks generalizing b d with
  | nil => exact ⟨b, d, fun _ => rfl, h, rfl, rfl⟩
  | cons k ks ih =>
    obtain ⟨e, rfl, hks⟩ := hasPlaces_cons hplaces
    rw [← List.singleton_append, List.count_append] at hvalues
    obtain ⟨b₁, hentry, hopen, hcur⟩ := h.parseEntry (k := k) (values := values) (by omega)
    obtain ⟨b', d', hrest, hopen', hd, hcur'⟩ := ih hopen hks (by omega)
    refine ⟨b', d', fun rest => ?_, hopen', ?_, ?_⟩
    · rw [List.cons_append, resume_of_parseEntry hentry, hrest]
    · rw [← List.singleton_append, List.count_append, List.length_append, List.length_singleton]
      omega
    · rw [← List.singleton_append, List.count_append]
      omega

/-- The parser arrives at entry `i` of a pair, its queue having as many open places and its cursor
standing as far as the entries before say. -/
structure Reaches (ks : List NodeKind) (vs : List Byte) (i : Nat) (b : Building) (d : Nat) :
    Prop where
  run : deserializePair ks vs = resume vs (ks.drop i) b
  places : OpenPlaces b d
  count : d + (i - 1) = 2 * internalsBefore ks i
  cur : b.cur = leavesBefore ks i

theorem reaches_of_placeOpen {ks : List NodeKind} {vs : List Byte} {i : Nat} (hi : 1 ≤ i)
    (hlen : i ≤ ks.length) (hopen : ∀ j, 1 ≤ j → j < i → placeOpen ks j)
    (hvs : leavesBefore ks i ≤ vs.length) : ∃ b d, Reaches ks vs i b d := by
  obtain ⟨i, rfl⟩ := Nat.exists_eq_add_of_le' hi
  cases ks with
  | nil => exact absurd hlen (Nat.not_succ_le_zero i)
  | cons k ks =>
    have htake : (k :: ks).take (i + 1) = [k] ++ ks.take i := rfl
    have hplaces : hasPlaces (2 * [k].count .internal) (ks.take i) :=
      hasPlaces_of_placeOpen fun j hj hlt => by
        rw [← List.take_succ_cons, List.length_take] at hlt
        rw [← List.take_succ_cons, placeOpen_take (by omega)]
        exact hopen j hj (by omega)
    rw [leavesBefore, htake, List.count_append] at hvs
    obtain ⟨b₀, hroot, hopen₀, hcur₀⟩ := makeNode_root (k := k) (values := vs) (by omega)
    obtain ⟨b, d, hrun, hplaces, hcount, hcur⟩ := hopen₀.resume_append (values := vs) hplaces
      (by omega)
    refine ⟨b, d, ?_, hplaces, ?_, ?_⟩
    · rw [deserializePair_cons hroot, List.drop_succ_cons, ← hrun, List.take_append_drop]
    · rw [List.length_take_of_le (Nat.le_of_succ_le_succ hlen)] at hcount
      rw [internalsBefore, htake, List.count_append]
      omega
    · rw [leavesBefore, htake, List.count_append]
      omega

/-! ## Where the parser stops -/

theorem makeNode_of_le {values : List Byte} {b : Building} (h : values.length ≤ b.cur) :
    makeNode values .leaf b = .error .valuesUsedUp := by
  rw [makeNode, List.getElem?_eq_none h]

/-- A pair that meets a sub-cause makes the parser stop with it. -/
theorem deserializePair_of_malformed {ks : List NodeKind} {vs : List Byte} {c : SubCause}
    (h : malformed ks vs c) : deserializePair ks vs = .error c := by
  cases c with
  | noRoot =>
    obtain rfl : ks = [] := h
    rfl
  | valuesUsedUp =>
    obtain ⟨i, hleaf, hopen, hvs⟩ := h
    obtain ⟨hlt, hget⟩ := List.getElem?_eq_some_iff.1 hleaf
    rcases Nat.eq_zero_or_pos i with rfl | hpos
    · cases ks with
      | nil => cases hleaf
      | cons k ks =>
        obtain rfl := Option.some.inj hleaf
        have hvalue := makeNode_of_le (values := vs) (b := ⟨[], [], 0⟩) hvs.ge
        simp only [deserializePair, hvalue]
    · obtain ⟨b, d, hreach⟩ := reaches_of_placeOpen (vs := vs) hpos hlt.le
        (fun j hj hji => hopen j hj hji.le) hvs.le
      have hplace := (placeOpen_iff hpos).1 (hopen i hpos le_rfl)
      have hcount := hreach.count
      obtain ⟨p, q, hqueue⟩ := hreach.places.exists_queue (by omega)
      rw [hreach.run, List.drop_eq_getElem_cons hlt, hget]
      refine resume_of_parseEntry_error ?_
      simp only [parseEntry, hqueue, makeNode_of_le (hreach.cur.trans hvs).ge]
  | overConsumed =>
    obtain ⟨i, hpos, hlt, hclosed, hopen, hvs⟩ := h
    obtain ⟨b, d, hreach⟩ := reaches_of_placeOpen hpos hlt.le hopen hvs
    have hcount := hreach.count
    rw [placeOpen_iff hpos] at hclosed
    obtain rfl : d = 0 := by omega
    rw [hreach.run, List.drop_eq_getElem_cons hlt]
    refine resume_of_parseEntry_error ?_
    rw [parseEntry, hreach.places.queue_eq_nil]
  | truncated =>
    obtain ⟨hne, hopen, hvs, hmore⟩ := h
    obtain ⟨b, d, hreach⟩ := reaches_of_placeOpen hne le_rfl hopen hvs
    have hcount := hreach.count
    obtain ⟨p, q, hqueue⟩ := hreach.places.exists_queue (by omega)
    rw [hreach.run, List.drop_length, resume_nil, finishTree, hqueue]
  | valuesLeft =>
    obtain ⟨hne, hopen, hfull, hleft⟩ := h
    obtain ⟨b, d, hreach⟩ := reaches_of_placeOpen hne le_rfl hopen hleft.le
    have hcount := hreach.count
    obtain rfl : d = 0 := by omega
    have hcur : b.cur ≠ vs.length := hreach.cur ▸ hleft.ne
    rw [hreach.run, List.drop_length, resume_nil, finishTree, hreach.places.queue_eq_nil]
    exact if_pos hcur

theorem accepted_of_deserializePair {ks : List NodeKind} {vs : List Byte} {t : HuffTree}
    (h : deserializePair ks vs = .ok t) : accepted ks vs := by
  by_contra hnot
  obtain ⟨c, hc⟩ := exists_malformed hnot
  cases h.symm.trans (deserializePair_of_malformed hc)

/-- The converse of `deserializePair_serializeTree`. -/
theorem serializeTree_of_deserializePair {ks : List NodeKind} {vs : List Byte} {t : HuffTree}
    (h : deserializePair ks vs = .ok t) : serializeTree t = (ks, vs) := by
  obtain ⟨u, hu⟩ := exists_serializeTree_eq (accepted_of_deserializePair h)
  have hback := deserializePair_serializeTree u
  rw [hu, h] at hback
  rw [Except.ok.inj hback, hu]

end Sys2Proof.Machine
end

section
/-! PROOFS. The statements about DESERIALIZE (spec/44_tree_deserializer.md): the round trips with
SERIALIZE, the counting test, the sub-causes and the capacity. -/

namespace Sys2Proof.Machine

section
variable {s : State}

/-! ## The operands -/

theorem kindsIn_length (s : State) : s.kindsIn.length = s.kindsLen.toNat := liveKinds_length ..

theorem valuesIn_length (s : State) : s.valuesIn.length = s.valuesLen.toNat := liveBytes_length ..

theorem kindsIn_getElem? {j : Nat} (hw : s.kinds.writtenBelow s.kindsLen.toNat = true)
    (hj : j < s.kindsLen.toNat) : s.kindsIn[j]? = s.kinds.read j := by
  obtain ⟨v, hv⟩ := Memory.writtenBelow_iff.1 hw j hj
  simp [State.kindsIn, liveKinds, hj, hv]

theorem valuesIn_getElem? {j : Nat} (hw : s.values.writtenBelow s.valuesLen.toNat = true)
    (hj : j < s.valuesLen.toNat) : s.valuesIn[j]? = s.values.read j := by
  obtain ⟨v, hv⟩ := Memory.writtenBelow_iff.1 hw j hj
  rw [State.valuesIn, liveBytes_getElem?, if_pos hj, hv, Option.getD_some]

/-! ## The outcomes of DESERIALIZE -/

theorem deserialize_of_noError {t : State} (h : exec .deserialize s = .next t)
    (herr : t.err = .noError) :
    s.kindsLen.toNat ≤ 511 ∧ s.valuesLen.toNat ≤ 256 ∧
      ∃ u, deserializePair s.kindsIn s.valuesIn = .ok u ∧
        t = report .noError 0 false (writeTree u 0 s) := by
  rcases execDeserialize_cases s with ⟨-, hexec⟩ | ⟨hk, hv, ⟨c, -, hexec⟩ | ⟨u, hu, hexec⟩⟩
  all_goals obtain rfl := Host.Outcome.next.inj (hexec.symm.trans h)
  · cases herr
  · cases herr
  · exact ⟨hk, hv, u, hu, rfl⟩

theorem exec_deserialize_of_ok {u : HuffTree} (hk : s.kindsLen.toNat ≤ 511)
    (hv : s.valuesLen.toNat ≤ 256) (hu : deserializePair s.kindsIn s.valuesIn = .ok u) :
    exec .deserialize s = .next (report .noError 0 false (writeTree u 0 s)) := by
  rw [exec, execDeserialize, if_neg (not_or.2 ⟨hk.not_gt, hv.not_gt⟩), hu]
  rfl

theorem exec_deserialize_of_error {c : SubCause} (hk : s.kindsLen.toNat ≤ 511)
    (hv : s.valuesLen.toNat ≤ 256) (hc : deserializePair s.kindsIn s.valuesIn = .error c) :
    exec .deserialize s = .next (aborted .deserialize .malformedSerialization c.toCode s) := by
  rw [exec, execDeserialize, if_neg (not_or.2 ⟨hk.not_gt, hv.not_gt⟩), hc]
  rfl

end

/-! ## The statements -/

/-- Settles O30: SERIALIZE leaves the pair of the tree in its buffers, from which DESERIALIZE gives
the tree back. -/
theorem deserializeInvertsSerialize : Obligations.DeserializeInvertsSerialize := by
  intro s t ht hleaves
  have hks := serializeTree_kinds_length_le hleaves
  have hvs := serializeTree_values_length_le hleaves
  exact ⟨_, _, exec_serialize ht, exec_deserialize_serializeTree hleaves
    (kindsIn_fill (hks.trans_lt (by decide)) rfl rfl)
    (valuesIn_fill (hvs.trans_lt (by decide)) rfl rfl), rfl, rfl⟩

/-- Settles O31: the tree of an accepted pair has that pair as its level order. -/
theorem serializeInvertsDeserialize : Obligations.SerializeInvertsDeserialize := by
  intro s u hw h herr
  obtain ⟨hwkinds, hwvalues⟩ := Bool.and_eq_true_iff.1 hw
  obtain ⟨-, -, t, ht, rfl⟩ := deserialize_of_noError h herr
  have hexec := exec_serialize (s := report .noError 0 false (writeTree t 0 s)) (t := t) rfl
  rw [serializeTree_of_deserializePair ht] at hexec
  refine ⟨_, hexec, rfl, by simp [kindsIn_length], by simp [valuesIn_length], fun j hj => ?_,
    fun j hj => ?_⟩
  · rw [← kindsIn_getElem? hwkinds hj]
    exact (Memory.read_fill ..).trans (if_pos (kindsIn_length s ▸ hj))
  · rw [← valuesIn_getElem? hwvalues hj]
    exact (Memory.read_fill ..).trans (if_pos (valuesIn_length s ▸ hj))

/-- Settles O32: an accepted pair is the level order of a tree, and a pair that is not accepted meets
a sub-cause. -/
theorem deserializeAcceptsByTheCountingTest : Obligations.DeserializeAcceptsByTheCountingTest := by
  refine ⟨fun s _ hk hv hpair => ?_, fun s u _ h herr => ?_, fun ks vs hpair => ?_⟩
  · obtain ⟨t, ht⟩ := exists_serializeTree_eq hpair
    have hback := deserializePair_serializeTree t
    rw [ht] at hback
    exact ⟨t, exec_deserialize_of_ok hk hv hback⟩
  · obtain ⟨hk, hv, t, ht, -⟩ := deserialize_of_noError h herr
    exact ⟨hk, hv, accepted_of_deserializePair ht⟩
  · obtain ⟨hne, -, hfull, hvs⟩ := hpair
    omega

/-- Settles O33: the parser stops with the sub-cause a pair meets, of which there is one as the
parser gives one answer. -/
theorem deserializeReportsTheFirstSubCause : Obligations.DeserializeReportsTheFirstSubCause := by
  refine ⟨fun s c hk hv _ hc => ?_, fun ks vs hnot => ?_⟩
  · rw [exec_deserialize_of_error hk hv (deserializePair_of_malformed hc)]
    cases c <;> rfl
  · obtain ⟨c, hc⟩ := exists_malformed hnot
    exact ⟨c, hc, fun c' hc' => Except.error.inj
      ((deserializePair_of_malformed hc').symm.trans (deserializePair_of_malformed hc))⟩

/-- Settles O34: the capacity is tested before the pair is read. -/
theorem deserializeAbortsOverCapacity : Obligations.DeserializeAbortsOverCapacity := by
  intro s h
  rw [exec, execDeserialize, if_pos h]
  rfl

end Sys2Proof.Machine
end

section
/-! PROOFS. ENCODE (spec/45_bitstream_encoder.md): the codes of a covered prefix that fits are held and
the loop goes on behind it, where it ends, meets a byte without a code, or meets one that does not fit. -/

namespace Sys2Proof.Machine

/-! ## The loop over the input -/

section
variable {table : Memory Code} {maxBits i n : Nat} {bs rest : List Byte} {b : Byte} {c : Code}

theorem covers_take_succ (hb : bs[i]? = some b) :
    covers table (bs.take (i + 1)) ↔ covers table (bs.take i) ∧ (codeOf table b).isSome := by
  simp [covers, List.take_add_one, hb, or_imp, forall_and]

theorem concatCodes_take_succ (hb : bs[i]? = some b) :
    concatCodes table (bs.take (i + 1))
      = concatCodes table (bs.take i) ++ (codeOf table b).getD [] := by
  simp [concatCodes, List.take_add_one, hb]

theorem encodeBytes_cons_of_uncoded (hnone : codeOf table b = none) :
    encodeBytes table maxBits i n (b :: rest) = .error (.unknownSymbol, BitVec.ofNat 32 i) := by
  rw [encodeBytes, hnone]

theorem encodeBytes_cons_of_overflow (hc : codeOf table b = some c)
    (hover : maxBits < n + c.length) :
    encodeBytes table maxBits i n (b :: rest) = .error (.capacityExceeded, 0) := by
  rw [encodeBytes, hc]
  exact if_pos hover

theorem encodeBytes_cons_of_fits (hc : codeOf table b = some c) (hfits : n + c.length ≤ maxBits) :
    encodeBytes table maxBits i n (b :: rest)
      = (encodeBytes table maxBits (i + 1) (n + c.length) rest).map (c ++ ·) := by
  rw [encodeBytes, hc]
  dsimp only
  rw [if_neg hfits.not_gt]
  cases encodeBytes table maxBits (i + 1) (n + c.length) rest <;> rfl

/-- Past a covered prefix that fits, the loop holds the prefix's codes. -/
theorem encodeBytes_append (hcovers : covers table bs)
    (hfits : n + (concatCodes table bs).length ≤ maxBits) :
    encodeBytes table maxBits i n (bs ++ rest)
      = (encodeBytes table maxBits (i + bs.length) (n + (concatCodes table bs).length) rest).map
          (concatCodes table bs ++ ·) := by
  induction bs generalizing i n with
  | nil => exact (id_map (encodeBytes table maxBits i n rest)).symm
  | cons b bs ih =>
    obtain ⟨hb, hbs⟩ := List.forall_mem_cons.1 hcovers
    obtain ⟨c, hc⟩ := Option.isSome_iff_exists.1 hb
    have hcodes : concatCodes table (b :: bs) = c ++ concatCodes table bs := by
      simp [concatCodes, hc]
    have hindex : i + (b :: bs).length = i + 1 + bs.length := by
      rw [List.length_cons]
      omega
    rw [hcodes, List.length_append, ← Nat.add_assoc] at hfits ⊢
    rw [hindex, List.cons_append, encodeBytes_cons_of_fits hc (by omega), ih hbs hfits]
    cases encodeBytes table maxBits (i + 1 + bs.length)
      (n + c.length + (concatCodes table bs).length) rest <;> simp [Except.map]

/-- R180, R181: the loop ends with the concatenated codes. -/
theorem encodeBytes_of_covers (hcovers : covers table bs)
    (hfits : (concatCodes table bs).length ≤ maxBits) :
    encodeBytes table maxBits 0 0 bs = .ok (concatCodes table bs) := by
  have h := encodeBytes_append (i := 0) (rest := []) hcovers ((Nat.zero_add _).trans_le hfits)
  rwa [List.append_nil, encodeBytes, Except.map, List.append_nil] at h

/-- The loop comes to byte `i` when the bytes before it have codes that fit. -/
theorem encodeBytes_at (hb : bs[i]? = some b) (hcovers : covers table (bs.take i))
    (hfits : (concatCodes table (bs.take i)).length ≤ maxBits) :
    encodeBytes table maxBits 0 0 bs
      = (encodeBytes table maxBits i (concatCodes table (bs.take i)).length
          (b :: bs.drop (i + 1))).map (concatCodes table (bs.take i) ++ ·) := by
  obtain ⟨hi, rfl⟩ := List.getElem?_eq_some_iff.1 hb
  have h := encodeBytes_append (i := 0) (rest := bs.drop i) hcovers
    ((Nat.zero_add _).trans_le hfits)
  rwa [List.take_append_drop, Nat.zero_add, Nat.zero_add, List.length_take_of_le hi.le,
    List.drop_eq_getElem_cons hi] at h

/-- R188: the loop stops at a byte without a code and tells its index. -/
theorem encodeBytes_of_uncoded (hb : bs[i]? = some b) (hnone : codeOf table b = none)
    (hcovers : covers table (bs.take i))
    (hfits : (concatCodes table (bs.take i)).length ≤ maxBits) :
    encodeBytes table maxBits 0 0 bs = .error (.unknownSymbol, BitVec.ofNat 32 i) := by
  rw [encodeBytes_at hb hcovers hfits, encodeBytes_cons_of_uncoded hnone]
  rfl

/-- R184: the loop stops at a byte whose code does not fit, whatever bytes come after it. -/
theorem encodeBytes_of_overflow (hb : bs[i]? = some b) (hcovers : covers table (bs.take (i + 1)))
    (hfits : (concatCodes table (bs.take i)).length ≤ maxBits)
    (hover : maxBits < (concatCodes table (bs.take (i + 1))).length) :
    encodeBytes table maxBits 0 0 bs = .error (.capacityExceeded, 0) := by
  obtain ⟨hbefore, hcode⟩ := (covers_take_succ hb).1 hcovers
  obtain ⟨c, hc⟩ := Option.isSome_iff_exists.1 hcode
  rw [concatCodes_take_succ hb, hc, Option.getD_some, List.length_append] at hover
  rw [encodeBytes_at hb hbefore hfits, encodeBytes_cons_of_overflow hc hover]
  rfl

end

/-! ## The outcomes of ENCODE -/

section
variable {s : State} {m : Memory Code}

theorem exec_encode_of_covers (hm : s.code = some m) (hlen : s.inLen.toNat ≤ s.cfg.inCap.toNat)
    (hcovers : covers m s.input)
    (hfits : (concatCodes m s.input).length ≤ 8 * s.cfg.pkCap.toNat) :
    exec .encode s
      = .next (report .noError 0 false (writePacked (concatCodes m s.input) s)) := by
  rw [exec, execEncode, hm]
  dsimp only
  rw [if_neg hlen.not_gt, encodeBytes_of_covers hcovers hfits]
  rfl

theorem exec_encode_of_error {e : ErrKind × Word} (hm : s.code = some m)
    (hlen : s.inLen.toNat ≤ s.cfg.inCap.toNat)
    (he : encodeBytes m (8 * s.cfg.pkCap.toNat) 0 0 s.input = .error e) :
    exec .encode s = .next (aborted .encode e.1 e.2 s) := by
  rw [exec, execEncode, hm]
  dsimp only
  rw [if_neg hlen.not_gt, he]
  rfl

theorem exec_encode_of_inLen_gt (hm : s.code = some m)
    (hlen : s.cfg.inCap.toNat < s.inLen.toNat) :
    exec .encode s = .next (aborted .encode .capacityExceeded 0 s) := by
  rw [exec, execEncode, hm]
  dsimp only
  rw [if_pos hlen]
  rfl

/-- Without a bit to pack ENCODE leaves `PK` as it is and counts the input. -/
theorem exec_encode_of_concatCodes_eq_nil (hm : s.code = some m)
    (hlen : s.inLen.toNat ≤ s.cfg.inCap.toNat) (hcovers : covers m s.input)
    (hnil : concatCodes m s.input = []) :
    exec .encode s = .next { s with
      pkLen := 0, bitCount := 0, symCount := s.inLen
      err := .noError, errInfo := 0, partialFlag := false } := by
  have hpk : s.pk.fill (packBytes (padBits [])) = s.pk :=
    List.filter_eq_self.2 fun e _ => decide_eq_true (Nat.zero_le e.1)
  rw [exec_encode_of_covers hm hlen hcovers (by simp [hnil]), hnil, writePacked, hpk]
  rfl

end

/-! ## The packed bytes -/

theorem getD_padBits (bits : List Bool) (p : Nat) :
    (padBits bits).getD p false = bits.getD p false := by
  rw [padBits]
  rcases lt_or_ge p bits.length with hp | hp
  · exact List.getD_append _ _ _ _ hp
  · rw [List.getD_append_right _ _ _ _ hp, List.getD_eq_default _ _ hp]
    exact List.getElem?_getD_replicate_default_eq _ _ _

/-- R186: bit `p` of the padded bits is bit `7 - (p mod 8)` of cell `p div 8`. -/
theorem exists_read_fill_packBytes (m : Memory Byte) {bits : List Bool} {p : Nat}
    (hp : p < 8 * ((bits.length + 7) / 8)) :
    ∃ byte, (m.fill (packBytes (padBits bits))).read (p / 8) = some byte ∧
      byte.getLsbD (7 - p % 8) = bits.getD p false := by
  have hbyte : p / 8 < (padBits bits).length / 8 := by
    rw [padBits_length]
    omega
  refine ⟨byteOf (padBits bits) (p / 8), read_fill_of_getElem? m ?_, ?_⟩
  · simp [packBytes, hbyte]
  · rw [getLsbD_byteOf _ _ (Nat.mod_lt p (by decide)), Nat.div_add_mod, getD_padBits]

/-! ## The table of a single leaf -/

section
variable {b : Sym8} {bs : List Byte}

theorem covers_leaf (h : ∀ c ∈ bs, c = b) : covers (codeTable (.leaf b)) bs := by
  intro c hc
  rw [h c hc, codeOf_codeTable_leaf]
  rfl

theorem concatCodes_leaf (h : ∀ c ∈ bs, c = b) : concatCodes (codeTable (.leaf b)) bs = [] := by
  refine List.flatMap_eq_nil_iff.2 fun c hc => ?_
  rw [h c hc, codeOf_codeTable_leaf]
  rfl

end

/-! ## The statements -/

/-- Settles O35: the loop gives the concatenated codes, whose lengths fit the registers as `PK_CAP` is
at most `2^29 - 1`. -/
theorem encodePacksTheConcatenatedCodes : Obligations.EncodePacksTheConcatenatedCodes := by
  intro s m hm hcfg hlen _ hcovers hfits
  refine ⟨_, exec_encode_of_covers hm hlen hcovers hfits, rfl, ?_⟩
  generalize concatCodes m s.input = bits at hfits ⊢
  have hcap : s.cfg.pkCap.toNat ≤ 2 ^ 29 - 1 := by
    simp only [Config.wf, Bool.and_eq_true, decide_eq_true_eq] at hcfg
    omega
  have hbits : (BitVec.ofNat 32 bits.length).toNat = bits.length :=
    toNat_ofNat_of_lt (by omega)
  have hbytes : (BitVec.ofNat 32 ((padBits bits).length / 8)).toNat = (bits.length + 7) / 8 := by
    rw [padBits_length, Nat.mul_div_cancel_left _ (by decide), toNat_ofNat_of_lt (by omega)]
  refine ⟨hbits, hbytes, fun p hp => exists_read_fill_packBytes s.pk ?_, fun j hj => ?_⟩
  · rw [← hbytes]
    exact hp
  · refine read_fill_of_length_le s.pk ?_ (by rwa [packBytes_length])
    rw [packBytes_length, padBits_length]
    omega

/-- Settles O36: the loop comes to the first byte without a code and stops there. -/
theorem encodeAbortsAtTheFirstUncodedByte : Obligations.EncodeAbortsAtTheFirstUncodedByte := by
  intro s m i b hm hlen _ hb hnone hcovers hfits
  exact exec_encode_of_error hm hlen (encodeBytes_of_uncoded hb hnone hcovers hfits)

/-- Settles O37: the input length is tested before a byte is read, and the loop stops at the first byte
whose code does not fit; an input too long as well ends in the same abort. -/
theorem encodeAbortsOverCapacity : Obligations.EncodeAbortsOverCapacity := by
  refine ⟨fun s hcv hlen => ?_, fun s m i b hm _ hb hcovers hfits hover => ?_⟩
  · obtain ⟨m, hm⟩ := (cv_iff s).1 hcv
    exact exec_encode_of_inLen_gt hm hlen
  · rcases lt_or_ge s.cfg.inCap.toNat s.inLen.toNat with hlen | hlen
    · exact exec_encode_of_inLen_gt hm hlen
    · exact exec_encode_of_error hm hlen (encodeBytes_of_overflow hb hcovers hfits hover)

/-- Settles O38: the empty input is covered and has no bits. -/
theorem encodeOfEmptyInput : Obligations.EncodeOfEmptyInput := by
  intro s hcv hzero
  obtain ⟨m, hm⟩ := (cv_iff s).1 hcv
  have hnil : s.input = [] := input_eq_nil hzero
  rw [exec_encode_of_concatCodes_eq_nil hm (by simp [hzero]) (by simp [hnil, covers])
    (by simp [hnil, concatCodes]), hzero]

/-- Settles O39: the table of a leaf gives its symbol the empty code and no other symbol one. -/
theorem encodeWithASingleSymbolTable : Obligations.EncodeWithASingleSymbolTable := by
  intro s b hm hlen _
  refine ⟨fun hall => ?_, fun i c hc hne hbefore => ?_⟩
  · exact exec_encode_of_concatCodes_eq_nil hm hlen (covers_leaf hall) (concatCodes_leaf hall)
  · exact exec_encode_of_error hm hlen (encodeBytes_of_uncoded hc (codeOf_codeTable_leaf_ne hne)
      (covers_leaf hbefore) (by simp [concatCodes_leaf hbefore]))

end Sys2Proof.Machine
end

section
/-! PROOFS. A bit string splits into leaf paths and a tail in exactly one way (R199, R200), and the
walk of DECODE emits the leaves of that split. -/

namespace Sys2Proof.Machine

/-! ## Paths to leaves -/

/-- Nothing goes on below a leaf. -/
theorem HuffTree.eq_nil_of_follow_append {t u : HuffTree} {b : Sym8} {c q : Code}
    (hb : t.follow c = some (.leaf b)) (hu : t.follow (c ++ q) = some u) :
    q = [] ∧ u = .leaf b := by
  rw [follow_append, hb, Option.bind_some] at hu
  cases q with
  | nil => exact ⟨rfl, (Option.some.inj hu).symm⟩
  | cons _ _ => cases hu

/-- A bit string begins with the path of one leaf at most. -/
theorem HuffTree.follow_leaf_unique {t : HuffTree} {b b' : Sym8} {c c' q q' : Code}
    (hb : t.follow c = some (.leaf b)) (hb' : t.follow c' = some (.leaf b'))
    (h : c ++ q = c' ++ q') : c = c' ∧ b = b' ∧ q = q' := by
  obtain ⟨d, rfl, rfl⟩ | ⟨d, rfl, rfl⟩ := List.append_eq_append_iff.1 h
  · obtain ⟨rfl, hleaf⟩ := eq_nil_of_follow_append hb hb'
    exact ⟨(List.append_nil c).symm, (leaf.inj hleaf).symm, rfl⟩
  · obtain ⟨rfl, hleaf⟩ := eq_nil_of_follow_append hb' hb
    exact ⟨List.append_nil c', leaf.inj hleaf, rfl⟩

/-- A bit string begins with the path of a leaf or stays inside the tree. -/
theorem HuffTree.leaf_or_inside (t : HuffTree) (bits : Code) :
    (∃ c b rest, bits = c ++ rest ∧ t.follow c = some (.leaf b)) ∨
      ∃ l r, t.follow bits = some (.node l r) := by
  induction t generalizing bits with
  | leaf b => exact .inl ⟨[], b, bits, rfl, rfl⟩
  | node l r ihl ihr =>
    cases bits with
    | nil => exact .inr ⟨l, r, rfl⟩
    | cons bit bits =>
      have ih : (∃ c b rest, bits = c ++ rest ∧
          (if bit then r else l).follow c = some (.leaf b)) ∨
          ∃ l' r', (if bit then r else l).follow bits = some (.node l' r') := by
        split
        · exact ihr bits
        · exact ihl bits
      obtain ⟨c, b, rest, rfl, hc⟩ | hinside := ih
      · exact .inl ⟨bit :: c, b, rest, rfl, hc⟩
      · exact .inr hinside

theorem HuffTree.ne_nil_of_follow_leaf {l r : HuffTree} {b : Sym8} {c : Code}
    (h : (HuffTree.node l r).follow c = some (.leaf b)) : c ≠ [] := by
  rintro rfl
  cases h

/-! ## Splits -/

section
variable {t : HuffTree} {bits tail tail' : Code} {e : Code × Sym8}
  {parts parts' : List (Code × Sym8)}

theorem splits_nil_iff :
    splits t bits [] tail ↔ bits = tail ∧ ∃ l r, t.follow tail = some (.node l r) := by
  simp [splits]

theorem splits_cons_iff :
    splits t bits (e :: parts) tail ↔
      t.follow e.1 = some (.leaf e.2) ∧ ∃ rest, bits = e.1 ++ rest ∧ splits t rest parts tail := by
  simp only [splits, List.map_cons, List.flatten_cons, List.append_assoc, List.forall_mem_cons]
  constructor
  · rintro ⟨rfl, ⟨he, hparts⟩, htail⟩
    exact ⟨he, _, rfl, rfl, hparts, htail⟩
  · rintro ⟨he, rest, rfl, rfl, hparts, htail⟩
    exact ⟨rfl, ⟨he, hparts⟩, htail⟩

/-- A tail inside the tree does not begin with the path of a leaf. -/
theorem not_splits_cons_of_inside {l r : HuffTree} (h : t.follow bits = some (.node l r)) :
    ¬ splits t bits (e :: parts) tail := by
  rw [splits_cons_iff]
  rintro ⟨he, rest, rfl, -⟩
  cases (HuffTree.eq_nil_of_follow_append he h).2

theorem splits_unique (h : splits t bits parts tail) (h' : splits t bits parts' tail') :
    parts = parts' ∧ tail = tail' := by
  induction parts generalizing bits parts' with
  | nil =>
    obtain ⟨rfl, l, r, htail⟩ := splits_nil_iff.1 h
    cases parts' with
    | nil => exact ⟨rfl, (splits_nil_iff.1 h').1⟩
    | cons e' parts' => exact absurd h' (not_splits_cons_of_inside htail)
  | cons e parts ih =>
    cases parts' with
    | nil =>
      obtain ⟨rfl, l, r, htail⟩ := splits_nil_iff.1 h'
      exact absurd h (not_splits_cons_of_inside htail)
    | cons e' parts' =>
      obtain ⟨he, rest, rfl, hrest⟩ := splits_cons_iff.1 h
      obtain ⟨he', rest', hbits, hrest'⟩ := splits_cons_iff.1 h'
      obtain ⟨hpath, hsym, rfl⟩ := HuffTree.follow_leaf_unique he he' hbits
      obtain ⟨rfl, rfl⟩ := ih hrest hrest'
      exact ⟨congrArg (· :: parts) (Prod.ext hpath hsym), rfl⟩

end

/-- Every bit string splits: each leaf path taken off a tree that is no single leaf shortens it. -/
theorem exists_splits (l r : HuffTree) (bits : Code) :
    ∃ parts tail, splits (.node l r) bits parts tail := by
  obtain ⟨c, b, rest, hbits, hc⟩ | hinside := (HuffTree.node l r).leaf_or_inside bits
  · have hpos : 0 < c.length := List.length_pos_of_ne_nil (HuffTree.ne_nil_of_follow_leaf hc)
    have hshorter : rest.length < bits.length := by
      rw [hbits, List.length_append]
      omega
    obtain ⟨parts, tail, hrest⟩ := exists_splits l r rest
    exact ⟨(c, b) :: parts, tail, splits_cons_iff.2 ⟨hc, rest, hbits, hrest⟩⟩
  · exact ⟨[], bits, splits_nil_iff.2 ⟨rfl, hinside⟩⟩
termination_by bits.length

/-! ## The walk of DECODE over a split -/

section
variable {root cur l r : HuffTree} {inside : Bool} {outCap m : Nat} {b : Sym8} {c tail : Code}
  {bits : List Bool} {parts : List (Code × Sym8)}

/-- A path that stays inside the tree emits nothing. -/
theorem decodeWalk_inside (h : cur.follow c = some (.node l r)) (rest : List Bool) :
    decodeWalk root outCap cur inside m (c ++ rest)
      = decodeWalk root outCap (.node l r) (inside || decide (c ≠ [])) m rest := by
  induction c generalizing cur inside with
  | nil =>
    obtain rfl := Option.some.inj h
    simp
  | cons bit c ih =>
    cases cur with
    | leaf s => cases h
    | node l' r' =>
      rw [HuffTree.follow_node] at h
      rw [List.cons_append, decodeWalk, HuffTree.child]
      cases hnext : (if bit then r' else l') with
      | leaf s =>
        rw [hnext] at h
        cases c <;> cases h
      | node l'' r'' =>
        rw [hnext] at h
        simp [ih h]

/-- At the end of `OUT` the path of a leaf aborts. -/
theorem decodeWalk_path_of_full (hc : c ≠ []) (h : cur.follow c = some (.leaf b))
    (rest : List Bool) : decodeWalk root m cur inside m (c ++ rest) = none := by
  obtain ⟨p, bit, rfl⟩ := (List.eq_nil_or_concat' c).resolve_left hc
  rw [HuffTree.follow_append] at h
  obtain ⟨u, hu, hbit⟩ := Option.bind_eq_some_iff.1 h
  cases u with
  | leaf s => cases hbit
  | node l r =>
    have hchild : (if bit then r else l) = .leaf b := Option.some.inj
      ((HuffTree.follow_nil _).symm.trans hbit)
    rw [List.append_assoc, decodeWalk_inside hu, List.singleton_append, decodeWalk, HuffTree.child,
      hchild]
    exact if_pos rfl

/-- R200, R203: when its leaves fit, the walk over a split emits their symbols and ends inside a code
exactly when the tail is not empty. -/
theorem decodeWalk_of_splits (h : splits (.node l r) bits parts tail)
    (hfits : m + parts.length ≤ outCap) :
    decodeWalk (.node l r) outCap (.node l r) false m bits
      = some (parts.map Prod.snd, decide (tail ≠ [])) := by
  induction parts generalizing bits m with
  | nil =>
    obtain ⟨rfl, l', r', htail⟩ := splits_nil_iff.1 h
    rw [← List.append_nil bits, decodeWalk_inside htail, Bool.false_or, List.append_nil]
    rfl
  | cons e parts ih =>
    obtain ⟨he, rest, rfl, hrest⟩ := splits_cons_iff.1 h
    rw [List.length_cons] at hfits
    rw [decodeWalk_path (HuffTree.ne_nil_of_follow_leaf he) he (by omega), ih hrest (by omega)]
    rfl

/-- R205: when they do not fit, it aborts. -/
theorem decodeWalk_of_splits_of_overflow (h : splits (.node l r) bits parts tail) (hm : m ≤ outCap)
    (hover : outCap < m + parts.length) :
    decodeWalk (.node l r) outCap (.node l r) false m bits = none := by
  induction parts generalizing bits m with
  | nil => exact absurd hover hm.not_gt
  | cons e parts ih =>
    obtain ⟨he, rest, rfl, hrest⟩ := splits_cons_iff.1 h
    have hne : e.1 ≠ [] := HuffTree.ne_nil_of_follow_leaf he
    rw [List.length_cons] at hover
    rcases hm.eq_or_lt with rfl | hlt
    · exact decodeWalk_path_of_full hne he rest
    · rw [decodeWalk_path hne he hlt, ih hrest hlt (by omega)]
      rfl

end

end Sys2Proof.Machine
end

section
/-! PROOFS. DECODE (spec/46_bitstream_decoder.md): its checks in the order of R198, its two cases, and
the input that ENCODE packed. -/

namespace Sys2Proof.Machine

/-! ## The outcomes of DECODE -/

section
variable {s : State} {t : HuffTree}

theorem exec_decode_of_pkLen_gt (ht : s.tree = some t) (hpk : s.cfg.pkCap.toNat < s.pkLen.toNat) :
    exec .decode s = .next (aborted .decode .capacityExceeded 0 s) := by
  rw [exec, execDecode, ht]
  exact if_pos hpk

theorem exec_decode_of_bitCount_gt (ht : s.tree = some t)
    (hpk : s.pkLen.toNat ≤ s.cfg.pkCap.toNat) (hcount : 8 * s.pkLen.toNat < s.bitCount.toNat) :
    exec .decode s = .next (aborted .decode .truncatedBitstream 0 s) := by
  rw [exec, execDecode, ht]
  dsimp only
  rw [if_neg hpk.not_gt]
  exact if_pos hcount

end

section
variable {s : State} {l r : HuffTree} {b : Sym8} {tail : Code} {parts : List (Code × Sym8)}
  (hpk : s.pkLen.toNat ≤ s.cfg.pkCap.toNat) (hcount : s.bitCount.toNat ≤ 8 * s.pkLen.toNat)

include hpk hcount

theorem exec_decode_leaf_of_le (ht : s.tree = some (.leaf b))
    (hsym : s.symCount.toNat ≤ s.cfg.outCap.toNat) :
    exec .decode s
      = .next (report .noError 0 false (writeOut (List.replicate s.symCount.toNat b) s)) := by
  rw [exec, execDecode, ht]
  dsimp only
  rw [if_neg hpk.not_gt, if_neg hcount.not_gt, if_neg hsym.not_gt]
  rfl

theorem exec_decode_leaf_of_gt (ht : s.tree = some (.leaf b))
    (hsym : s.cfg.outCap.toNat < s.symCount.toNat) :
    exec .decode s = .next (aborted .decode .capacityExceeded 0 s) := by
  rw [exec, execDecode, ht]
  dsimp only
  rw [if_neg hpk.not_gt, if_neg hcount.not_gt, if_pos hsym]
  rfl

theorem exec_decode_of_splits (ht : s.tree = some (.node l r))
    (hsplits : splits (.node l r) s.bitsIn parts tail)
    (hfits : parts.length ≤ s.cfg.outCap.toNat) :
    exec .decode s
      = .next (report .noError 0 (decide (tail ≠ [])) (writeOut (parts.map Prod.snd) s)) := by
  rw [exec, execDecode, ht]
  dsimp only
  rw [if_neg hpk.not_gt, if_neg hcount.not_gt, decodeWalk_of_splits hsplits (by omega)]
  rfl

theorem exec_decode_of_splits_of_overflow (ht : s.tree = some (.node l r))
    (hsplits : splits (.node l r) s.bitsIn parts tail)
    (hover : s.cfg.outCap.toNat < parts.length) :
    exec .decode s = .next (aborted .decode .capacityExceeded 0 s) := by
  rw [exec, execDecode, ht]
  dsimp only
  rw [if_neg hpk.not_gt, if_neg hcount.not_gt,
    decodeWalk_of_splits_of_overflow hsplits (Nat.zero_le _) (by omega)]
  rfl

end

/-- A bit count within the payload leaves DECODE no error but the capacities. -/
theorem exec_decode_err_of_bitCount_le {s : State} {t : HuffTree} (ht : s.tree = some t)
    (hcount : s.bitCount.toNat ≤ 8 * s.pkLen.toNat) :
    ∃ u, exec .decode s = .next u ∧ (u.err = .noError ∨ u.err = .capacityExceeded) := by
  rcases lt_or_ge s.cfg.pkCap.toNat s.pkLen.toNat with hpk | hpk
  · exact ⟨_, exec_decode_of_pkLen_gt ht hpk, .inr rfl⟩
  cases t with
  | leaf b =>
    rcases le_or_gt s.symCount.toNat s.cfg.outCap.toNat with hsym | hsym
    · exact ⟨_, exec_decode_leaf_of_le hpk hcount ht hsym, .inl rfl⟩
    · exact ⟨_, exec_decode_leaf_of_gt hpk hcount ht hsym, .inr rfl⟩
  | node l r =>
    obtain ⟨parts, tail, hsplits⟩ := exists_splits l r s.bitsIn
    rcases le_or_gt parts.length s.cfg.outCap.toNat with hfits | hover
    · exact ⟨_, exec_decode_of_splits hpk hcount ht hsplits hfits, .inl rfl⟩
    · exact ⟨_, exec_decode_of_splits_of_overflow hpk hcount ht hsplits hover, .inr rfl⟩

/-! ## The bits that are read -/

@[simp] theorem Memory.fill_nil {α : Type} (m : Memory α) : m.fill [] = m :=
  List.filter_eq_self.2 fun e _ => decide_eq_true (Nat.zero_le e.1)

theorem bitsIn_length (s : State) : s.bitsIn.length = s.bitCount.toNat := liveBits_length ..

/-- R69: bit `p` is bit `7 - (p mod 8)` of cell `p div 8`. -/
theorem exists_read_of_bitsIn {s : State} (hw : inputsWritten .decode s = true) {p : Nat}
    (hp : p < s.bitCount.toNat) :
    ∃ byte, s.pk.read (p / 8) = some byte ∧ s.bitsIn[p]? = some (byte.getLsbD (7 - p % 8)) := by
  obtain ⟨byte, hbyte⟩ := Memory.writtenBelow_iff.1 hw (p / 8) (by omega)
  refine ⟨byte, hbyte, ?_⟩
  simp [State.bitsIn, liveBits, hp, hbyte]

/-! ## DECODE after ENCODE -/

/-- The packed bits fit `PK`, and `BITCOUNT` lies within them. -/
theorem writePacked_payload {s : State} {bits : List Bool} (hcfg : s.cfg.wf = true)
    (hfits : bits.length ≤ 8 * s.cfg.pkCap.toNat) :
    bits.length < 2 ^ 32 ∧ (writePacked bits s).pkLen.toNat ≤ s.cfg.pkCap.toNat ∧
      (writePacked bits s).bitCount.toNat ≤ 8 * (writePacked bits s).pkLen.toNat := by
  have hcap : s.cfg.pkCap.toNat ≤ 2 ^ 29 - 1 := by
    simp only [Config.wf, Bool.and_eq_true, decide_eq_true_eq] at hcfg
    omega
  rw [writePacked_pkLen, writePacked_bitCount, padBits_length, toNat_ofNat_of_lt (by omega),
    toNat_ofNat_of_lt (by omega)]
  omega

/-- R206: the codes that ENCODE packed decode to its input. -/
theorem exec_decode_of_encode {s u : State} {t : HuffTree} (ht : s.tree = some t)
    (hm : s.code = some (codeTable t)) (hcfg : s.cfg.wf = true)
    (hout : s.inLen.toNat ≤ s.cfg.outCap.toNat) (h : exec .encode s = .next u)
    (herr : u.err = .noError) :
    exec .decode u = .next (report .noError 0 false (writeOut s.input u)) := by
  obtain ⟨hcovers, hfits, rfl⟩ := encode_of_noError h herr hm rfl
  obtain ⟨hlt, hpk, hcount⟩ := writePacked_payload hcfg hfits
  exact exec_decode_concatCodes (by simpa using ht) (bitsIn_fill (m := s.pk) hlt (by simp) (by simp))
    hcovers (by simp [input_length]) (by simpa [input_length] using hout) (by simpa using hpk)
    (by simpa using hcount)

/-! ## The statements -/

/-- Settles O45: ENCODE packs the codes of the input with the table of the tree that is still in `TREE`,
and DECODE walks them back; that the symbols are distinct is not needed. -/
theorem decodeInvertsEncode : Obligations.DecodeInvertsEncode := by
  intro s₀ s t u ht _ hgen hcfg hout hw h herr
  obtain rfl := Host.Outcome.next.inj ((exec_gencode ht).symm.trans hgen)
  refine ⟨_, exec_decode_of_encode (by simpa using ht) (by simp) hcfg hout h herr, rfl, rfl, ?_,
    fun j hj => ?_⟩
  · simp [input_length]
  · rw [report_out, writeOut_out, Memory.read_fill, if_pos ((input_length _).symm ▸ hj),
      input_getElem? hw hj]

/-- Settles O40: the bits split, and the walk emits the leaves of the split or aborts. -/
theorem decodeEmitsTheLeavesOfThePaths : Obligations.DecodeEmitsTheLeavesOfThePaths := by
  intro s l r ht hw hpk hcount
  refine ⟨⟨bitsIn_length s, fun p hp => exists_read_of_bitsIn hw hp⟩, ?_⟩
  obtain ⟨parts, tail, hsplits⟩ := exists_splits l r s.bitsIn
  refine ⟨parts, tail, hsplits, fun hfits => ?_, fun hover => ?_⟩
  · refine ⟨_, exec_decode_of_splits hpk hcount ht hsplits hfits, ?_, fun j e hj => ?_,
      fun j hj => ?_⟩
    · rw [writeOut, List.length_map]
      rfl
    · exact read_fill_of_getElem? s.out (by rw [List.getElem?_map, hj]; rfl)
    · rw [report_out, writeOut_out, Memory.read_fill, if_neg (by rw [List.length_map]; omega)]
  · exact exec_decode_of_splits_of_overflow hpk hcount ht hsplits hover

/-- Settles O41: the first leaf path of a split is the only one its bits begin with, and a tail begins
with none. -/
theorem splitsAreUnique : Obligations.SplitsAreUnique :=
  fun _ _ _ _ _ _ _ h h' => splits_unique h h'

/-- Settles O42: the bits of the payload are not looked at. -/
theorem decodeOfALeafEmitsSymCountCopies : Obligations.DecodeOfALeafEmitsSymCountCopies := by
  intro s b ht hpk hcount
  refine ⟨fun hsym => ?_, fun hsym => exec_decode_leaf_of_gt hpk hcount ht hsym⟩
  have hlen : BitVec.ofNat 32 (List.replicate s.symCount.toNat b).length = s.symCount := by simp
  refine ⟨_, exec_decode_leaf_of_le hpk hcount ht hsym, ?_, fun j hj => ?_, fun j hj => ?_⟩
  · rw [writeOut, hlen]
    rfl
  · exact read_fill_of_getElem? s.out (by simp [hj])
  · exact read_fill_of_length_le s.out (by simpa using s.symCount.isLt) (by rwa [hlen])

/-- Settles O43: the two checks come first, and the cases behind them raise nothing but
CapacityExceeded. -/
theorem decodeChecksLengthsBeforeBits : Obligations.DecodeChecksLengthsBeforeBits := by
  intro s htv
  obtain ⟨t, ht⟩ := (tv_iff s).1 htv
  refine ⟨exec_decode_of_pkLen_gt ht, exec_decode_of_bitCount_gt ht, fun hcount u hu => ?_⟩
  obtain ⟨u', hu', herr⟩ := exec_decode_err_of_bitCount_le ht hcount
  obtain rfl := Host.Outcome.next.inj (hu'.symm.trans hu)
  rcases herr with herr | herr <;> rw [herr] <;> nofun

/-- Settles O44: no bits split into no paths and no tail. -/
theorem decodeOfNoBits : Obligations.DecodeOfNoBits := by
  intro s l r ht hpk hzero
  have hbits : s.bitsIn = [] := List.eq_nil_of_length_eq_zero (by rw [bitsIn_length, hzero]; rfl)
  have hsplits : splits (.node l r) s.bitsIn [] [] := splits_nil_iff.2 ⟨hbits, l, r, rfl⟩
  rw [exec_decode_of_splits hpk (by rw [hzero]; exact Nat.zero_le _) ht hsplits (Nat.zero_le _),
    List.map_nil, writeOut, Memory.fill_nil]
  rfl

end Sys2Proof.Machine
end

section
/-! PROOFS. Aborts (spec/60_exceptions.md): what every abort leaves (R213), and when NoOperand is raised
(R216). -/

namespace Sys2Proof.Machine

/-! ## What an abort leaves -/

/-- Settles O6: of a command's ways to end only `aborted` reports an error, and it is a report on the
emptied outputs; `illegal` is a report alone. -/
theorem abortEmptiesTheOutputsAlone : Obligations.AbortEmptiesTheOutputsAlone := by
  refine ⟨fun i s t h herr => ?_, fun w s hw => ⟨s.tick + 1, runCommand_of_illegalWord hw s⟩⟩
  cases ends_of_exec h with
  | abort _ => exact ⟨_, _, by cases i <;> rfl⟩
  | _ => exact absurd rfl herr

/-! ## The operand of a command -/

theorem tv_eq_false_iff (s : State) : s.tv = false ↔ s.tree = none := by
  simp [State.tv]

theorem cv_eq_false_iff (s : State) : s.cv = false ↔ s.code = none := by
  simp [State.cv]

section
variable {s : State} {i : Instr}

theorem exec_of_tree_eq_none (hi : i = .gencode ∨ i = .serialize ∨ i = .decode)
    (ht : s.tree = none) : exec i s = .next (aborted i .noOperand 0 s) := by
  rcases hi with rfl | rfl | rfl
  · rw [exec, execGencode, ht]
    rfl
  · rw [exec, execSerialize, ht]
    rfl
  · rw [exec, execDecode, ht]
    rfl

theorem exec_encode_of_code_eq_none (hm : s.code = none) :
    exec .encode s = .next (aborted .encode .noOperand 0 s) := by
  rw [exec, execEncode, hm]
  rfl

theorem exec_decode_err_ne_noOperand {u : HuffTree} (ht : s.tree = some u) :
    ∃ t, exec .decode s = .next t ∧ t.err ≠ .noOperand := by
  rcases lt_or_ge (8 * s.pkLen.toNat) s.bitCount.toNat with hcount | hcount
  · rcases lt_or_ge s.cfg.pkCap.toNat s.pkLen.toNat with hpk | hpk
    · exact ⟨_, exec_decode_of_pkLen_gt ht hpk, nofun⟩
    · exact ⟨_, exec_decode_of_bitCount_gt ht hpk hcount, nofun⟩
  · obtain ⟨t, h, herr⟩ := exec_decode_err_of_bitCount_le ht hcount
    exact ⟨t, h, by rcases herr with herr | herr <;> rw [herr] <;> nofun⟩

theorem exec_err_ne_noOperand_of_tree {u : HuffTree}
    (hi : i = .gencode ∨ i = .serialize ∨ i = .decode) (ht : s.tree = some u) :
    ∃ t, exec i s = .next t ∧ t.err ≠ .noOperand := by
  rcases hi with rfl | rfl | rfl
  · exact ⟨_, exec_gencode ht, nofun⟩
  · exact ⟨_, exec_serialize ht, nofun⟩
  · exact exec_decode_err_ne_noOperand ht

theorem exec_encode_err_ne_noOperand {m : Memory Code} (hm : s.code = some m) :
    ∃ t, exec .encode s = .next t ∧ t.err ≠ .noOperand := by
  rcases execEncode_cases s with ⟨hnone, -⟩ | ⟨_, -, ⟨-, h⟩ | ⟨-, ⟨e, he, h⟩ | ⟨_, -, h⟩⟩⟩
  · exact absurd (hm.symm.trans hnone) nofun
  · exact ⟨_, h, nofun⟩
  · refine ⟨_, h, ?_⟩
    rcases encodeBytes_error he with rfl | ⟨j, -, rfl⟩ <;> nofun
  · exact ⟨_, h, nofun⟩

/-- Only the four commands of R216 raise NoOperand. -/
theorem instr_of_err_noOperand {t : State} (h : exec i s = .next t) (herr : t.err = .noOperand) :
    (i = .gencode ∨ i = .serialize ∨ i = .decode) ∨ i = .encode := by
  cases ends_of_exec h with
  | abort hraise =>
    obtain rfl := (aborted_err ..).symm.trans herr
    cases hraise with
    | noOperand hi => tauto
  | _ => cases herr

/-- A command that can end without NoOperand never ends with it: it has one outcome. -/
theorem ne_noOperand_of_exists {t : State} (hex : ∃ u, exec i s = .next u ∧ u.err ≠ .noOperand)
    (h : exec i s = .next t) : t.err ≠ .noOperand := by
  obtain ⟨u, hu, hne⟩ := hex
  obtain rfl := Host.Outcome.next.inj (hu.symm.trans h)
  exact hne

end

/-- Settles O26: without its store a command aborts at its first check, and with it the checks behind
raise other kinds. -/
theorem noOperandExactlyWithoutTheStore : Obligations.NoOperandExactlyWithoutTheStore := by
  simp only [Obligations.NoOperandExactlyWithoutTheStore, tv_eq_false_iff, cv_eq_false_iff]
  refine ⟨fun i s t h => ⟨fun herr => ?_, ?_⟩, fun s ht => ⟨exec_of_tree_eq_none (.inl rfl) ht,
    exec_of_tree_eq_none (.inr (.inl rfl)) ht, exec_of_tree_eq_none (.inr (.inr rfl)) ht⟩,
    fun s hm => exec_encode_of_code_eq_none hm⟩
  · rcases instr_of_err_noOperand h herr with hi | rfl
    · refine .inl ⟨hi, Option.eq_none_iff_forall_ne_some.2 fun u ht => ?_⟩
      exact ne_noOperand_of_exists (exec_err_ne_noOperand_of_tree hi ht) h herr
    · refine .inr ⟨rfl, Option.eq_none_iff_forall_ne_some.2 fun m hm => ?_⟩
      exact ne_noOperand_of_exists (exec_encode_err_ne_noOperand hm) h herr
  · rintro (⟨hi, ht⟩ | ⟨rfl, hm⟩)
    · obtain rfl := Host.Outcome.next.inj ((exec_of_tree_eq_none hi ht).symm.trans h)
      rfl
    · obtain rfl := Host.Outcome.next.inj ((exec_encode_of_code_eq_none hm).symm.trans h)
      rfl

end Sys2Proof.Machine
end

section
/-! PROOFS. Every step ends (spec/70_reset_and_hazards.md R254), and what each command answers on the
reset state (R242). -/

namespace Sys2Proof.Machine

/-! ## Every step ends -/

/-- A read, a write and the reset input answer at once, a command with its operation. -/
theorem exists_serve_eq_next (x : Transaction) (s : State) : ∃ t, serve x s = .next t := by
  cases x with
  | read space i => exact ⟨_, serve_read space i s⟩
  | write space i v =>
    cases hc : isCommand space i with
    | false => exact ⟨_, serve_write hc s⟩
    | true =>
      obtain ⟨rfl, rfl⟩ := isCommand_iff.1 hc
      obtain ⟨t, ht, -⟩ := runCommand_ok v s
      exact ⟨t, (serve_command v s).trans ht⟩
  | reset => exact ⟨_, serve_reset s⟩

theorem exists_step_eq_next (s : State) : ∃ t, step s = .next t := by
  cases hp : s.pending with
  | nil => exact ⟨s, step_idle s hp⟩
  | cons x rest =>
    rw [step_pending hp]
    exact exists_serve_eq_next x _

/-- Settles O5: a command ends in one of its ways, and a step is idle or serves one transaction. -/
theorem everyCommandCompletes : Obligations.EveryCommandCompletes :=
  ⟨fun i s => (exec_ends i s).imp fun _ h => h.1, exists_step_eq_next⟩

/-! ## The commands on the reset state -/

/-- Settles O55: the reset state has nothing pending, an empty input, no count, no tree, no table and an
empty pair, so each command meets its case for these; the outputs an abort empties are empty already. -/
theorem commandsOnTheResetState : Obligations.CommandsOnTheResetState := by
  obtain ⟨hfreq, hbuild⟩ := freqOfEmptyInputIsTheEmptyMapping State.reset rfl
  exact ⟨step_idle _ rfl, hfreq, hbuild,
    exec_of_tree_eq_none (.inl rfl) rfl, exec_of_tree_eq_none (.inr (.inl rfl)) rfl,
    exec_of_tree_eq_none (.inr (.inr rfl)) rfl, exec_encode_of_code_eq_none rfl,
    exec_deserialize_of_error (c := .noRoot) (Nat.zero_le _) (Nat.zero_le _) rfl⟩

end Sys2Proof.Machine
end
